-- ==== Sys2Proof/Word.lean ====
section
/-! DEFINITION. The widths of the spec's quantities and the two kinds of words an instruction is read from. -/

namespace Sys2Proof

/-- A byte, 8 bits (00_scope.md R14). -/
abbrev Byte := BitVec 8

/-- An `XLEN`-bit unsigned quantity, `XLEN = 32` (00_scope.md R10): geometry registers, addresses, lengths. -/
abbrev XWord := BitVec 32

/-- The 24-bit address of the wire, `WIRE_ADDR_BITS = 24` (00_scope.md R9). -/
abbrev Addr24 := BitVec 24

/-- A host request (10_state.md R37): the 4-bit selector of 30_encoding.md R117, the three operand slots of R118
and the payload of `program`. -/
structure Request where
  op   : BitVec 4
  arg0 : XWord
  arg1 : XWord
  arg2 : XWord
  wbuf : List Byte
  deriving DecidableEq, Repr

/-- A wire transaction seen as a word (30_encoding.md R100 to R102): the bytes written, header first, and the length
of a payload that is read back, which the wire itself does not encode (R110). -/
structure Frame where
  bytes : List Byte
  len   : XWord
  deriving DecidableEq, Repr

/-- What an instruction is decoded from: a request at the host interface or a transaction on the wire. -/
inductive Fetched where
  | host (r : Request)
  | wire (f : Frame)
  deriving DecidableEq, Repr

end Sys2Proof
end

