-- ==== Sys2Proof/Config.lean ====
section
/-! DEFINITION. What is fixed for the machine (10_state.md R44): the opcode table, the result codes, the one
parameter the spec leaves two values for, and the free values of everything the spec calls unspecified. -/

namespace Sys2Proof

/-- The fourteen mnemonics of the wire (30_encoding.md R104), and `unknown` for every other byte (R108). -/
inductive Mnemonic where
  | writeEnable | writeDisable | readStatus | writeStatus
  | readData | readDataFast | readDataFastDual | programPage
  | eraseSector | eraseBlock | eraseChip | powerDown | powerUp | readJedecId
  | unknown
  deriving DecidableEq, Repr

/-- The seven commands the core emits (30_encoding.md R106, R107). -/
inductive Command where
  | writeEnable | readStatus | readJedecId | eraseChip | readData | programPage | eraseBlock
  deriving DecidableEq, Repr

/-- The result codes of 60_exceptions.md R231. -/
inductive ResultCode where
  | ok | zeroPageSize | pageExceedsBlock | blockExceedsDevice
  | outOfRange | misaligned | pageBoundaryCrossed
  | transportError | deviceBusy
  | notConfigured | alreadyConfigured | implausibleId | illegalOp
  deriving DecidableEq, Repr, Inhabited

/-- The two admitted values of the parameter `ERASE_CHIP_OPCODE` (00_scope.md R11, 30_encoding.md R105). -/
inductive EraseChipOpcode where
  | c7 | x60
  deriving DecidableEq, Repr

/-- The identity record `JEDECID` (10_state.md R43): byte 0 reserved, then manufacturer, device, capacity. -/
structure JedecId where
  reserved     : Byte
  manufacturer : Byte
  device       : Byte
  capacity     : Byte
  deriving DecidableEq, Repr, Inhabited

namespace Config

/-- `ADDR_BYTES` (00_scope.md R9). -/
def addrBytes : Nat := 3

/-- `XLEN` (00_scope.md R10, decision D2). -/
def xlen : Nat := 32

/-- The source's whole list of opcodes, in its order (30_encoding.md R104); `ERASE_CHIP` has two (R105). -/
def opcodeTable : List (Mnemonic × Byte) :=
  [(.writeEnable, 0x06), (.writeDisable, 0x04), (.readStatus, 0x05), (.writeStatus, 0x01),
   (.readData, 0x03), (.readDataFast, 0x0B), (.readDataFastDual, 0x3B), (.programPage, 0x02),
   (.eraseSector, 0x20), (.eraseBlock, 0xD8), (.eraseChip, 0xC7), (.eraseChip, 0x60),
   (.powerDown, 0xB9), (.powerUp, 0xAB), (.readJedecId, 0x9F)]

/-- Free value: does the transport call that draws this number return at all? (70_reset_and_hazards.md R276,
93_implementation_defined.md U16; log 10) -/
opaque freeReturns : Nat → Bool

/-- Free value: the count the environment answers a transport call with (60_exceptions.md R248, R249; log 9). -/
opaque freeCount : Nat → Nat

/-- Free value: byte `i` of what draw `n` supplies (00_scope.md R19, R20; logs 9 and 11). -/
opaque freeByte : Nat → Nat → Byte

/-- Free value: an unspecified bit of a response (10_state.md R38; log 11). -/
opaque freeBool : Nat → Bool

/-- Free value: an unspecified byte sequence (10_state.md R38, R50; logs 6 and 11). -/
opaque freeBytes : Nat → List Byte

/-- Free value: an unspecified identity record (10_state.md R38; log 11). -/
opaque freeId : Nat → JedecId

/-- Free value: the unspecified `XLEN`-bit register `i` after a reset (10_state.md R50; log 6). -/
opaque freeWord : Nat → Nat → XWord

/-- Free value: the unspecified result code after a reset (10_state.md R50; log 6). -/
opaque freeCode : Nat → ResultCode

/-- Free value: does the device end its cycle at this moment? (20_memory.md R95; log 16) -/
opaque freeCompletes : Nat → Bool

end Config
end Sys2Proof
end

