-- ==== Sys2Proof/Syntax.lean ====
section
/-! DEFINITION. The instructions: one constructor for each row of spec/opcode_table.json. -/

namespace Sys2Proof

/-- The two-level instruction set of 00_scope.md R1: sixteen host rows (30_encoding.md R117, R118, R120) and
fifteen wire rows (30_encoding.md R104). A wire row whose format the spec does not give (R114) keeps the bytes
that follow its opcode as they are. -/
inductive Instr where
  | configure (pageSize eraseBlockSize totalSize : XWord)
  | readStatus
  | isBusy
  | writeEnable
  | identify
  | read (addr n : XWord)
  | eraseBlock (addr : XWord)
  | eraseAll
  | program (addr : XWord) (buf : List Byte)
  | reserved9
  | reserved10
  | reserved11
  | reserved12
  | reserved13
  | reserved14
  | reserved15
  | wireWriteEnable
  | wireWriteDisable (rest : List Byte)
  | wireReadStatus
  | wireWriteStatus (rest : List Byte)
  | wireReadData (addr : Addr24) (n : XWord)
  | wireReadDataFast (rest : List Byte)
  | wireReadDataFastDual (rest : List Byte)
  | wireProgramPage (addr : Addr24) (data : List Byte)
  | wireEraseSector (rest : List Byte)
  | wireEraseBlock (addr : Addr24)
  | wireEraseChip
  | wireEraseChipAlt
  | wirePowerDown (rest : List Byte)
  | wirePowerUp (rest : List Byte)
  | wireReadJedecId
  deriving DecidableEq, Repr

end Sys2Proof
end

