-- ==== Sys2Proof/WellFormed.lean ====
section
/-! DEFINITION. The instructions whose operands fit the fields the spec gives them. -/

namespace Sys2Proof

/-- Every numeric operand fits its field by its type. The one check left is the payload of `program`, whose length is an
`XLEN`-bit quantity (00_scope.md R10, R12: a byte sequence of any length below `2^XLEN`). -/
def Instr.wf : Instr → Bool
  | .program _ buf => decide (buf.length < 2 ^ Config.xlen)
  | .configure _ _ _ | .readStatus | .isBusy | .writeEnable | .identify | .read _ _ | .eraseBlock _ | .eraseAll => true
  | .reserved9 | .reserved10 | .reserved11 | .reserved12 | .reserved13 | .reserved14 | .reserved15 => true
  | .wireWriteEnable | .wireWriteDisable _ | .wireReadStatus | .wireWriteStatus _ | .wireReadData _ _ => true
  | .wireReadDataFast _ | .wireReadDataFastDual _ | .wireProgramPage _ _ | .wireEraseSector _ => true
  | .wireEraseBlock _ | .wireEraseChip | .wireEraseChipAlt | .wirePowerDown _ | .wirePowerUp _ => true
  | .wireReadJedecId => true

end Sys2Proof
end

