-- ==== Sys2Proof/Decode.lean ====
section
/-! DEFINITION. The decoders and encoders of 30_encoding.md: opcode, header, status byte, identity, wire transaction
and host request, and the numbering of spec/opcode_table.json. -/

namespace Sys2Proof

/-! ## Addresses and headers -/

/-- The three address bytes, most significant first (30_encoding.md R102). -/
def addrBytes24 (a : Addr24) : List Byte :=
  [a.extractLsb' 16 8, a.extractLsb' 8 8, a.extractLsb' 0 8]

/-- `EncodeAddr` (30_encoding.md R103): bits 31 to 24 of the operand are dropped. -/
def encodeAddr (a : XWord) : List Byte := addrBytes24 (a.setWidth 24)

/-- The address three received bytes stand for, `h1*65536 + h2*256 + h3` (30_encoding.md R109). -/
def joinAddr (h1 h2 h3 : Byte) : Addr24 := h1 ++ h2 ++ h3

/-- `ERASE_CHIP_OPCODE` as a byte (00_scope.md R11). -/
def EraseChipOpcode.byte : EraseChipOpcode → Byte
  | .c7  => 0xC7
  | .x60 => 0x60

/-- The opcode byte of an emitted command (30_encoding.md R107). -/
def Command.opcode (ec : EraseChipOpcode) : Command → Byte
  | .writeEnable => 0x06
  | .readStatus  => 0x05
  | .readJedecId => 0x9F
  | .eraseChip   => ec.byte
  | .readData    => 0x03
  | .programPage => 0x02
  | .eraseBlock  => 0xD8

/-- Does the command's header carry an address: format `W4` or `W1` (30_encoding.md R101, R102, R109)? -/
def Command.hasAddr : Command → Bool
  | .readData | .programPage | .eraseBlock => true
  | .writeEnable | .readStatus | .readJedecId | .eraseChip => false

/-- `EncodeHeader` (30_encoding.md R107), the address already cut to the 24 bits of the wire. -/
def encodeHeader (ec : EraseChipOpcode) (c : Command) (a : Addr24) : List Byte :=
  if c.hasAddr then c.opcode ec :: addrBytes24 a else [c.opcode ec]

/-! ## Decoders -/

/-- `DecodeOpcode` (30_encoding.md R108), total on all 256 bytes. -/
def decodeOpcode (b : Byte) : Mnemonic :=
  match Config.opcodeTable.find? (fun r => r.2 == b) with
  | some r => r.1
  | none   => .unknown

/-- The emitted command a mnemonic names, if it is one of the seven (30_encoding.md R106, R114). -/
def Mnemonic.command? : Mnemonic → Option Command
  | .writeEnable => some .writeEnable
  | .readStatus  => some .readStatus
  | .readJedecId => some .readJedecId
  | .eraseChip   => some .eraseChip
  | .readData    => some .readData
  | .programPage => some .programPage
  | .eraseBlock  => some .eraseBlock
  | .writeDisable | .writeStatus | .readDataFast | .readDataFastDual | .eraseSector | .powerDown | .powerUp
  | .unknown => none

/-- `DecodeHeader` (30_encoding.md R109): `none` is the spec's `Invalid`. -/
def decodeHeader (h : List Byte) : Option (Command × Option Addr24) :=
  match h with
  | [b] =>
    match (decodeOpcode b).command? with
    | some c => if c.hasAddr then none else some (c, none)
    | none => none
  | [b, h1, h2, h3] =>
    match (decodeOpcode b).command? with
    | some c => if c.hasAddr then some (c, some (joinAddr h1 h2 h3)) else none
    | none => none
  | _ => none

/-- The fields of a status byte (10_state.md R41). -/
structure StatusFields where
  wip : Bool
  wel : Bool
  bp  : BitVec 4
  rsv : Bool
  srp : Bool
  deriving DecidableEq, Repr

/-- `DecodeStatus` (30_encoding.md R111). -/
def decodeStatus (s : Byte) : StatusFields :=
  { wip := s.getLsbD 0, wel := s.getLsbD 1, bp := s.extractLsb' 2 4, rsv := s.getLsbD 6, srp := s.getLsbD 7 }

/-- `DecodeId` (30_encoding.md R112): the record of the three bytes received, in the order received. -/
def decodeId (r0 r1 r2 : Byte) : JedecId :=
  { reserved := 0x00, manufacturer := r0, device := r1, capacity := r2 }

/-! ## Instructions from words -/

/-- Why the bytes of a wire transaction are no instruction. -/
inductive DecodeError where
  /-- no byte was written -/
  | emptyTransaction
  /-- the first byte is one of the 241 outside the table (30_encoding.md R113) -/
  | unknownOpcode (b : Byte)
  /-- a known opcode whose header has not the length of its format (30_encoding.md R109, `Invalid`) -/
  | badHeader (b : Byte)
  deriving DecidableEq, Repr

/-- A transaction of format `W1` with no payload written: nothing follows the opcode (30_encoding.md R101). -/
def decodeW1 (i : Instr) (b : Byte) (rest : List Byte) : Except DecodeError Instr :=
  match rest with
  | [] => .ok i
  | _ :: _ => .error (.badHeader b)

/-- A transaction of format `W4` with no payload written: exactly three address bytes (30_encoding.md R102). -/
def decodeW4 (i : Addr24 → Instr) (b : Byte) (rest : List Byte) : Except DecodeError Instr :=
  match rest with
  | [h1, h2, h3] => .ok (i (joinAddr h1 h2 h3))
  | _ => .error (.badHeader b)

/-- A transaction of format `W4` whose payload is written: the payload is what follows the header. -/
def decodeW4Payload (i : Addr24 → List Byte → Instr) (b : Byte) (rest : List Byte) : Except DecodeError Instr :=
  match rest with
  | h1 :: h2 :: h3 :: data => .ok (i (joinAddr h1 h2 h3) data)
  | _ => .error (.badHeader b)

/-- A whole wire transaction (30_encoding.md R100, R104, R109, R110), total on any bytes. A mnemonic whose format the
spec does not give (R114) is recognised by its first byte alone. -/
def decodeFrame (f : Frame) : Except DecodeError Instr :=
  match f.bytes with
  | [] => .error .emptyTransaction
  | b :: rest =>
    match decodeOpcode b with
    | .writeEnable      => decodeW1 .wireWriteEnable b rest
    | .readStatus       => decodeW1 .wireReadStatus b rest
    | .readJedecId      => decodeW1 .wireReadJedecId b rest
    | .eraseChip        => decodeW1 (if b = 0x60 then .wireEraseChipAlt else .wireEraseChip) b rest
    | .readData         => decodeW4 (fun a => .wireReadData a f.len) b rest
    | .eraseBlock       => decodeW4 .wireEraseBlock b rest
    | .programPage      => decodeW4Payload .wireProgramPage b rest
    | .writeDisable     => .ok (.wireWriteDisable rest)
    | .writeStatus      => .ok (.wireWriteStatus rest)
    | .readDataFast     => .ok (.wireReadDataFast rest)
    | .readDataFastDual => .ok (.wireReadDataFastDual rest)
    | .eraseSector      => .ok (.wireEraseSector rest)
    | .powerDown        => .ok (.wirePowerDown rest)
    | .powerUp          => .ok (.wirePowerUp rest)
    | .unknown          => .error (.unknownOpcode b)

/-- A host request by its selector (30_encoding.md R117, R118, R120; 43_operations.md R206): all sixteen selectors
have a meaning, and operands an operation ignores are dropped. -/
def decodeRequest (r : Request) : Instr :=
  match r.op.toNat with
  | 0  => .configure r.arg0 r.arg1 r.arg2
  | 1  => .readStatus
  | 2  => .isBusy
  | 3  => .writeEnable
  | 4  => .identify
  | 5  => .read r.arg0 r.arg1
  | 6  => .eraseBlock r.arg0
  | 7  => .eraseAll
  | 8  => .program r.arg0 r.wbuf
  | 9  => .reserved9
  | 10 => .reserved10
  | 11 => .reserved11
  | 12 => .reserved12
  | 13 => .reserved13
  | 14 => .reserved14
  | _  => .reserved15

/-- The decoder: total on every word of either kind. -/
def decode : Fetched → Except DecodeError Instr
  | .host r => .ok (decodeRequest r)
  | .wire f => decodeFrame f

/-! ## Words from instructions -/

/-- A request with no payload; operands that are ignored are zero. -/
def hostWord (op : BitVec 4) (arg0 arg1 arg2 : XWord) : Fetched :=
  .host { op := op, arg0 := arg0, arg1 := arg1, arg2 := arg2, wbuf := [] }

/-- A transaction that reads nothing back that an operand names. -/
def wireWord (bytes : List Byte) : Fetched := .wire { bytes := bytes, len := 0 }

/-- The encoder, from the tables of 30_encoding.md R104, R107, R117 and R118. -/
def encode : Instr → Fetched
  | .configure ps ebs ts => hostWord 0 ps ebs ts
  | .readStatus => hostWord 1 0 0 0
  | .isBusy => hostWord 2 0 0 0
  | .writeEnable => hostWord 3 0 0 0
  | .identify => hostWord 4 0 0 0
  | .read a n => hostWord 5 a n 0
  | .eraseBlock a => hostWord 6 a 0 0
  | .eraseAll => hostWord 7 0 0 0
  | .program a buf => .host { op := 8, arg0 := a, arg1 := 0, arg2 := 0, wbuf := buf }
  | .reserved9 => hostWord 9 0 0 0
  | .reserved10 => hostWord 10 0 0 0
  | .reserved11 => hostWord 11 0 0 0
  | .reserved12 => hostWord 12 0 0 0
  | .reserved13 => hostWord 13 0 0 0
  | .reserved14 => hostWord 14 0 0 0
  | .reserved15 => hostWord 15 0 0 0
  | .wireWriteEnable => wireWord [0x06]
  | .wireWriteDisable rest => wireWord (0x04 :: rest)
  | .wireReadStatus => wireWord [0x05]
  | .wireWriteStatus rest => wireWord (0x01 :: rest)
  | .wireReadData a n => .wire { bytes := 0x03 :: addrBytes24 a, len := n }
  | .wireReadDataFast rest => wireWord (0x0B :: rest)
  | .wireReadDataFastDual rest => wireWord (0x3B :: rest)
  | .wireProgramPage a data => wireWord (0x02 :: (addrBytes24 a ++ data))
  | .wireEraseSector rest => wireWord (0x20 :: rest)
  | .wireEraseBlock a => wireWord (0xD8 :: addrBytes24 a)
  | .wireEraseChip => wireWord [0xC7]
  | .wireEraseChipAlt => wireWord [0x60]
  | .wirePowerDown rest => wireWord (0xB9 :: rest)
  | .wirePowerUp rest => wireWord (0xAB :: rest)
  | .wireReadJedecId => wireWord [0x9F]

/-- The number of a result code (60_exceptions.md R231). -/
def ResultCode.number : ResultCode → BitVec 4
  | .ok => 0
  | .zeroPageSize => 1
  | .pageExceedsBlock => 2
  | .blockExceedsDevice => 3
  | .outOfRange => 4
  | .misaligned => 5
  | .pageBoundaryCrossed => 6
  | .transportError => 7
  | .deviceBusy => 8
  | .notConfigured => 9
  | .alreadyConfigured => 10
  | .implausibleId => 11
  | .illegalOp => 12

/-! ## The numbering of spec/opcode_table.json -/

/-- The `k` bytes of a number, most significant first: a wider wire row is one word whose byte 0 is its most significant
byte (30_encoding.md R102). -/
def bytesMsbFirst : Nat → Nat → List Byte
  | 0, _ => []
  | k + 1, w => BitVec.ofNat 8 (w / 256 ^ k) :: bytesMsbFirst k w

/-- The word a row of the table stands for. A word of one byte or less whose value is a selector is a host request with
operand slots of zero; every other word is a wire transaction. The two spaces share five values of one byte, where the
host row wins (log 3). -/
def tableWord (nbits w : Nat) : Fetched :=
  if nbits ≤ 8 ∧ w < 16 then hostWord (BitVec.ofNat 4 w) 0 0 0
  else wireWord (bytesMsbFirst ((nbits + 7) / 8) w)

/-- The instruction the decoder reads from a word numbered as the table numbers it. -/
def decodeTableWord (nbits w : Nat) : Option Instr := (decode (tableWord nbits w)).toOption

end Sys2Proof
end

