-- ==== Sys2Proof/Machine/State.lean ====
section
/-! DEFINITION. The state of NORFLASH-CTRL (10_state.md), of the environment it is attached to (20_memory.md section 8,
60_exceptions.md section 6), the reasons a step can stop, and the machine after reset. -/

namespace Sys2Proof.Machine

/-- Why the machine stops with a fault: never. Every error of the spec is a result code of a next state
(60_exceptions.md R230, R240), so there is no constructor. -/
inductive Fault
  deriving DecidableEq, Repr

/-- Why an instruction or a step has no meaning. -/
inductive Refusal where
  /-- An instruction that has no meaning in the model yet. Raised by no arm. Safe. -/
  | notModelled (mnemonic : String)
  /-- Raised by every instruction when an operation is executing already: 43_operations.md R205 gives it no meaning
  (93_implementation_defined.md U3, premise `HOST_SERIALIZES`). Safe. -/
  | requestWhileExecuting
  /-- Raised by a reset that arrives while an operation is executing: 70_reset_and_hazards.md R261 defines only reset in
  `IDLE` (93_implementation_defined.md U4, premise `RESET_ONLY_IDLE`). Safe. -/
  | resetWhileExecuting
  deriving DecidableEq, Repr

/-- The two modes (10_state.md R31). -/
inductive Mode where
  | unconfigured | ready
  deriving DecidableEq, Repr

/-- The sequencer's phases (10_state.md R36). -/
inductive Phase where
  | idle | check | gateStatus | gateWren | cmd | respond
  deriving DecidableEq, Repr

/-- The six geometry registers (10_state.md R32, R33). -/
structure Geometry where
  pageSize       : XWord
  eraseBlockSize : XWord
  totalSize      : XWord
  pagesPerBlock  : XWord
  blockCount     : XWord
  endAddress     : XWord
  deriving DecidableEq, Repr

/-- The response (10_state.md R38, 30_encoding.md R119). -/
structure Response where
  code   : ResultCode
  busy   : Bool
  status : Byte
  id     : JedecId
  rbuf   : List Byte
  deriving DecidableEq, Repr

/-- The four transport primitives (00_scope.md R20). -/
inductive TransportCall where
  | beginTx
  | endTx
  | write (bytes : List Byte)
  | read (k : Nat)
  deriving DecidableEq, Repr

/-- What the environment answers a transport call with: a count, with the bytes received for a read (00_scope.md R20),
or nothing, ever (70_reset_and_hazards.md R276). -/
inductive Answer where
  | returns (count : Nat) (bytes : List Byte)
  | never
  deriving DecidableEq, Repr

/-- One entry of the transport trace (00_scope.md R22). -/
structure Event where
  call   : TransportCall
  answer : Answer
  deriving DecidableEq, Repr

/-- The flash contents as address and byte pairs: addresses strictly rising, no byte that an unlisted address reads. -/
abbrev Memory := List Host.Cell

/-- `DEV_ID[0..2]` (20_memory.md R88). -/
structure DeviceId where
  b0 : Byte
  b1 : Byte
  b2 : Byte
  deriving DecidableEq, Repr

/-- A size by which the spec divides: it is at least 1 (00_scope.md R15; log 15). -/
abbrev Extent := { n : Nat // 0 < n }

/-- The reference device `SimFlash` (20_memory.md R88): parameters, array, latches, and the open transaction. -/
structure SimFlash where
  size  : Extent
  page  : Extent
  block : Extent
  ident : DeviceId
  mem   : Memory
  wel   : Bool
  wip   : Bool
  tx    : List Byte
  rdn   : Nat
  deriving DecidableEq, Repr

/-- What stands behind the transport: nothing that is known (any count, any byte), or the reference device. -/
inductive EnvKind where
  | arbitrary | simFlash
  deriving DecidableEq, Repr

/-- The environment (00_scope.md R8). `script` holds the answers to the coming transport calls, oldest first;
`completions` says, for the coming transactions of a busy device, whether its cycle ends before each (20_memory.md R95).
Where a list is used up, the answer is a free value. -/
structure Environment where
  kind        : EnvKind
  script      : List Answer
  completions : List Bool
  dev         : SimFlash
  deriving DecidableEq, Repr

/-- What the outside world can do to the machine between operations. -/
inductive Input where
  /-- the host issues a request, or a transaction is put on the wire by itself (logs 1 and 4) -/
  | fetch (w : Fetched)
  /-- reset (70_reset_and_hazards.md R260) -/
  | reset
  /-- the device ends its cycle (20_memory.md R95) -/
  | complete
  deriving DecidableEq, Repr

/-- The machine. `mode` to `trace` are the core's (10_state.md R30, R46, R49); `eraseChip` is the parameter of
00_scope.md R11; `exclusive` is the core's exclusive ownership of the transport (60_exceptions.md R250), which it holds for
its entire lifetime, so nothing writes it; `env` is the environment; `inputs`, `phases` and `draws` are the model's own (logs 4, 18, 25). -/
structure State where
  mode      : Mode
  geom      : Geometry
  seq       : Phase
  latch     : Request
  response  : Response
  cs        : Bool
  trace     : List Event
  eraseChip : EraseChipOpcode
  exclusive : Bool
  env       : Environment
  inputs    : List Input
  phases    : List Phase
  draws     : Nat
  deriving DecidableEq, Repr

/-- The device `State.reset` holds: instance S1 of 95_test_vectors.md P1, contents erased (logs 7 and 8). -/
def SimFlash.initial : SimFlash :=
  { size := ⟨0x80000, by decide⟩, page := ⟨256, by decide⟩, block := ⟨0x8000, by decide⟩,
    ident := { b0 := 0xEF, b1 := 0x40, b2 := 0x13 }, mem := [], wel := false, wip := false, tx := [], rdn := 0 }

/-- The machine after reset (10_state.md R50, 70_reset_and_hazards.md R260). The geometry, the request latch and the
response are unspecified there; their values here are the model's (log 5). -/
def State.reset : State :=
  { mode := .unconfigured
    geom := { pageSize := 0, eraseBlockSize := 0, totalSize := 0, pagesPerBlock := 0, blockCount := 0, endAddress := 0 }
    seq := .idle
    latch := { op := 0, arg0 := 0, arg1 := 0, arg2 := 0, wbuf := [] }
    response :=
      { code := .ok, busy := false, status := 0,
        id := { reserved := 0, manufacturer := 0, device := 0, capacity := 0 }, rbuf := [] }
    cs := false
    trace := []
    eraseChip := .c7
    exclusive := true
    env := { kind := .arbitrary, script := [], completions := [], dev := SimFlash.initial }
    inputs := []
    phases := []
    draws := 0 }

end Sys2Proof.Machine
end

