-- ==== Sys2Proof/Machine/Memory.lean ====
section
/-! DEFINITION. The flash array as a canonical list of cells (20_memory.md R60, R88). -/

namespace Sys2Proof.Machine

/-- What an unlisted address reads as: an erased byte (log 7). -/
def Memory.erased : Byte := 0xFF

/-- The canonical form: addresses strictly rising, and no listed byte is an erased one. -/
abbrev Memory.wf (m : Memory) : Prop :=
  m.Pairwise (fun c d => c.1 < d.1) ∧ ∀ c ∈ m, c.2 ≠ Memory.erased

/-- The byte at an address. -/
def Memory.read : Memory → Nat → Byte
  | [], _ => Memory.erased
  | (x, v) :: m, a => if x = a then v else Memory.read m a

/-- Put a byte in front of cells that all lie above it; an erased byte is not listed. -/
def Memory.cons (a : Nat) (b : Byte) (m : Memory) : Memory :=
  if b = Memory.erased then m else (a, b) :: m

/-- Store a byte at an address. -/
def Memory.write : Memory → Nat → Byte → Memory
  | [], a, b => Memory.cons a b []
  | (x, v) :: m, a, b =>
    if a < x then Memory.cons a b ((x, v) :: m)
    else if a = x then Memory.cons a b m
    else (x, v) :: Memory.write m a b

/-- Set every byte whose address is in `p` to `0xFF` (20_memory.md R93). -/
def Memory.erase (m : Memory) (p : Nat → Bool) : Memory := m.filter (fun c => !p c.1)

end Sys2Proof.Machine
end

