-- ==== Sys2Proof/Machine/Flags.lean ====
section
/-! DEFINITION. The Boolean values an operation computes (10_state.md R40): the byte-count match, the busy bit, the
plausibility of an identity, and the status byte the reference device answers with. -/

namespace Sys2Proof.Machine

/-- The byte-count match of a sub-transfer (00_scope.md R21): equality, so a larger count is a mismatch too. -/
def countMatches (count len : Nat) : Bool := count == len

/-- The busy bit is bit 0 of the status byte; bits 7 to 1 do not enter (41_status_gate.md R153). -/
def busyBit (s : Byte) : Bool := (decodeStatus s).wip

/-- A byte that no identity of a present device holds is `0x00` or `0xFF` (43_operations.md R196). -/
def plausibleByte (b : Byte) : Bool := b != 0x00 && b != 0xFF

/-- `Plausible` (43_operations.md R196): every byte received is neither `0x00` nor `0xFF`. -/
def plausible (rs : List Byte) : Bool := rs.all plausibleByte

/-- The result of an operation that ends with its command transaction: the AND of all its matches (43_operations.md
R192). -/
def foldedCode (ok : Bool) : ResultCode := if ok then .ok else .transportError

/-- The status byte of the reference device, `2*wel + wip` (20_memory.md R91). -/
def statusByte (wel wip : Bool) : Byte := BitVec.ofNat 8 (2 * wel.toNat + wip.toNat)

end Sys2Proof.Machine
end

