-- ==== Sys2Proof/Machine/Operands.lean ====
section
/-! DEFINITION. The request-shape checks of `read`, `erase_block` and `program` (42_bounds_alignment.md) and the geometry
`configure` derives (40_geometry.md), on natural numbers without wrap-around (00_scope.md R15, R179). A check answers the
first error that applies (R177), or none. -/

namespace Sys2Proof.Machine

/-- `CheckRead` (42_bounds_alignment.md R172). -/
def checkRead (g : Geometry) (a n : Nat) : Option ResultCode :=
  if a ≥ g.endAddress.toNat ∨ a + n ≥ g.endAddress.toNat then some .outOfRange else none

/-- `CheckErase` (42_bounds_alignment.md R173, R174): the literal mask (R180), then the range. -/
def checkErase (g : Geometry) (a : Nat) : Option ResultCode :=
  if a &&& (g.eraseBlockSize.toNat - 1) ≠ 0 then some .misaligned
  else if a ≥ g.endAddress.toNat then some .outOfRange
  else none

/-- The offset inside the page, `a & (page_size - 1)` (42_bounds_alignment.md R176). -/
def pageOffset (g : Geometry) (a : Nat) : Nat := a &&& (g.pageSize.toNat - 1)

/-- `CheckProgram` (42_bounds_alignment.md R175, R176): the range of the start address, then the page. -/
def checkProgram (g : Geometry) (a n : Nat) : Option ResultCode :=
  if a ≥ g.endAddress.toNat then some .outOfRange
  else if n > g.pageSize.toNat - pageOffset g a then some .pageBoundaryCrossed
  else none

/-- The three validity tests of `configure`, in their order (40_geometry.md R141). -/
def checkGeometry (ps ebs ts : XWord) : Option ResultCode :=
  if ps.toNat = 0 then some .zeroPageSize
  else if ps.toNat > ebs.toNat then some .pageExceedsBlock
  else if ebs.toNat > ts.toNat then some .blockExceedsDevice
  else none

/-- The inputs and the derived quantities, with floor division (40_geometry.md R141, R142; 10_state.md R33). -/
def deriveGeometry (ps ebs ts : XWord) : Geometry :=
  let ppb := ebs.toNat / ps.toNat
  let bc := ts.toNat / ebs.toNat
  { pageSize := ps, eraseBlockSize := ebs, totalSize := ts
    pagesPerBlock := BitVec.ofNat 32 ppb
    blockCount := BitVec.ofNat 32 bc
    endAddress := BitVec.ofNat 32 (ps.toNat * ppb * bc) }

end Sys2Proof.Machine
end

