-- ==== Sys2Proof/Machine/Device.lean ====
section
/-! DEFINITION. The reference device `SimFlash` (20_memory.md R88 to R95): what a transaction does to it when it closes,
what it answers a read with, and how its cycle ends. It is part of the environment, not of the core. -/

namespace Sys2Proof.Machine

/-- An erase or program command is obeyed only with the latch set and no cycle running (20_memory.md R93, R94). -/
def SimFlash.accepts (d : SimFlash) : Bool := d.wel && !d.wip

/-- Byte `i` of a program from wire address `a` goes here: inside the page of `a`, wrapping at its end (20_memory.md
R94). -/
def SimFlash.programAddr (d : SimFlash) (a i : Nat) : Nat :=
  let start := a % d.size.val
  start / d.page.val * d.page.val + (start + i) % d.page.val

/-- Store one byte of a program, ANDed into the byte that is there (20_memory.md R94). Where the array ends inside a page,
an address behind its end names no byte, and nothing is stored there; the device does not fault (R69; log 15). -/
def SimFlash.store (d : SimFlash) (m : Memory) (x : Nat) (b : Byte) : Memory :=
  if x < d.size.val then m.write x (m.read x &&& b) else m

/-- Store the bytes of a program in order (20_memory.md R94). -/
def SimFlash.programFrom (d : SimFlash) (a : Nat) : Memory → Nat → List Byte → Memory
  | m, _, [] => m
  | m, i, b :: bs =>
    SimFlash.programFrom d a (d.store m (d.programAddr a i) b) (i + 1) bs

/-- Is `x` in the block an erase at wire address `a` resets (20_memory.md R93)? -/
def SimFlash.inBlock (d : SimFlash) (a x : Nat) : Bool := x / d.block.val == a % d.size.val / d.block.val

/-- A mutating command the device obeys starts a cycle. -/
def SimFlash.startCycle (d : SimFlash) (m : Memory) : SimFlash := { d with mem := m, wip := true }

/-- What a whole transaction does when it closes (20_memory.md R90, R93, R94); everything else changes nothing (R95). -/
def SimFlash.commit (d : SimFlash) : Instr → SimFlash
  | .wireWriteEnable => if d.wip then d else { d with wel := true }
  | .wireWriteDisable rest => if rest = [] then { d with wel := false } else d
  | .wireEraseBlock a => if d.accepts then d.startCycle (d.mem.erase (d.inBlock a.toNat)) else d
  | .wireEraseChip => if d.accepts then d.startCycle (d.mem.erase (fun _ => true)) else d
  | .wireEraseChipAlt => if d.accepts then d.startCycle (d.mem.erase (fun _ => true)) else d
  | .wireProgramPage a data => if d.accepts then d.startCycle (d.programFrom a.toNat d.mem 0 data) else d
  | .wireReadStatus | .wireReadJedecId | .wireReadData _ _ => d
  | .wireWriteStatus _ | .wireReadDataFast _ | .wireReadDataFastDual _ | .wireEraseSector _ => d
  | .wirePowerDown _ | .wirePowerUp _ => d
  | .configure _ _ _ | .readStatus | .isBusy | .writeEnable | .identify | .read _ _ | .eraseBlock _ | .eraseAll => d
  | .program _ _ | .reserved9 | .reserved10 | .reserved11 | .reserved12 | .reserved13 | .reserved14 => d
  | .reserved15 => d

/-- The transaction opens: nothing written yet, nothing read yet (20_memory.md R89). -/
def SimFlash.openTx (d : SimFlash) : SimFlash := { d with tx := [], rdn := 0 }

/-- The transaction closes: the command in `tx` is applied (20_memory.md R89). -/
def SimFlash.close (d : SimFlash) : SimFlash :=
  match decodeFrame { bytes := d.tx, len := 0 } with
  | .ok i => d.commit i
  | .error _ => d

/-- Byte `i` of an answer to the open transaction, `none` where it is unspecified (20_memory.md R91, R92). -/
def SimFlash.answerByte (d : SimFlash) (i : Nat) : Option Byte :=
  match decodeFrame { bytes := d.tx, len := 0 } with
  | .ok .wireReadStatus => some (statusByte d.wel d.wip)
  | .ok .wireReadJedecId => if d.wip then none else [d.ident.b0, d.ident.b1, d.ident.b2][d.rdn + i]?
  | .ok (.wireReadData a _) => if d.wip then none else some (d.mem.read ((a.toNat + d.rdn + i) % d.size.val))
  | _ => none

/-- The `k` bytes the device sends, where it says what they are. -/
def SimFlash.answer (d : SimFlash) (k : Nat) : List (Option Byte) := (List.range k).map d.answerByte

/-- `Complete` (20_memory.md R95): the cycle ends, busy bit and latch are cleared; nothing to end while it is idle. -/
def SimFlash.complete (d : SimFlash) : SimFlash := if d.wip then { d with wip := false, wel := false } else d

/-- A whole transaction of the given bytes reaches the device and closes. -/
def SimFlash.receive (d : SimFlash) (bytes : List Byte) : SimFlash := { d.openTx with tx := bytes }.close

end Sys2Proof.Machine
end

