-- ==== Sys2Proof/Machine/Ops.lean ====
section
/-! DEFINITION. The named operations every meaning is built from: the four transport primitives (00_scope.md R20), the
sub-transfers and the transaction (R21, 43_operations.md R191), `raise` (R18), the response (10_state.md R38), the walk of
the sequencer (43_operations.md R201), and what the outside world does between operations. -/

namespace Sys2Proof.Machine

open Host (Outcome)

/-! ## Calls -/

/-- How a piece of an operation ends: with a value, or hung in a transport call that never returns
(70_reset_and_hazards.md R276). -/
inductive Call (α : Type) where
  | done (a : α) (s : State)
  | hung (s : State)

/-- Go on with the next piece where the first one ended with a value. -/
def Call.bind {α β : Type} (c : Call α) (k : α → State → Call β) : Call β :=
  match c with
  | .done a s => k a s
  | .hung s   => .hung s

/-! ## Bookkeeping -/

/-- Append to the transport trace (10_state.md R49). -/
def State.record (s : State) (c : TransportCall) (a : Answer) : State :=
  { s with trace := s.trace ++ [{ call := c, answer := a }] }

/-- The sequencer enters a phase (10_state.md R36). -/
def State.enter (s : State) (p : Phase) : State := { s with seq := p, phases := s.phases ++ [p] }

/-- A free value has been drawn. -/
def State.tick (s : State) : State := { s with draws := s.draws + 1 }

/-- Change the reference device. -/
def State.withDevice (s : State) (d : SimFlash) : State := { s with env := { s.env with dev := d } }

/-- Change the reference device where there is one: with an arbitrary environment nothing is known of it. -/
def State.onDevice (s : State) (f : SimFlash → SimFlash) : State :=
  match s.env.kind with
  | .simFlash  => s.withDevice (f s.env.dev)
  | .arbitrary => s

/-! ## The environment's choices -/

/-- The answer number `n` of an environment that nothing is known of (60_exceptions.md R248, R249; log 9). -/
def drawnAnswer (n : Nat) : Answer :=
  if Config.freeReturns n then .returns (Config.freeCount n) [] else .never

/-- The next answer of the environment: the scripted one; else, from the reference device, the full count (20_memory.md
R89); else a free value. -/
def State.choose (s : State) (full : Nat) : Answer × State :=
  match s.env.script with
  | a :: rest => (a, { s with env := { s.env with script := rest } })
  | [] =>
    match s.env.kind with
    | .simFlash  => (.returns full [], s)
    | .arbitrary => (drawnAnswer s.draws, s.tick)

/-- Between two transactions a busy device may end its cycle (20_memory.md R95; log 16). -/
def State.maybeComplete (s : State) : State :=
  if s.env.dev.wip then
    match s.env.completions with
    | c :: rest =>
      { s with env := { s.env with completions := rest, dev := if c then s.env.dev.complete else s.env.dev } }
    | [] => (s.withDevice (if Config.freeCompletes s.draws then s.env.dev.complete else s.env.dev)).tick
  else s

/-- A transaction opens on the device's side. -/
def State.openDevice (s : State) : State :=
  match s.env.kind with
  | .simFlash  => s.maybeComplete.onDevice SimFlash.openTx
  | .arbitrary => s

/-- The count a transport reports: the reference device never transfers more than it is asked for (20_memory.md R89);
otherwise every count is possible (60_exceptions.md R248). -/
def State.transferred (s : State) (count full : Nat) : Nat :=
  match s.env.kind with
  | .simFlash  => min count full
  | .arbitrary => count

/-- The bytes received by a read of `k` bytes, where it is known what they are. -/
def State.received (s : State) (k : Nat) (scripted : List Byte) : List (Option Byte) :=
  match s.env.kind with
  | .simFlash  => s.env.dev.answer k
  | .arbitrary => scripted.map some

/-- The buffer of a read of `k` bytes answered with `count`: the bytes received in its first `count` places, a free value
in every other place (00_scope.md R20). -/
def fillBuffer (k count : Nat) (received : List (Option Byte)) (n : Nat) : List Byte :=
  (List.range k).map fun i =>
    if i < count then (received[i]?.join).getD (Config.freeByte n i) else Config.freeByte n i

/-! ## The four transport primitives

A call that never returns (70_reset_and_hazards.md R276) is put on the trace without an answer and has done nothing else:
what such a call has done before it hangs is open in the spec, and this is the model's choice (log 10). -/

/-- `T.begin()` (00_scope.md R20, 60_exceptions.md R246): asserts chip-select; has no result. One that never returns has not
asserted it (log 10). -/
def transportBegin (s : State) : Call Unit :=
  match s.choose 0 with
  | (.never, t)       => .hung (t.record .beginTx .never)
  | (.returns _ _, t) => .done () ({ t.openDevice with cs := true }.record .beginTx (.returns 0 []))

/-- `T.end()` (00_scope.md R20, 60_exceptions.md R247): deasserts chip-select; has no result. The device applies the
command it has received (20_memory.md R89). One that never returns leaves chip-select asserted and the command not applied
(log 10). -/
def transportEnd (s : State) : Call Unit :=
  match s.choose 0 with
  | (.never, t)       => .hung (t.record .endTx .never)
  | (.returns _ _, t) => .done () ({ t.onDevice SimFlash.close with cs := false }.record .endTx (.returns 0 []))

/-- `T.write(bs)` (00_scope.md R20, 60_exceptions.md R248). One that never returns has delivered no byte (log 10). -/
def transportWrite (bs : List Byte) (s : State) : Call Nat :=
  match s.choose bs.length with
  | (.never, t)       => .hung (t.record (.write bs) .never)
  | (.returns c _, t) =>
    let n := t.transferred c bs.length
    .done n ((t.onDevice fun d => { d with tx := d.tx ++ bs.take n }).record (.write bs) (.returns n []))

/-- `T.read(k)` (00_scope.md R20, 60_exceptions.md R249): the count, and exactly `k` bytes. One that never returns has
clocked out no byte (log 10). -/
def transportRead (k : Nat) (s : State) : Call (Nat × List Byte) :=
  match s.choose k with
  | (.never, t)        => .hung (t.record (.read k) .never)
  | (.returns c bs, t) =>
    let n := t.transferred c k
    let rs := fillBuffer k n (t.received k bs) t.draws
    .done (n, rs) ((t.onDevice fun d => { d with rdn := d.rdn + n }).tick.record (.read k) (.returns n rs))

/-! ## Sub-transfers and transactions -/

/-- `W(bs)` (00_scope.md R21): a write and its byte-count match. -/
def subWrite (bs : List Byte) (s : State) : Call Bool :=
  (transportWrite bs s).bind fun c s => .done (countMatches c bs.length) s

/-- `Rd(k)` (00_scope.md R21): a read, its byte-count match and the bytes. -/
def subRead (k : Nat) (s : State) : Call (Bool × List Byte) :=
  (transportRead k s).bind fun r s => .done (countMatches r.1 k, r.2) s

/-- The payload phase of a transaction (30_encoding.md R100, R110). -/
inductive Payload where
  | none
  | write (bytes : List Byte)
  | read (k : Nat)
  deriving DecidableEq, Repr

/-- At most one payload sub-transfer; a payload of length zero still makes its call (43_operations.md R191). -/
def subPayload (p : Payload) (s : State) : Call (Bool × List Byte) :=
  match p with
  | .none     => .done (true, []) s
  | .write bs => (subWrite bs s).bind fun ok s => .done (ok, []) s
  | .read k   => subRead k s

/-- One transaction (43_operations.md R191): begin, header, payload, end. Every sub-transfer is made whatever the earlier
ones returned, and the matches are ANDed (R192). The value is the AND and the bytes read. -/
def transaction (header : List Byte) (p : Payload) (s : State) : Call (Bool × List Byte) :=
  (transportBegin s).bind fun _ s =>
  (subWrite header s).bind fun ok1 s =>
  (subPayload p s).bind fun r s =>
  (transportEnd s).bind fun _ s => .done (ok1 && r.1, r.2) s

/-- The transaction of an emitted command (30_encoding.md R107). -/
def commandTransaction (c : Command) (a : Addr24) (p : Payload) (s : State) : Call (Bool × List Byte) :=
  transaction (encodeHeader s.eraseChip c a) p s

/-! ## Results -/

/-- What an operation answers with: the code, and the response values its rule assigns (30_encoding.md R119). -/
structure Reply where
  code   : ResultCode
  busy   : Option Bool := none
  status : Option Byte := none
  id     : Option JedecId := none
  rbuf   : Option (List Byte) := none
  deriving DecidableEq, Repr

/-- `raise E` (00_scope.md R18): no further transport call, no register written, result code `E`. Taking an error is this
one operation; there is no handler and no return from it (60_exceptions.md R230, R240, R242). -/
def raise (e : ResultCode) (s : State) : Call Reply := .done { code := e } s

/-- The response of a reply; a value the operation's rule does not assign is a free value (10_state.md R38; log 11). -/
def Reply.response (r : Reply) (n : Nat) : Response :=
  { code := r.code
    busy := r.busy.getD (Config.freeBool n)
    status := r.status.getD (Config.freeByte n 0)
    id := r.id.getD (Config.freeId n)
    rbuf := r.rbuf.getD (Config.freeBytes n) }

/-- The phase `RESPOND`: the host gets the response and the sequencer is back in `IDLE` (43_operations.md R201). -/
def State.respond (s : State) (r : Reply) : State :=
  { (s.enter .respond).enter .idle with response := r.response s.draws, draws := s.draws + 1 }

/-- One operation from `IDLE` to its response. A request while an operation is executing has no meaning (43_operations.md
R205); an operation whose transport call never returns never responds (70_reset_and_hazards.md R276). -/
def perform (s : State) (body : State → Call Reply) : Outcome State Fault Refusal :=
  if s.seq = .idle then
    match body { s with phases := [.idle] } with
    | .done r t => .next (t.respond r)
    | .hung t   => .next t
  else .refused .requestWhileExecuting

/-- The mode test of every operation but `configure` (43_operations.md R194), in the phase `CHECK`; `e` is the reply in
`Unconfigured`. -/
def ifReady (e : Reply) (s : State) (k : State → Call Reply) : Call Reply :=
  let s := s.enter .check
  match s.mode with
  | .ready        => k s
  | .unconfigured => .done e s

/-- A request-shape check: the first failure is raised (42_bounds_alignment.md R170, R177). -/
def ifShaped (check : Option ResultCode) (s : State) (k : State → Call Reply) : Call Reply :=
  match check with
  | some e => raise e s
  | none   => k s

/-! ## Between operations -/

/-- A request or transaction is taken from the inputs; a request is latched (10_state.md R37; log 19). -/
def State.accept (s : State) (w : Fetched) (rest : List Input) : State :=
  match w with
  | .host r => { s with inputs := rest, latch := r }
  | .wire _ => { s with inputs := rest }

/-- The reset event (10_state.md R50, 70_reset_and_hazards.md R260, R261): `Unconfigured`, `IDLE`, chip-select deasserted;
geometry, latch and response unspecified, each a draw of its own (log 6); the device and the parameters are not
touched. -/
def State.resetEvent (s : State) : State :=
  let w := Config.freeWord s.draws
  { s with
    mode := .unconfigured
    seq := .idle
    cs := false
    geom := { pageSize := w 0, eraseBlockSize := w 1, totalSize := w 2, pagesPerBlock := w 3, blockCount := w 4,
              endAddress := w 5 }
    latch := { op := (w 6).setWidth 4, arg0 := w 7, arg1 := w 8, arg2 := w 9, wbuf := Config.freeBytes s.draws }
    response := Reply.response { code := Config.freeCode s.draws } (s.draws + 1)
    phases := []
    draws := s.draws + 2 }

/-- The device ends its cycle between operations (20_memory.md R95). -/
def State.completeEvent (s : State) : State := s.onDevice SimFlash.complete

/-- What happens when an input is taken that is no instruction: a reset, a completion, or a wire transaction that decodes
to no instruction, which the device ignores (30_encoding.md R113, 20_memory.md R95; log 23). -/
def State.ignoreFrame (s : State) (rest : List Input) : State := { s with inputs := rest }

end Sys2Proof.Machine
end

