-- ==== Sys2Proof/Machine/Geometry.lean ====
section
/-! DEFINITION. The geometry validator: `configure` (40_geometry.md) and the seven reserved selectors (30_encoding.md
R120), the operations that make no transport call on any path. -/

namespace Sys2Proof.Machine

open Host (Outcome)

/-- The one update that writes state of the core: the six registers and the mode together (10_state.md R34). -/
def State.setGeometry (s : State) (g : Geometry) : State := { s with geom := g, mode := .ready }

/-- `configure(page_size, erase_block_size, total_size)` (40_geometry.md R141, R144). -/
def configureBody (ps ebs ts : XWord) (s : State) : Call Reply :=
  let s := s.enter .check
  match s.mode with
  | .ready => raise .alreadyConfigured s
  | .unconfigured =>
    ifShaped (checkGeometry ps ebs ts) s fun s =>
      .done { code := .ok } (s.setGeometry (deriveGeometry ps ebs ts))

def execConfigure (ps ebs ts : XWord) (s : State) : Outcome State Fault Refusal :=
  perform s (configureBody ps ebs ts)

/-- A reserved selector is answered `IllegalOp` before the mode test, in either mode (30_encoding.md R120, 43_operations.md
R206); its walk is the response alone (log 18). -/
def illegalOp (s : State) : Outcome State Fault Refusal := perform s (raise .illegalOp)

def execReserved9 (s : State) : Outcome State Fault Refusal := illegalOp s
def execReserved10 (s : State) : Outcome State Fault Refusal := illegalOp s
def execReserved11 (s : State) : Outcome State Fault Refusal := illegalOp s
def execReserved12 (s : State) : Outcome State Fault Refusal := illegalOp s
def execReserved13 (s : State) : Outcome State Fault Refusal := illegalOp s
def execReserved14 (s : State) : Outcome State Fault Refusal := illegalOp s
def execReserved15 (s : State) : Outcome State Fault Refusal := illegalOp s

end Sys2Proof.Machine
end

