-- ==== Sys2Proof/Machine/StatusGate.lean ====
section
/-! DEFINITION. The status register and the gate (41_status_gate.md): the procedures `ReadStatus`, `IsBusy`,
`WriteEnable`, `Gate` and the host operations `read_status`, `is_busy`, `write_enable`. -/

namespace Sys2Proof.Machine

open Host (Outcome)

/-- `ReadStatus()` (41_status_gate.md R150): the match, and the byte at index 0 of the one-byte buffer. -/
def readStatusProc (s : State) : Call (Bool × Byte) :=
  (commandTransaction .readStatus 0 (.read 1) s).bind fun r s => .done (r.1, r.2.getD 0 0) s

/-- `IsBusy()` (41_status_gate.md R152): a failed status read counts as busy. -/
def isBusyProc (s : State) : Call Bool :=
  (readStatusProc s).bind fun r s => .done (!r.1 || busyBit r.2) s

/-- `WriteEnable()` (41_status_gate.md R155). -/
def writeEnableProc (s : State) : Call Bool :=
  (commandTransaction .writeEnable 0 .none s).bind fun r s => .done r.1 s

/-- `Gate()` (41_status_gate.md R157): `DeviceBusy` is raised between the two transactions; otherwise the operation goes on
with the write-enable's match, which is only folded into its result (R158). -/
def gate (s : State) (k : Bool → State → Call Reply) : Call Reply :=
  (isBusyProc (s.enter .gateStatus)).bind fun busy s =>
    if busy then raise .deviceBusy s
    else (writeEnableProc (s.enter .gateWren)).bind k

/-- `read_status()` (41_status_gate.md R151). -/
def execReadStatus (s : State) : Outcome State Fault Refusal :=
  perform s fun s =>
    ifReady { code := .notConfigured } s fun s =>
      (readStatusProc (s.enter .cmd)).bind fun r s =>
        if r.1 then .done { code := .ok, status := some r.2 } s else .done { code := .transportError } s

/-- `is_busy()` (41_status_gate.md R154): a transport failure is folded into `busy`, and `busy` is true in
`Unconfigured`. -/
def execIsBusy (s : State) : Outcome State Fault Refusal :=
  perform s fun s =>
    ifReady { code := .notConfigured, busy := some true } s fun s =>
      (isBusyProc (s.enter .cmd)).bind fun b s => .done { code := .ok, busy := some b } s

/-- `write_enable()` (41_status_gate.md R156): no busy test. -/
def execWriteEnable (s : State) : Outcome State Fault Refusal :=
  perform s fun s =>
    ifReady { code := .notConfigured } s fun s =>
      (writeEnableProc (s.enter .cmd)).bind fun ok s => .done { code := foldedCode ok } s

end Sys2Proof.Machine
end

