-- ==== Sys2Proof/Machine/Sequencer.lean ====
section
/-! DEFINITION. The public operations of the command sequencer (43_operations.md): `identify`, `read`, `erase_block`,
`erase_all`, `program`. Each is the skeleton of R190: mode test, request-shape checks, gate if it mutates, one command
transaction, response. -/

namespace Sys2Proof.Machine

open Host (Outcome)

/-- The address of an operand on the wire: its low 24 bits (30_encoding.md R103). -/
def wireAddr (a : XWord) : Addr24 := a.setWidth 24

/-- `identify()` (43_operations.md R195): the counts are tested before the bytes. -/
def execIdentify (s : State) : Outcome State Fault Refusal :=
  perform s fun s =>
    ifReady { code := .notConfigured } s fun s =>
      (commandTransaction .readJedecId 0 (.read 3) (s.enter .cmd)).bind fun r s =>
        if !r.1 then .done { code := .transportError } s
        else if !plausible r.2 then .done { code := .implausibleId } s
        else .done { code := .ok, id := some (decodeId (r.2.getD 0 0) (r.2.getD 1 0) (r.2.getD 2 0)) } s

/-- `read(addr, n)` (43_operations.md R197): no gate. -/
def execRead (a n : XWord) (s : State) : Outcome State Fault Refusal :=
  perform s fun s =>
    ifReady { code := .notConfigured } s fun s =>
      ifShaped (checkRead s.geom a.toNat n.toNat) s fun s =>
        (commandTransaction .readData (wireAddr a) (.read n.toNat) (s.enter .cmd)).bind fun r s =>
          if r.1 then .done { code := .ok, rbuf := some r.2 } s else .done { code := .transportError } s

/-- The last steps of a mutating operation: its gate, its command transaction, and the AND of the write-enable's match
with the transaction's (41_status_gate.md R158, 43_operations.md R192). -/
def gatedCommand (c : Command) (a : Addr24) (p : Payload) (s : State) : Call Reply :=
  gate s fun okw s =>
    (commandTransaction c a p (s.enter .cmd)).bind fun r s => .done { code := foldedCode (okw && r.1) } s

/-- `erase_block(addr)` (43_operations.md R198). -/
def execEraseBlock (a : XWord) (s : State) : Outcome State Fault Refusal :=
  perform s fun s =>
    ifReady { code := .notConfigured } s fun s =>
      ifShaped (checkErase s.geom a.toNat) s (gatedCommand .eraseBlock (wireAddr a) .none)

/-- `erase_all()` (43_operations.md R199). -/
def execEraseAll (s : State) : Outcome State Fault Refusal :=
  perform s fun s =>
    ifReady { code := .notConfigured } s (gatedCommand .eraseChip 0 .none)

/-- `program(addr, buf)` (43_operations.md R200): header and payload are two writes of one transaction. -/
def execProgram (a : XWord) (buf : List Byte) (s : State) : Outcome State Fault Refusal :=
  perform s fun s =>
    ifReady { code := .notConfigured } s fun s =>
      ifShaped (checkProgram s.geom a.toNat buf.length) s (gatedCommand .programPage (wireAddr a) (.write buf))

end Sys2Proof.Machine
end

