-- ==== Sys2Proof/Machine/Wire.lean ====
section
/-! DEFINITION. The wire rows of the opcode table run by themselves. A command the core emits (30_encoding.md R106) is the
sequencer's own transaction of it (43_operations.md R191, 41_status_gate.md R150, R155), behind the mode test, with the AND
of its matches as the result (logs 1 and 20). A command the core never emits (30_encoding.md R114) makes no call of the
core. While the core owns the transport no such transaction is made by anyone (60_exceptions.md R250), and nothing happens; on a
transport it does not own, what runs is what the reference device does when the transaction reaches it (20_memory.md R90, R95;
log 2). -/

namespace Sys2Proof.Machine

open Host (Outcome)

/-- The command transaction of an emitted command standing alone; `reply` says what its bytes are answered as. -/
def lone (header : List Byte) (p : Payload) (reply : List Byte → Reply) (s : State) : Outcome State Fault Refusal :=
  perform s fun s =>
    ifReady { code := .notConfigured } s fun s =>
      (transaction header p (s.enter .cmd)).bind fun r s =>
        if r.1 then .done (reply r.2) s else .done { code := .transportError } s

/-- A lone transaction that reads nothing back answers its result code alone. -/
def loneOk (header : List Byte) (p : Payload) (s : State) : Outcome State Fault Refusal :=
  lone header p (fun _ => { code := .ok }) s

def execWireWriteEnable (s : State) : Outcome State Fault Refusal := loneOk [0x06] .none s

/-- `ReadStatus()` alone (41_status_gate.md R150). -/
def execWireReadStatus (s : State) : Outcome State Fault Refusal :=
  lone [0x05] (.read 1) (fun rs => { code := .ok, status := some (rs.getD 0 0) }) s

/-- The three identity bytes are answered as received: the record and the plausibility test belong to `identify`. -/
def execWireReadJedecId (s : State) : Outcome State Fault Refusal :=
  lone [0x9F] (.read 3) (fun rs => { code := .ok, rbuf := some rs }) s

def execWireReadData (a : Addr24) (n : XWord) (s : State) : Outcome State Fault Refusal :=
  lone (0x03 :: addrBytes24 a) (.read n.toNat) (fun rs => { code := .ok, rbuf := some rs }) s

def execWireProgramPage (a : Addr24) (data : List Byte) (s : State) : Outcome State Fault Refusal :=
  loneOk (0x02 :: addrBytes24 a) (.write data) s

def execWireEraseBlock (a : Addr24) (s : State) : Outcome State Fault Refusal :=
  loneOk (0xD8 :: addrBytes24 a) .none s

def execWireEraseChip (s : State) : Outcome State Fault Refusal := loneOk [0xC7] .none s

def execWireEraseChipAlt (s : State) : Outcome State Fault Refusal := loneOk [0x60] .none s

/-- A transaction the core never makes (30_encoding.md R114). While the core owns the transport there is no other agent to make
it (60_exceptions.md R250): the step has no effect (DEDUCED), and that it is taken and not refused, as 93_implementation_defined.md
U12 has it, is a DESIGN CHOICE. Without that ownership, which no run from reset loses, it reaches the reference device, if there
is one, and the core takes no part: no register, no response, no call of its own (log 2). -/
def deviceOnly (bytes : List Byte) (s : State) : Outcome State Fault Refusal :=
  if s.seq = .idle then .next (if s.exclusive then s else s.onDevice fun d => d.receive bytes)
  else .refused .requestWhileExecuting

def execWireWriteDisable (rest : List Byte) (s : State) : Outcome State Fault Refusal := deviceOnly (0x04 :: rest) s
def execWireWriteStatus (rest : List Byte) (s : State) : Outcome State Fault Refusal := deviceOnly (0x01 :: rest) s
def execWireReadDataFast (rest : List Byte) (s : State) : Outcome State Fault Refusal := deviceOnly (0x0B :: rest) s
def execWireReadDataFastDual (rest : List Byte) (s : State) : Outcome State Fault Refusal := deviceOnly (0x3B :: rest) s
def execWireEraseSector (rest : List Byte) (s : State) : Outcome State Fault Refusal := deviceOnly (0x20 :: rest) s
def execWirePowerDown (rest : List Byte) (s : State) : Outcome State Fault Refusal := deviceOnly (0xB9 :: rest) s
def execWirePowerUp (rest : List Byte) (s : State) : Outcome State Fault Refusal := deviceOnly (0xAB :: rest) s

end Sys2Proof.Machine
end

