-- ==== Sys2Proof/Machine/Dispatch.lean ====
section
/-! DEFINITION. One arm for each constructor of `Instr`. -/

namespace Sys2Proof.Machine

open Host (Outcome)

def exec (i : Instr) (s : State) : Host.Outcome State Fault Refusal :=
  match i with
  | .configure ps ebs ts => Sys2Proof.Machine.execConfigure ps ebs ts s
  | .readStatus => Sys2Proof.Machine.execReadStatus s
  | .isBusy => Sys2Proof.Machine.execIsBusy s
  | .writeEnable => Sys2Proof.Machine.execWriteEnable s
  | .identify => Sys2Proof.Machine.execIdentify s
  | .read a n => Sys2Proof.Machine.execRead a n s
  | .eraseBlock a => Sys2Proof.Machine.execEraseBlock a s
  | .eraseAll => Sys2Proof.Machine.execEraseAll s
  | .program a buf => Sys2Proof.Machine.execProgram a buf s
  | .reserved9 => Sys2Proof.Machine.execReserved9 s
  | .reserved10 => Sys2Proof.Machine.execReserved10 s
  | .reserved11 => Sys2Proof.Machine.execReserved11 s
  | .reserved12 => Sys2Proof.Machine.execReserved12 s
  | .reserved13 => Sys2Proof.Machine.execReserved13 s
  | .reserved14 => Sys2Proof.Machine.execReserved14 s
  | .reserved15 => Sys2Proof.Machine.execReserved15 s
  | .wireWriteEnable => Sys2Proof.Machine.execWireWriteEnable s
  | .wireWriteDisable rest => Sys2Proof.Machine.execWireWriteDisable rest s
  | .wireReadStatus => Sys2Proof.Machine.execWireReadStatus s
  | .wireWriteStatus rest => Sys2Proof.Machine.execWireWriteStatus rest s
  | .wireReadData a n => Sys2Proof.Machine.execWireReadData a n s
  | .wireReadDataFast rest => Sys2Proof.Machine.execWireReadDataFast rest s
  | .wireReadDataFastDual rest => Sys2Proof.Machine.execWireReadDataFastDual rest s
  | .wireProgramPage a data => Sys2Proof.Machine.execWireProgramPage a data s
  | .wireEraseSector rest => Sys2Proof.Machine.execWireEraseSector rest s
  | .wireEraseBlock a => Sys2Proof.Machine.execWireEraseBlock a s
  | .wireEraseChip => Sys2Proof.Machine.execWireEraseChip s
  | .wireEraseChipAlt => Sys2Proof.Machine.execWireEraseChipAlt s
  | .wirePowerDown rest => Sys2Proof.Machine.execWirePowerDown rest s
  | .wirePowerUp rest => Sys2Proof.Machine.execWirePowerUp rest s
  | .wireReadJedecId => Sys2Proof.Machine.execWireReadJedecId s

end Sys2Proof.Machine
end

