-- ==== Sys2Proof/Machine/Step.lean ====
section
/-! DEFINITION. One step of the machine. There is no program counter and nothing is fetched from memory (10_state.md R36):
the next thing to do is the next input of the outside world (log 4). -/

namespace Sys2Proof.Machine

open Host (Outcome)

/-- In `IDLE` the next input is taken; with none the core waits for a request (70_reset_and_hazards.md R260). While an
operation hangs in a transport call nothing happens (R276), and a reset then has no meaning (R261). -/
def step (s : State) : Outcome State Fault Refusal :=
  match s.seq with
  | .idle =>
    match s.inputs with
    | [] => .next s
    | .fetch w :: rest =>
      match decode w with
      | .ok i => exec i (s.accept w rest)
      | .error _ => .next (s.ignoreFrame rest)
    | .reset :: rest => .next (s.ignoreFrame rest).resetEvent
    | .complete :: rest => .next (s.ignoreFrame rest).completeEvent
  | .check | .gateStatus | .gateWren | .cmd | .respond =>
    match s.inputs with
    | .reset :: _ => .refused .resetWhileExecuting
    | _ => .next s

/-- The state in which the word numbered by the opcode table is the next input (log 4). -/
def State.withFetchWord (s : State) (nbits w : Nat) : State :=
  { s with inputs := .fetch (tableWord nbits w) :: s.inputs }

end Sys2Proof.Machine
end

