-- ==== Sys2Proof/Safety.lean ====
section
/-! DEFINITION. The terms claims are stated in: the named premises of 93_implementation_defined.md, the invariants of the
core and of the bus, what an operation leaves unchanged, and the shape of a transport trace. -/

namespace Sys2Proof.Machine

/-! ## Named premises (93_implementation_defined.md, end of part 1) -/

/-- `HOST_SERIALIZES` and `RESET_ONLY_IDLE`: no operation is executing. -/
abbrev State.Idle (s : State) : Prop := s.seq = .idle

/-- `TRANSPORT_RETURNS` for the next `k` transport calls: no scripted answer among them is `never`, and an environment
nothing is known of either has `k` answers scripted or always returns. -/
def State.CallsReturn (s : State) (k : Nat) : Prop :=
  (∀ a ∈ s.env.script.take k, a ≠ .never) ∧
    (s.env.kind = .arbitrary → k ≤ s.env.script.length ∨ ∀ n, Config.freeReturns n = true)

/-- `GEOM_FITS_24` (20_memory.md R64). -/
def Geometry.Fits24 (g : Geometry) : Prop := g.endAddress.toNat ≤ 2 ^ 24

/-- `GEOM_POW2` (93_implementation_defined.md U9). -/
def Geometry.Pow2 (g : Geometry) : Prop :=
  (∃ j, g.pageSize.toNat = 2 ^ j) ∧ ∃ k, g.eraseBlockSize.toNat = 2 ^ k

/-- A wire row of a command the core emits (30_encoding.md R106). -/
def isEmittedWire : Instr → Bool
  | .wireWriteEnable | .wireReadStatus | .wireReadJedecId | .wireReadData _ _ | .wireProgramPage _ _ => true
  | .wireEraseBlock _ | .wireEraseChip | .wireEraseChipAlt => true
  | .wireWriteDisable _ | .wireWriteStatus _ | .wireReadDataFast _ | .wireReadDataFastDual _ => false
  | .wireEraseSector _ | .wirePowerDown _ | .wirePowerUp _ => false
  | .configure _ _ _ | .readStatus | .isBusy | .writeEnable | .identify | .read _ _ | .eraseBlock _ | .eraseAll => false
  | .program _ _ | .reserved9 | .reserved10 | .reserved11 | .reserved12 | .reserved13 | .reserved14 => false
  | .reserved15 => false

/-- The operation can run to its response: idle, `Ready`, and the next `k` transport calls return. -/
structure State.CanRun (s : State) (k : Nat) : Prop where
  idle    : s.Idle
  ready   : s.mode = .ready
  returns : s.CallsReturn k

/-- An idle, `Ready` core on a reference device that transfers every byte (20_memory.md R89: full counts). -/
structure State.OnDevice (s : State) : Prop where
  idle   : s.Idle
  ready  : s.mode = .ready
  kind   : s.env.kind = .simFlash
  full   : s.env.script = []

/-! ## Invariants -/

/-- What a `Ready` instance's geometry satisfies (10_state.md R32, R33). -/
structure Geometry.Legal (g : Geometry) : Prop where
  page_pos     : 0 < g.pageSize.toNat
  page_le      : g.pageSize.toNat ≤ g.eraseBlockSize.toNat
  block_le     : g.eraseBlockSize.toNat ≤ g.totalSize.toNat
  pages        : g.pagesPerBlock.toNat = g.eraseBlockSize.toNat / g.pageSize.toNat
  blocks       : g.blockCount.toNat = g.totalSize.toNat / g.eraseBlockSize.toNat
  end_eq       : g.endAddress.toNat = g.pageSize.toNat * g.pagesPerBlock.toNat * g.blockCount.toNat

/-- The geometry invariant (10_state.md R32 to R34). -/
def State.GeometryInv (s : State) : Prop := s.mode = .ready → s.geom.Legal

/-- The flash array is in canonical form. -/
def State.FlashCanonical (s : State) : Prop := s.env.dev.mem.wf

/-- Where a transport trace stands in the shape of 43_operations.md R191. -/
inductive BusState where
  /-- no transaction open -/
  | closed
  /-- a transaction open, nothing sent -/
  | opened
  /-- the header of a command sent -/
  | header (c : Command)
  /-- the payload transferred -/
  | payload
  /-- a call was made that never returned -/
  | waiting
  deriving DecidableEq, Repr

/-- The calls the shape allows: begin; the header of an emitted command in one write; the payload call of that command's
direction (30_encoding.md R110), or none; end. -/
def BusState.call : BusState → TransportCall → Option BusState
  | .closed, .beginTx => some .opened
  | .opened, .write bs => (decodeHeader bs).map fun h => .header h.1
  | .header .programPage, .write _ => some .payload
  | .header .readStatus, .read k => if k = 1 then some .payload else none
  | .header .readJedecId, .read k => if k = 3 then some .payload else none
  | .header .readData, .read _ => some .payload
  | .header .writeEnable, .endTx => some .closed
  | .header .eraseChip, .endTx => some .closed
  | .header .eraseBlock, .endTx => some .closed
  | .payload, .endTx => some .closed
  | _, _ => none

/-- One entry of a trace. -/
def BusState.next (b : BusState) (e : Event) : Option BusState :=
  match e.answer with
  | .returns _ _ => b.call e.call
  | .never => (b.call e.call).map fun _ => .waiting

/-- A whole trace. -/
def BusState.run (b : BusState) : List Event → Option BusState
  | [] => some b
  | e :: es => (b.next e).bind fun b' => b'.run es

/-- The transaction discipline (43_operations.md R191, 10_state.md R46): in `IDLE` every transaction of the trace is whole
and chip-select is deasserted; otherwise the last call made never returned. -/
def State.BusInv (s : State) : Prop :=
  if s.seq = .idle then BusState.closed.run s.trace = some .closed ∧ s.cs = false
  else BusState.closed.run s.trace = some .waiting

/-! ## What an operation leaves unchanged -/

/-- The registers of the core other than the response, the parameters, and the kind of the environment are unchanged, and
the core is idle again. -/
structure CoreKept (s t : State) : Prop where
  mode      : t.mode = s.mode
  geom      : t.geom = s.geom
  latch     : t.latch = s.latch
  eraseChip : t.eraseChip = s.eraseChip
  exclusive : t.exclusive = s.exclusive
  inputs    : t.inputs = s.inputs
  kind      : t.env.kind = s.env.kind
  size      : t.env.dev.size = s.env.dev.size
  page      : t.env.dev.page = s.env.dev.page
  block     : t.env.dev.block = s.env.dev.block
  ident     : t.env.dev.ident = s.env.dev.ident
  seq       : t.seq = .idle

/-- The operation was answered with this code and touched nothing: no transport call, no register, no device (00_scope.md
R18, 60_exceptions.md R240). -/
structure AnsweredWithoutBus (s t : State) (code : ResultCode) : Prop where
  kept  : CoreKept s t
  code  : t.response.code = code
  trace : t.trace = s.trace
  cs    : t.cs = s.cs
  env   : t.env = s.env

/-- Every byte of the flash reads as before. -/
def FlashKept (s t : State) : Prop := ∀ a, t.env.dev.mem.read a = s.env.dev.mem.read a

/-! ## Traces (00_scope.md R22) -/

/-- `B` -/
abbrev Event.opened : Event := { call := .beginTx, answer := .returns 0 [] }

/-- `E` -/
abbrev Event.closed : Event := { call := .endTx, answer := .returns 0 [] }

/-- `W[bs]->c` -/
abbrev Event.wrote (bs : List Byte) (c : Nat) : Event := { call := .write bs, answer := .returns c [] }

/-- `R(k)->c:[rs]` -/
abbrev Event.readBack (k c : Nat) (rs : List Byte) : Event := { call := .read k, answer := .returns c rs }

/-- A status read (41_status_gate.md R150). -/
abbrev statusEvents (c1 c2 : Nat) (b : Byte) : List Event :=
  [.opened, .wrote [0x05] c1, .readBack 1 c2 [b], .closed]

/-- A write-enable (41_status_gate.md R155). -/
abbrev wrenEvents (c : Nat) : List Event := [.opened, .wrote [0x06] c, .closed]

/-- The status read of a gate let the operation pass (41_status_gate.md R152, R157). -/
abbrev statusPasses (c1 c2 : Nat) (b : Byte) : Prop := c1 = 1 ∧ c2 = 1 ∧ b.getLsbD 0 = false

/-- A host operation that is valid in `Ready` only (60_exceptions.md R245). -/
def needsReady : Instr → Bool
  | .readStatus | .isBusy | .writeEnable | .identify | .read _ _ | .eraseBlock _ | .eraseAll | .program _ _ => true
  | .configure _ _ _ | .reserved9 | .reserved10 | .reserved11 | .reserved12 | .reserved13 | .reserved14 => false
  | .reserved15 => false
  | .wireWriteEnable | .wireWriteDisable _ | .wireReadStatus | .wireWriteStatus _ | .wireReadData _ _ => false
  | .wireReadDataFast _ | .wireReadDataFastDual _ | .wireProgramPage _ _ | .wireEraseSector _ => false
  | .wireEraseBlock _ | .wireEraseChip | .wireEraseChipAlt | .wirePowerDown _ | .wirePowerUp _ => false
  | .wireReadJedecId => false

/-- An instruction that may change a byte of the flash (20_memory.md R63). -/
def mayChangeFlash : Instr → Bool
  | .eraseBlock _ | .eraseAll | .program _ _ => true
  | .wireEraseBlock _ | .wireEraseChip | .wireEraseChipAlt | .wireProgramPage _ _ => true
  | .configure _ _ _ | .readStatus | .isBusy | .writeEnable | .identify | .read _ _ => false
  | .reserved9 | .reserved10 | .reserved11 | .reserved12 | .reserved13 | .reserved14 | .reserved15 => false
  | .wireWriteEnable | .wireReadStatus | .wireReadJedecId | .wireReadData _ _ => false
  | .wireWriteDisable _ | .wireWriteStatus _ | .wireReadDataFast _ | .wireReadDataFastDual _ => false
  | .wireEraseSector _ | .wirePowerDown _ | .wirePowerUp _ => false

/-- An instruction of the host interface, as against a wire transaction (30_encoding.md section 6). -/
def isHostOp : Instr → Bool
  | .configure _ _ _ | .readStatus | .isBusy | .writeEnable | .identify | .read _ _ | .eraseBlock _ | .eraseAll => true
  | .program _ _ | .reserved9 | .reserved10 | .reserved11 | .reserved12 | .reserved13 | .reserved14 => true
  | .reserved15 => true
  | .wireWriteEnable | .wireWriteDisable _ | .wireReadStatus | .wireWriteStatus _ | .wireReadData _ _ => false
  | .wireReadDataFast _ | .wireReadDataFastDual _ | .wireProgramPage _ _ | .wireEraseSector _ => false
  | .wireEraseBlock _ | .wireEraseChip | .wireEraseChipAlt | .wirePowerDown _ | .wirePowerUp _ => false
  | .wireReadJedecId => false

end Sys2Proof.Machine
end

