-- ==== Sys2Proof/Certificates/Slice0/Obligations.lean ====
section
/-! DEFINITION. The statements for the provers. Each docstring says which rule of spec/ it formalises; a statement that
rests on a choice of the model says so and names the log entry. -/

open Sys2Proof Sys2Proof.Machine

/-! ## Encoding (30_encoding.md) -/

/-- Decoding an encoded instruction gives it back, with every operand at every value. The word layout of a lone wire
transaction is the model's (logs 2 and 22). -/
def Obligations.DecodeInvertsEncode : Prop :=
  ∀ i : Instr, decode (encode i) = .ok i

/-- No byte of a wire transaction is dropped by its decoding (30_encoding.md R100 to R102, R109, R114; log 22). -/
def Obligations.WireDecodingKeepsEveryByte : Prop :=
  ∀ (f : Frame) (i : Instr), decode (.wire f) = .ok i →
    ∃ n, encode i = .wire { bytes := f.bytes, len := n } ∧ ∀ a k, i = .wireReadData a k → n = f.len

/-- Words written out from the tables of 30_encoding.md R101, R102, R104 and R117 decode to the instructions they stand
for, and two that are no instruction are rejected by name (R109, R113). The length of a `READ_DATA` payload is not on the wire
(R110): that it stands in the field `len` beside the bytes is the model's choice (log 22). -/
def Obligations.WordsOfTheTablesDecode : Prop :=
  decode (.wire { bytes := [0x06], len := 0 }) = .ok .wireWriteEnable ∧
  decode (.wire { bytes := [0xD8, 0x01, 0x80, 0x00], len := 0 }) = .ok (.wireEraseBlock 0x018000) ∧
  decode (.wire { bytes := [0x03, 0x07, 0xFF, 0xFE], len := 1 }) = .ok (.wireReadData 0x07FFFE 1) ∧
  decode (.wire { bytes := [0x02, 0x01, 0x80, 0x00, 0x48, 0x65], len := 0 }) =
    .ok (.wireProgramPage 0x018000 [0x48, 0x65]) ∧
  decode (.wire { bytes := [0x60], len := 0 }) = .ok .wireEraseChipAlt ∧
  decode (.wire { bytes := [0xB9], len := 0 }) = .ok (.wirePowerDown []) ∧
  decode (.wire { bytes := [0xE7], len := 0 }) = .error (.unknownOpcode 0xE7) ∧
  decode (.wire { bytes := [0x03], len := 0 }) = .error (.badHeader 0x03) ∧
  decode (.host { op := 0, arg0 := 256, arg1 := 0x8000, arg2 := 0x80000, wbuf := [] }) =
    .ok (.configure 256 0x8000 0x80000) ∧
  decode (.host { op := 8, arg0 := 0x18000, arg1 := 7, arg2 := 9, wbuf := [0x48] }) = .ok (.program 0x18000 [0x48]) ∧
  decode (.host { op := 12, arg0 := 1, arg1 := 2, arg2 := 3, wbuf := [0] }) = .ok .reserved12

/-- `DecodeOpcode` (30_encoding.md R104, R105, R108): fifteen values name fourteen mnemonics, every other byte is
`Unknown`. -/
def Obligations.OpcodeBytesDecode : Prop :=
  ∀ b : Byte,
    (decodeOpcode b = .writeEnable ↔ b = 0x06) ∧ (decodeOpcode b = .writeDisable ↔ b = 0x04) ∧
    (decodeOpcode b = .readStatus ↔ b = 0x05) ∧ (decodeOpcode b = .writeStatus ↔ b = 0x01) ∧
    (decodeOpcode b = .readData ↔ b = 0x03) ∧ (decodeOpcode b = .readDataFast ↔ b = 0x0B) ∧
    (decodeOpcode b = .readDataFastDual ↔ b = 0x3B) ∧ (decodeOpcode b = .programPage ↔ b = 0x02) ∧
    (decodeOpcode b = .eraseSector ↔ b = 0x20) ∧ (decodeOpcode b = .eraseBlock ↔ b = 0xD8) ∧
    (decodeOpcode b = .eraseChip ↔ b = 0xC7 ∨ b = 0x60) ∧ (decodeOpcode b = .powerDown ↔ b = 0xB9) ∧
    (decodeOpcode b = .powerUp ↔ b = 0xAB) ∧ (decodeOpcode b = .readJedecId ↔ b = 0x9F) ∧
    (decodeOpcode b = .unknown ↔
      b ∉ [0x06, 0x04, 0x05, 0x01, 0x03, 0x0B, 0x3B, 0x02, 0x20, 0xD8, 0xC7, 0x60, 0xB9, 0xAB, (0x9F : Byte)])

/-- `EncodeHeader` for each of the seven emitted commands (30_encoding.md R101, R102, R107), and `EncodeAddr` (R103): bits 23 to
16, 15 to 8, 7 to 0, in this order; the upper bits of the operand are dropped. -/
def Obligations.HeadersOfEmittedCommands : Prop :=
  ∀ (ec : EraseChipOpcode) (a : XWord),
    encodeAddr a =
      [BitVec.ofNat 8 ((a.toNat >>> 16) &&& 0xFF), BitVec.ofNat 8 ((a.toNat >>> 8) &&& 0xFF),
       BitVec.ofNat 8 (a.toNat &&& 0xFF)] ∧
    encodeHeader ec .writeEnable (wireAddr a) = [0x06] ∧
    encodeHeader ec .readStatus (wireAddr a) = [0x05] ∧
    encodeHeader ec .readJedecId (wireAddr a) = [0x9F] ∧
    encodeHeader ec .eraseChip (wireAddr a) = [if ec = .c7 then 0xC7 else 0x60] ∧
    encodeHeader ec .readData (wireAddr a) = 0x03 :: encodeAddr a ∧
    encodeHeader ec .programPage (wireAddr a) = 0x02 :: encodeAddr a ∧
    encodeHeader ec .eraseBlock (wireAddr a) = 0xD8 :: encodeAddr a

/-- The round trip of 30_encoding.md R109: `DecodeHeader(EncodeHeader(c, a)) = (c, a mod 2^24)` for a `W4` command and
`(c, none)` for a `W1` command. -/
def Obligations.HeaderRoundTrip : Prop :=
  ∀ (ec : EraseChipOpcode) (c : Command) (a : XWord),
    decodeHeader (encodeHeader ec c (wireAddr a)) =
      some (c, if c = .readData ∨ c = .programPage ∨ c = .eraseBlock then some (BitVec.ofNat 24 (a.toNat % 2 ^ 24))
               else none)

/-- `DecodeHeader` accepts nothing but headers (30_encoding.md R109): what it accepts is the encoding of what it answers,
for one of the two values of `ERASE_CHIP_OPCODE`. -/
def Obligations.OnlyHeadersDecode : Prop :=
  ∀ (h : List Byte) (c : Command) (o : Option Addr24), decodeHeader h = some (c, o) →
    ∃ (ec : EraseChipOpcode) (a : Addr24), h = encodeHeader ec c a ∧
      (o = if c = .readData ∨ c = .programPage ∨ c = .eraseBlock then some a else none)

/-- `DecodeStatus` and the busy test (30_encoding.md R111, 41_status_gate.md R153). -/
def Obligations.StatusByteFields : Prop :=
  ∀ s : Byte,
    ((decodeStatus s).wip = true ↔ s.toNat % 2 = 1) ∧ ((decodeStatus s).wel = true ↔ s.toNat / 2 % 2 = 1) ∧
    (decodeStatus s).bp.toNat = s.toNat / 4 % 16 ∧ ((decodeStatus s).rsv = true ↔ s.toNat / 64 % 2 = 1) ∧
    ((decodeStatus s).srp = true ↔ s.toNat / 128 % 2 = 1) ∧ (busyBit s = true ↔ s &&& 0x01 ≠ 0)

/-- The host's selectors and operand slots (30_encoding.md R117, R118, R120; 43_operations.md R206). -/
def Obligations.SelectorsDispatch : Prop :=
  ∀ (a0 a1 a2 : XWord) (buf : List Byte),
    let word := fun op : BitVec 4 => decode (.host { op := op, arg0 := a0, arg1 := a1, arg2 := a2, wbuf := buf })
    word 0 = .ok (.configure a0 a1 a2) ∧ word 1 = .ok .readStatus ∧ word 2 = .ok .isBusy ∧
    word 3 = .ok .writeEnable ∧ word 4 = .ok .identify ∧ word 5 = .ok (.read a0 a1) ∧
    word 6 = .ok (.eraseBlock a0) ∧ word 7 = .ok .eraseAll ∧ word 8 = .ok (.program a0 buf) ∧
    word 9 = .ok .reserved9 ∧ word 10 = .ok .reserved10 ∧ word 11 = .ok .reserved11 ∧ word 12 = .ok .reserved12 ∧
    word 13 = .ok .reserved13 ∧ word 14 = .ok .reserved14 ∧ word 15 = .ok .reserved15

/-! ## Steps -/

/-- A step in `IDLE` whose next input decodes to an instruction is that instruction, run with the input taken and a host
request latched (10_state.md R37, 43_operations.md R206; the input list is the model's, log 4). -/
def Obligations.StepRunsDecodedInstruction : Prop :=
  ∀ (s : State) (rest : List Input) (i : Instr), s.seq = .idle →
    (∀ r, s.inputs = .fetch (.host r) :: rest → decode (.host r) = .ok i →
      step s = exec i { s with inputs := rest, latch := r }) ∧
    (∀ f, s.inputs = .fetch (.wire f) :: rest → decode (.wire f) = .ok i →
      step s = exec i { s with inputs := rest })

/-- What a step does when there is nothing to run: in `IDLE` with no input the core waits; a wire transaction that decodes
to no instruction is dropped (log 23). The input list and the dropping are the model's (logs 4 and 23). -/
def Obligations.IdleStepsWithoutInstruction : Prop :=
  ∀ s : State, s.seq = .idle →
    (s.inputs = [] → step s = .next s) ∧
    (∀ f rest e, s.inputs = .fetch (.wire f) :: rest → decode (.wire f) = .error e →
      step s = .next { s with inputs := rest })

/-- Reset (70_reset_and_hazards.md R260, R261) in `IDLE`: `Unconfigured`, `IDLE`, chip-select deasserted, the device and the
history of transport calls untouched. -/
def Obligations.ResetReturnsToUnconfigured : Prop :=
  ∀ (s : State) (rest : List Input), s.seq = .idle → s.inputs = .reset :: rest →
    ∃ t, step s = .next t ∧ t.mode = .unconfigured ∧ t.seq = .idle ∧ t.cs = false ∧ t.env = s.env ∧
      t.trace = s.trace ∧ t.eraseChip = s.eraseChip ∧ t.exclusive = s.exclusive ∧ t.inputs = rest

/-- `Complete` (20_memory.md R95): the busy bit and the latch are cleared, and nothing else changes. -/
def Obligations.CompletionClearsBothLatches : Prop :=
  ∀ (s : State) (rest : List Input), s.seq = .idle → s.inputs = .complete :: rest → s.env.kind = .simFlash →
    s.env.dev.wip = true →
    step s = .next { s with
      inputs := rest, env := { s.env with dev := { s.env.dev with wip := false, wel := false } } }

/-- No instruction has a meaning while an operation is executing (43_operations.md R205, 93_implementation_defined.md U3), and
neither has a reset (70_reset_and_hazards.md R261, U4). That the model answers with a refusal is its choice (log 10). -/
def Obligations.NothingRunsWhileExecuting : Prop :=
  ∀ s : State, s.seq ≠ .idle →
    (∀ i, exec i s = .refused .requestWhileExecuting) ∧
    (∀ rest, s.inputs = .reset :: rest → step s = .refused .resetWhileExecuting)

/-- An operation whose transport call never returns never responds (70_reset_and_hazards.md R276): the last call of the trace
has no answer, the response is the one before, and every further step leaves the state as it is. -/
def Obligations.UnansweredCallHangsForGood : Prop :=
  ∀ (i : Instr) (s t : State), exec i s = .next t → t.seq ≠ .idle →
    (∃ c es, t.trace = s.trace ++ es ++ [{ call := c, answer := .never }]) ∧ t.response = s.response ∧
    t.mode = s.mode ∧ t.geom = s.geom ∧ ((∀ rest, t.inputs ≠ .reset :: rest) → step t = .next t)

/-! ## Modes and errors -/

/-- The mode test (43_operations.md R194, 41_status_gate.md R154): in `Unconfigured` each of the eight operations is answered
`NotConfigured` and nothing happens; `is_busy` then answers `busy = true`. -/
def Obligations.UnconfiguredOperationsAreRefused : Prop :=
  ∀ (i : Instr) (s : State), needsReady i = true → s.seq = .idle → s.mode = .unconfigured →
    ∃ t, exec i s = .next t ∧ AnsweredWithoutBus s t .notConfigured ∧ (i = .isBusy → t.response.busy = true)

/-- A lone wire transaction of the core stands behind the mode test too. This is the model's choice (logs 1 and 20). -/
def Obligations.WireTransactionsNeedReady : Prop :=
  ∀ (i : Instr) (s : State), isEmittedWire i = true → s.seq = .idle → s.mode = .unconfigured →
    ∃ t, exec i s = .next t ∧ AnsweredWithoutBus s t .notConfigured

/-- The reserved selectors (30_encoding.md R120): `IllegalOp` in either mode, no transport call, no state change. -/
def Obligations.ReservedSelectorsAreIllegal : Prop :=
  ∀ (i : Instr) (s : State),
    i = .reserved9 ∨ i = .reserved10 ∨ i = .reserved11 ∨ i = .reserved12 ∨ i = .reserved13 ∨ i = .reserved14 ∨
      i = .reserved15 →
    s.seq = .idle → ∃ t, exec i s = .next t ∧ AnsweredWithoutBus s t .illegalOp

/-- Only a successful `configure` writes the mode or the geometry (10_state.md R30, R31, R34; 40_geometry.md R140). -/
def Obligations.OnlyConfigureWritesTheCore : Prop :=
  ∀ (i : Instr) (s t : State), exec i s = .next t →
    (t.mode = s.mode ∧ t.geom = s.geom) ∨
      (∃ ps ebs ts, i = .configure ps ebs ts) ∧ s.mode = .unconfigured ∧ t.mode = .ready ∧ t.response.code = .ok

/-- `Ready` is left by reset only (10_state.md R31, 43_operations.md R202). -/
def Obligations.ReadyIsLeftByResetOnly : Prop :=
  ∀ s t : State, step s = .next t → s.mode = .ready → t.mode ≠ .ready → ∃ rest, s.inputs = .reset :: rest

/-- Errors found before the bus (60_exceptions.md R240, codes 1 to 6, 9, 10 and 12): no transport call, no register, no
device. -/
def Obligations.EarlyErrorsTouchNothing : Prop :=
  ∀ (i : Instr) (s t : State), isHostOp i = true → exec i s = .next t → t.seq = .idle →
    t.response.code ∈ [.zeroPageSize, .pageExceedsBlock, .blockExceedsDevice, .outOfRange, .misaligned,
      .pageBoundaryCrossed, .notConfigured, .alreadyConfigured, ResultCode.illegalOp] →
    AnsweredWithoutBus s t t.response.code

/-- `DeviceBusy` (60_exceptions.md R235, R240; 41_status_gate.md R157, R159): only the three mutating operations answer it,
after exactly the status transaction, which failed or showed bit 0 set. -/
def Obligations.DeviceBusyAfterOneStatusRead : Prop :=
  ∀ (i : Instr) (s t : State), isHostOp i = true → exec i s = .next t → t.seq = .idle →
    t.response.code = .deviceBusy →
    ((∃ a, i = .eraseBlock a) ∨ i = .eraseAll ∨ ∃ a buf, i = .program a buf) ∧
      CoreKept s t ∧ t.cs = false ∧ FlashKept s t ∧
      ∃ c1 c2 b, t.trace = s.trace ++ statusEvents c1 c2 b ∧ ¬ statusPasses c1 c2 b

/-! ## `configure` (40_geometry.md) -/

/-- A valid `configure` stores the inputs and the derived quantities, makes the instance `Ready`, and makes no transport call
(40_geometry.md R141, R142, R146). -/
def Obligations.ConfigureStoresGeometry : Prop :=
  ∀ (ps ebs ts : XWord) (s : State), s.seq = .idle → s.mode = .unconfigured →
    0 < ps.toNat → ps.toNat ≤ ebs.toNat → ebs.toNat ≤ ts.toNat →
    ∃ t, exec (.configure ps ebs ts) s = .next t ∧ t.response.code = .ok ∧ t.mode = .ready ∧
      t.geom.pageSize = ps ∧ t.geom.eraseBlockSize = ebs ∧ t.geom.totalSize = ts ∧
      t.geom.pagesPerBlock.toNat = ebs.toNat / ps.toNat ∧ t.geom.blockCount.toNat = ts.toNat / ebs.toNat ∧
      t.geom.endAddress.toNat = ps.toNat * (ebs.toNat / ps.toNat) * (ts.toNat / ebs.toNat) ∧
      t.seq = .idle ∧ t.cs = s.cs ∧ t.trace = s.trace ∧ t.env = s.env ∧ t.latch = s.latch ∧
      t.eraseChip = s.eraseChip ∧ t.exclusive = s.exclusive ∧ t.inputs = s.inputs

/-- A `configure` that is refused (40_geometry.md R141, R144): in `Ready` it is `AlreadyConfigured` whatever its operands are; in
`Unconfigured` the first of the three tests that fails is reported. Nothing changes. -/
def Obligations.ConfigureReportsFirstFault : Prop :=
  ∀ (ps ebs ts : XWord) (s : State), s.seq = .idle →
    (s.mode = .ready →
      ∃ t, exec (.configure ps ebs ts) s = .next t ∧ AnsweredWithoutBus s t .alreadyConfigured) ∧
    (s.mode = .unconfigured → ps.toNat = 0 →
      ∃ t, exec (.configure ps ebs ts) s = .next t ∧ AnsweredWithoutBus s t .zeroPageSize) ∧
    (s.mode = .unconfigured → 0 < ps.toNat → ebs.toNat < ps.toNat →
      ∃ t, exec (.configure ps ebs ts) s = .next t ∧ AnsweredWithoutBus s t .pageExceedsBlock) ∧
    (s.mode = .unconfigured → 0 < ps.toNat → ps.toNat ≤ ebs.toNat → ts.toNat < ebs.toNat →
      ∃ t, exec (.configure ps ebs ts) s = .next t ∧ AnsweredWithoutBus s t .blockExceedsDevice)

/-- The laws of a successful `configure` (40_geometry.md R143, 20_memory.md R62). -/
def Obligations.LawsOfASuccessfulConfigure : Prop :=
  ∀ (ps ebs ts : XWord) (s t : State), exec (.configure ps ebs ts) s = .next t → t.response.code = .ok →
    1 ≤ t.geom.pagesPerBlock.toNat ∧ 1 ≤ t.geom.blockCount.toNat ∧
    ps.toNat * t.geom.pagesPerBlock.toNat ≤ ebs.toNat ∧ ebs.toNat * t.geom.blockCount.toNat ≤ ts.toNat ∧
    ps.toNat ≤ t.geom.endAddress.toNat ∧ t.geom.endAddress.toNat ≤ ts.toNat ∧ ts.toNat < 2 ^ 32 ∧
    1 ≤ t.geom.endAddress.toNat ∧
    ps.toNat ∣ t.geom.endAddress.toNat ∧
    (t.geom.endAddress.toNat = ts.toNat ↔ ps.toNat ∣ ebs.toNat ∧ ebs.toNat ∣ ts.toNat)

/-! ## Status and gate (41_status_gate.md) -/

/-- `read_status()` (41_status_gate.md R150, R151), for every answer of the environment. -/
def Obligations.ReadStatusAnswersRawByte : Prop :=
  ∀ s : State, s.CanRun 4 →
    ∃ t c1 c2 b, exec .readStatus s = .next t ∧ CoreKept s t ∧ t.cs = false ∧ FlashKept s t ∧
      t.trace = s.trace ++ statusEvents c1 c2 b ∧
      t.response.code = (if c1 = 1 ∧ c2 = 1 then .ok else .transportError) ∧
      (c1 = 1 ∧ c2 = 1 → t.response.status = b)

/-- `is_busy()` (41_status_gate.md R152, R153, R154): busy exactly when the status read fails or shows bit 0 set, and never a
transport error. -/
def Obligations.IsBusyIsFailSafe : Prop :=
  ∀ s : State, s.CanRun 4 →
    ∃ t c1 c2 b, exec .isBusy s = .next t ∧ CoreKept s t ∧ t.cs = false ∧ FlashKept s t ∧
      t.trace = s.trace ++ statusEvents c1 c2 b ∧ t.response.code = .ok ∧
      (t.response.busy = true ↔ ¬ (c1 = 1 ∧ c2 = 1) ∨ b &&& 0x01 ≠ 0)

/-- `write_enable()` (41_status_gate.md R155, R156), for every answer of the environment. -/
def Obligations.WriteEnableIsOneExchange : Prop :=
  ∀ s : State, s.CanRun 3 →
    ∃ t c, exec .writeEnable s = .next t ∧ CoreKept s t ∧ t.cs = false ∧ FlashKept s t ∧
      t.trace = s.trace ++ wrenEvents c ∧ t.response.code = (if c = 1 then .ok else .transportError)

/-! ## Bounds and alignment (42_bounds_alignment.md) -/

/-- `CheckRead` (42_bounds_alignment.md R172, R179): the sum is exact, a `read` out of range is refused, and a `read` passes exactly
when `a + n <= end - 1`. -/
def Obligations.ReadOutOfRangeIsRefused : Prop :=
  ∀ (a n : XWord) (s : State), s.seq = .idle → s.mode = .ready →
    (checkRead s.geom a.toNat n.toNat = none ↔ a.toNat + n.toNat < s.geom.endAddress.toNat) ∧
    (s.geom.endAddress.toNat ≤ a.toNat ∨ s.geom.endAddress.toNat ≤ a.toNat + n.toNat →
      ∃ t, exec (.read a n) s = .next t ∧ AnsweredWithoutBus s t .outOfRange)

/-- `CheckErase` (42_bounds_alignment.md R173, R174): an `erase_block` that is misaligned is refused, then one that is out of range;
every other passes. -/
def Obligations.EraseBlockChecksMaskThenRange : Prop :=
  ∀ (a : XWord) (s : State), s.seq = .idle → s.mode = .ready →
    (checkErase s.geom a.toNat = none ↔
      a.toNat &&& (s.geom.eraseBlockSize.toNat - 1) = 0 ∧ a.toNat < s.geom.endAddress.toNat) ∧
    (a.toNat &&& (s.geom.eraseBlockSize.toNat - 1) ≠ 0 →
      ∃ t, exec (.eraseBlock a) s = .next t ∧ AnsweredWithoutBus s t .misaligned) ∧
    (a.toNat &&& (s.geom.eraseBlockSize.toNat - 1) = 0 → s.geom.endAddress.toNat ≤ a.toNat →
      ∃ t, exec (.eraseBlock a) s = .next t ∧ AnsweredWithoutBus s t .outOfRange)

/-- `CheckProgram` (42_bounds_alignment.md R175, R176): a `program` whose start is out of range is refused, then one that crosses its
page; every other passes. -/
def Obligations.ProgramChecksRangeThenPage : Prop :=
  ∀ (a : XWord) (buf : List Byte) (s : State), s.seq = .idle → s.mode = .ready →
    (checkProgram s.geom a.toNat buf.length = none ↔
      a.toNat < s.geom.endAddress.toNat ∧
        buf.length ≤ s.geom.pageSize.toNat - (a.toNat &&& (s.geom.pageSize.toNat - 1))) ∧
    (s.geom.endAddress.toNat ≤ a.toNat →
      ∃ t, exec (.program a buf) s = .next t ∧ AnsweredWithoutBus s t .outOfRange) ∧
    (a.toNat < s.geom.endAddress.toNat →
      s.geom.pageSize.toNat - (a.toNat &&& (s.geom.pageSize.toNat - 1)) < buf.length →
      ∃ t, exec (.program a buf) s = .next t ∧ AnsweredWithoutBus s t .pageBoundaryCrossed)

/-- With a page size that is a power of two an accepted `program` stays inside the address space, though its end is never
compared with it; without a power of two it may not (42_bounds_alignment.md R182). -/
def Obligations.AcceptedProgramStaysInside : Prop :=
  (∀ (g : Geometry) (a : XWord) (n : Nat), g.Legal → (∃ j, g.pageSize.toNat = 2 ^ j) →
    checkProgram g a.toNat n = none →
    pageOffset g a.toNat = a.toNat % g.pageSize.toNat ∧ g.pageSize.toNat ∣ g.endAddress.toNat ∧
      a.toNat + n ≤ (a.toNat - pageOffset g a.toNat) + g.pageSize.toNat ∧
      (a.toNat - pageOffset g a.toNat) + g.pageSize.toNat ≤ g.endAddress.toNat) ∧
  ∃ (g : Geometry) (a : XWord) (n : Nat), g.Legal ∧ checkProgram g a.toNat n = none ∧ g.endAddress.toNat < a.toNat + n

/-- With a block size that is a power of two and a multiple of the page size an accepted `erase_block` covers a block inside
the address space (42_bounds_alignment.md R174). -/
def Obligations.AcceptedEraseStaysInside : Prop :=
  ∀ (g : Geometry) (a : XWord), g.Legal → (∃ k, g.eraseBlockSize.toNat = 2 ^ k) →
    g.pageSize.toNat ∣ g.eraseBlockSize.toNat → checkErase g a.toNat = none →
    g.eraseBlockSize.toNat ∣ a.toNat ∧ a.toNat + g.eraseBlockSize.toNat ≤ g.endAddress.toNat

/-- Under `GEOM_FITS_24` the address on the wire is the address of the request (20_memory.md R64). -/
def Obligations.WireAddressIsExactWhenItFits : Prop :=
  ∀ (g : Geometry) (a : XWord) (n : Nat), g.Fits24 →
    (checkRead g a.toNat n = none ∨ checkErase g a.toNat = none ∨ checkProgram g a.toNat n = none) →
    (wireAddr a).toNat = a.toNat

/-! ## The public operations (43_operations.md), for every answer of the environment -/

/-- `identify()` (43_operations.md R195, R196): the counts decide before the bytes do, and one bad byte suffices. -/
def Obligations.IdentifyChecksCountsThenBytes : Prop :=
  ∀ s : State, s.CanRun 4 →
    ∃ t c1 c2 b0 b1 b2, exec .identify s = .next t ∧ CoreKept s t ∧ t.cs = false ∧ FlashKept s t ∧
      t.trace = s.trace ++ [.opened, .wrote [0x9F] c1, .readBack 3 c2 [b0, b1, b2], .closed] ∧
      t.response.code =
        (if ¬ (c1 = 1 ∧ c2 = 3) then .transportError
         else if ∃ b ∈ [b0, b1, b2], b = 0x00 ∨ b = 0xFF then .implausibleId else .ok) ∧
      (t.response.code = .ok →
        t.response.id = { reserved := 0x00, manufacturer := b0, device := b1, capacity := b2 })

/-- `read(addr, n)` in range (43_operations.md R197): one transaction, no busy test, exactly `n` bytes. -/
def Obligations.ReadReturnsTheBytesReceived : Prop :=
  ∀ (a n : XWord) (s : State), s.CanRun 4 → a.toNat + n.toNat < s.geom.endAddress.toNat →
    ∃ t c1 c2 rs, exec (.read a n) s = .next t ∧ CoreKept s t ∧ t.cs = false ∧ FlashKept s t ∧
      rs.length = n.toNat ∧
      t.trace = s.trace ++ [.opened, .wrote (0x03 :: encodeAddr a) c1, .readBack n.toNat c2 rs, .closed] ∧
      t.response.code = (if c1 = 4 ∧ c2 = n.toNat then .ok else .transportError) ∧
      (t.response.code = .ok → t.response.rbuf = rs)

/-- `erase_block(addr)` past its checks (43_operations.md R198, 41_status_gate.md R157, R158): gate, write-enable, command, each
a transaction of its own, and the AND of all matches. -/
def Obligations.EraseBlockWalksTheGate : Prop :=
  ∀ (a : XWord) (s : State), s.CanRun 10 → a.toNat &&& (s.geom.eraseBlockSize.toNat - 1) = 0 →
    a.toNat < s.geom.endAddress.toNat →
    ∃ t c1 c2 b, exec (.eraseBlock a) s = .next t ∧ CoreKept s t ∧ t.cs = false ∧
      (statusPasses c1 c2 b → ∃ c3 c4,
        t.trace = s.trace ++ (statusEvents c1 c2 b ++ wrenEvents c3 ++
          [.opened, .wrote (0xD8 :: encodeAddr a) c4, .closed]) ∧
        t.response.code = (if c3 = 1 ∧ c4 = 4 then .ok else .transportError)) ∧
      (¬ statusPasses c1 c2 b →
        t.trace = s.trace ++ statusEvents c1 c2 b ∧ t.response.code = .deviceBusy ∧ FlashKept s t)

/-- `erase_all()` (43_operations.md R199, 41_status_gate.md R157, R158), for both values of `ERASE_CHIP_OPCODE`. -/
def Obligations.EraseAllWalksTheGate : Prop :=
  ∀ s : State, s.CanRun 10 →
    ∃ t c1 c2 b, exec .eraseAll s = .next t ∧ CoreKept s t ∧ t.cs = false ∧
      (statusPasses c1 c2 b → ∃ c3 c4,
        t.trace = s.trace ++ (statusEvents c1 c2 b ++ wrenEvents c3 ++
          [.opened, .wrote [if s.eraseChip = .c7 then 0xC7 else 0x60] c4, .closed]) ∧
        t.response.code = (if c3 = 1 ∧ c4 = 1 then .ok else .transportError)) ∧
      (¬ statusPasses c1 c2 b →
        t.trace = s.trace ++ statusEvents c1 c2 b ∧ t.response.code = .deviceBusy ∧ FlashKept s t)

/-- `program(addr, buf)` past its checks (43_operations.md R200, R192): header and payload are two writes of one transaction,
and the payload is written after a short header too. -/
def Obligations.ProgramWalksTheGate : Prop :=
  ∀ (a : XWord) (buf : List Byte) (s : State), s.CanRun 11 → a.toNat < s.geom.endAddress.toNat →
    buf.length ≤ s.geom.pageSize.toNat - (a.toNat &&& (s.geom.pageSize.toNat - 1)) →
    ∃ t c1 c2 b, exec (.program a buf) s = .next t ∧ CoreKept s t ∧ t.cs = false ∧
      (statusPasses c1 c2 b → ∃ c3 c4 c5,
        t.trace = s.trace ++ (statusEvents c1 c2 b ++ wrenEvents c3 ++
          [.opened, .wrote (0x02 :: encodeAddr a) c4, .wrote buf c5, .closed]) ∧
        t.response.code = (if c3 = 1 ∧ c4 = 4 ∧ c5 = buf.length then .ok else .transportError)) ∧
      (¬ statusPasses c1 c2 b →
        t.trace = s.trace ++ statusEvents c1 c2 b ∧ t.response.code = .deviceBusy ∧ FlashKept s t)

/-! ## The operations on the reference device (20_memory.md R88 to R95): where each completes with its effect -/

/-- The reads on a device that transfers every byte: the status byte is the device's, the identity and the data are the
device's when no cycle runs (20_memory.md R91, R92). The array keeps every byte. -/
def Obligations.ReadsOnTheDevice : Prop :=
  ∀ (s : State) (a n : XWord), s.OnDevice →
    (∃ t, exec .readStatus s = .next t ∧ t.response.code = .ok ∧ CoreKept s t ∧ FlashKept s t ∧
      t.response.status = BitVec.ofNat 8 (2 * t.env.dev.wel.toNat + t.env.dev.wip.toNat)) ∧
    (∃ t, exec .isBusy s = .next t ∧ t.response.code = .ok ∧ CoreKept s t ∧ FlashKept s t ∧
      t.response.busy = t.env.dev.wip) ∧
    (s.env.dev.wip = false → plausible [s.env.dev.ident.b0, s.env.dev.ident.b1, s.env.dev.ident.b2] = true →
      ∃ t, exec .identify s = .next t ∧ t.response.code = .ok ∧ CoreKept s t ∧ FlashKept s t ∧
        t.response.id = { reserved := 0, manufacturer := s.env.dev.ident.b0, device := s.env.dev.ident.b1,
                          capacity := s.env.dev.ident.b2 }) ∧
    (s.env.dev.wip = false → a.toNat + n.toNat < s.geom.endAddress.toNat →
      ∃ t, exec (.read a n) s = .next t ∧ t.response.code = .ok ∧ CoreKept s t ∧ FlashKept s t ∧
        t.response.rbuf = (List.range n.toNat).map fun i =>
          s.env.dev.mem.read ((a.toNat % 2 ^ 24 + i) % s.env.dev.size.val))

/-- `write_enable()` on an idle device sets the latch (20_memory.md R90). -/
def Obligations.WriteEnableSetsTheLatch : Prop :=
  ∀ s : State, s.OnDevice → s.env.dev.wip = false →
    ∃ t, exec .writeEnable s = .next t ∧ t.response.code = .ok ∧ CoreKept s t ∧ FlashKept s t ∧
      t.env.dev.wel = true ∧ t.env.dev.wip = false

/-- `erase_block(addr)` on an idle device (20_memory.md R93, 43_operations.md R198): the device's block that holds the address
reads `0xFF`, every other byte as before, and the cycle has started. -/
def Obligations.EraseBlockErasesItsBlock : Prop :=
  ∀ (a : XWord) (s : State), s.OnDevice → s.env.dev.wip = false →
    a.toNat &&& (s.geom.eraseBlockSize.toNat - 1) = 0 → a.toNat < s.geom.endAddress.toNat →
    ∃ t, exec (.eraseBlock a) s = .next t ∧ t.response.code = .ok ∧ CoreKept s t ∧
      t.env.dev.wel = true ∧ t.env.dev.wip = true ∧
      ∀ x, t.env.dev.mem.read x =
        if x / s.env.dev.block.val = a.toNat % 2 ^ 24 % s.env.dev.size.val / s.env.dev.block.val then 0xFF
        else s.env.dev.mem.read x

/-- `erase_all()` on an idle device (20_memory.md R93, 43_operations.md R199): every byte reads `0xFF`. -/
def Obligations.EraseAllErasesEverything : Prop :=
  ∀ s : State, s.OnDevice → s.env.dev.wip = false →
    ∃ t, exec .eraseAll s = .next t ∧ t.response.code = .ok ∧ CoreKept s t ∧
      t.env.dev.wel = true ∧ t.env.dev.wip = true ∧ ∀ x, t.env.dev.mem.read x = 0xFF

/-- `program(addr, buf)` on an idle device, with a payload no longer than the device's page (20_memory.md R94, 43_operations.md
R200): byte `i` is ANDed into the byte at its address, and every other byte reads as before. Where the array ends inside a page,
an address behind its end names no byte and nothing is stored there, which is the model's choice (log 15). -/
def Obligations.ProgramAndsIntoItsPage : Prop :=
  ∀ (a : XWord) (buf : List Byte) (s : State), s.OnDevice → s.env.dev.wip = false → s.FlashCanonical →
    a.toNat < s.geom.endAddress.toNat →
    buf.length ≤ s.geom.pageSize.toNat - (a.toNat &&& (s.geom.pageSize.toNat - 1)) → buf.length ≤ s.env.dev.page.val →
    ∃ t, exec (.program a buf) s = .next t ∧ t.response.code = .ok ∧ CoreKept s t ∧
      t.env.dev.wel = true ∧ t.env.dev.wip = true ∧
      (∀ (i : Nat) (b : Byte), buf[i]? = some b →
        s.env.dev.programAddr (a.toNat % 2 ^ 24) i < s.env.dev.size.val →
        t.env.dev.mem.read (s.env.dev.programAddr (a.toNat % 2 ^ 24) i) =
          s.env.dev.mem.read (s.env.dev.programAddr (a.toNat % 2 ^ 24) i) &&& b) ∧
      (∀ x, s.env.dev.size.val ≤ x ∨ (∀ i < buf.length, s.env.dev.programAddr (a.toNat % 2 ^ 24) i ≠ x) →
        t.env.dev.mem.read x = s.env.dev.mem.read x)

/-- The source's round trip (20_memory.md R65, R82; 95_test_vectors.md A2): what is programmed into an erased range of a device
the geometry describes is read back once the cycle has ended. -/
def Obligations.ProgrammedBytesReadBack : Prop :=
  ∀ (a : XWord) (buf : List Byte) (s : State), s.OnDevice → s.env.dev.wip = false → s.FlashCanonical →
    s.geom.Legal → s.geom.Fits24 → (∃ j, s.geom.pageSize.toNat = 2 ^ j) → s.geom.pageSize.toNat = s.env.dev.page.val →
    s.geom.endAddress.toNat ≤ s.env.dev.size.val → checkProgram s.geom a.toNat buf.length = none →
    a.toNat + buf.length < s.geom.endAddress.toNat →
    (∀ i < buf.length, s.env.dev.mem.read (a.toNat + i) = 0xFF) →
    ∃ t u, exec (.program a buf) s = .next t ∧ t.response.code = .ok ∧
      exec (.read a (BitVec.ofNat 32 buf.length)) t.completeEvent = .next u ∧ u.response.code = .ok ∧
      u.response.rbuf = buf

/-! ## Lone wire transactions -/

/-- The lone transactions that read (41_status_gate.md R150; 43_operations.md R191, R192; 30_encoding.md R102, R110). That a wire
row is run by itself, and its response, are the model's (logs 1 and 20). -/
def Obligations.WireReadsRun : Prop :=
  ∀ (s : State) (a : Addr24) (n : XWord), s.CanRun 4 →
    (∃ t c1 c2 b, exec .wireReadStatus s = .next t ∧ CoreKept s t ∧ t.cs = false ∧ FlashKept s t ∧
      t.trace = s.trace ++ statusEvents c1 c2 b ∧
      t.response.code = (if c1 = 1 ∧ c2 = 1 then .ok else .transportError) ∧
      (t.response.code = .ok → t.response.status = b)) ∧
    (∃ t c1 c2 rs, exec .wireReadJedecId s = .next t ∧ CoreKept s t ∧ t.cs = false ∧ FlashKept s t ∧
      rs.length = 3 ∧ t.trace = s.trace ++ [.opened, .wrote [0x9F] c1, .readBack 3 c2 rs, .closed] ∧
      t.response.code = (if c1 = 1 ∧ c2 = 3 then .ok else .transportError) ∧
      (t.response.code = .ok → t.response.rbuf = rs)) ∧
    (∃ t c1 c2 rs, exec (.wireReadData a n) s = .next t ∧ CoreKept s t ∧ t.cs = false ∧ FlashKept s t ∧
      rs.length = n.toNat ∧
      t.trace = s.trace ++ [.opened, .wrote (0x03 :: addrBytes24 a) c1, .readBack n.toNat c2 rs, .closed] ∧
      t.response.code = (if c1 = 4 ∧ c2 = n.toNat then .ok else .transportError) ∧
      (t.response.code = .ok → t.response.rbuf = rs))

/-- The lone transactions that read nothing back (41_status_gate.md R155; 43_operations.md R191, R192). That a wire row is run by
itself, and its response, are the model's (logs 1 and 20). -/
def Obligations.WireWritesRun : Prop :=
  ∀ (s : State) (a : Addr24) (data : List Byte), s.CanRun 4 →
    (∃ t c, exec .wireWriteEnable s = .next t ∧ CoreKept s t ∧ t.cs = false ∧ FlashKept s t ∧
      t.trace = s.trace ++ wrenEvents c ∧ t.response.code = (if c = 1 then .ok else .transportError)) ∧
    (∃ t c, exec .wireEraseChip s = .next t ∧ CoreKept s t ∧ t.cs = false ∧
      t.trace = s.trace ++ [.opened, .wrote [0xC7] c, .closed] ∧
      t.response.code = (if c = 1 then .ok else .transportError)) ∧
    (∃ t c, exec .wireEraseChipAlt s = .next t ∧ CoreKept s t ∧ t.cs = false ∧
      t.trace = s.trace ++ [.opened, .wrote [0x60] c, .closed] ∧
      t.response.code = (if c = 1 then .ok else .transportError)) ∧
    (∃ t c, exec (.wireEraseBlock a) s = .next t ∧ CoreKept s t ∧ t.cs = false ∧
      t.trace = s.trace ++ [.opened, .wrote (0xD8 :: addrBytes24 a) c, .closed] ∧
      t.response.code = (if c = 4 then .ok else .transportError)) ∧
    (∃ t c1 c2, exec (.wireProgramPage a data) s = .next t ∧ CoreKept s t ∧ t.cs = false ∧
      t.trace = s.trace ++ [.opened, .wrote (0x02 :: addrBytes24 a) c1, .wrote data c2, .closed] ∧
      t.response.code = (if c1 = 4 ∧ c2 = data.length then .ok else .transportError))

/-- The lone transactions on an idle reference device (20_memory.md R90 to R94): the latch decides whether a mutating one takes
effect. That a wire row is run by itself, and its response, are the model's (logs 1 and 20), and so is that a program stores
nothing behind the end of the array (log 15). -/
def Obligations.WireCommandsOnTheDevice : Prop :=
  ∀ (s : State) (a : Addr24) (n : XWord) (data : List Byte), s.OnDevice → s.env.dev.wip = false →
    (∃ t, exec .wireWriteEnable s = .next t ∧ t.response.code = .ok ∧ FlashKept s t ∧ t.env.dev.wel = true ∧
      t.env.dev.wip = false) ∧
    (∃ t, exec .wireReadStatus s = .next t ∧ t.response.code = .ok ∧ FlashKept s t ∧
      t.response.status = if s.env.dev.wel then 0x02 else 0x00) ∧
    (∃ t, exec .wireReadJedecId s = .next t ∧ t.response.code = .ok ∧ FlashKept s t ∧
      t.response.rbuf = [s.env.dev.ident.b0, s.env.dev.ident.b1, s.env.dev.ident.b2]) ∧
    (∃ t, exec (.wireReadData a n) s = .next t ∧ t.response.code = .ok ∧ FlashKept s t ∧
      t.response.rbuf = (List.range n.toNat).map fun i => s.env.dev.mem.read ((a.toNat + i) % s.env.dev.size.val)) ∧
    (∃ t, exec .wireEraseChip s = .next t ∧ t.response.code = .ok ∧ t.env.dev.wip = s.env.dev.wel ∧
      ∀ x, t.env.dev.mem.read x = if s.env.dev.wel then 0xFF else s.env.dev.mem.read x) ∧
    (∃ t, exec .wireEraseChipAlt s = .next t ∧ t.response.code = .ok ∧ t.env.dev.wip = s.env.dev.wel ∧
      ∀ x, t.env.dev.mem.read x = if s.env.dev.wel then 0xFF else s.env.dev.mem.read x) ∧
    (∃ t, exec (.wireEraseBlock a) s = .next t ∧ t.response.code = .ok ∧ t.env.dev.wip = s.env.dev.wel ∧
      ∀ x, t.env.dev.mem.read x =
        if s.env.dev.wel = true ∧ x / s.env.dev.block.val = a.toNat % s.env.dev.size.val / s.env.dev.block.val then 0xFF
        else s.env.dev.mem.read x) ∧
    (s.FlashCanonical → data.length ≤ s.env.dev.page.val →
      ∃ t, exec (.wireProgramPage a data) s = .next t ∧ t.response.code = .ok ∧ t.env.dev.wip = s.env.dev.wel ∧
        (∀ (i : Nat) (b : Byte), data[i]? = some b → s.env.dev.programAddr a.toNat i < s.env.dev.size.val →
          t.env.dev.mem.read (s.env.dev.programAddr a.toNat i) =
            if s.env.dev.wel then s.env.dev.mem.read (s.env.dev.programAddr a.toNat i) &&& b
            else s.env.dev.mem.read (s.env.dev.programAddr a.toNat i)) ∧
        (∀ x, s.env.dev.size.val ≤ x ∨ (∀ i < data.length, s.env.dev.programAddr a.toNat i ≠ x) →
          t.env.dev.mem.read x = s.env.dev.mem.read x))

/-- What the model does with the commands the core never emits; both clauses are the model's (log 2). While the transport is the
core's alone nobody sends one (30_encoding.md R114, 60_exceptions.md R250), and the step has no effect: that is read from the two
rules by inference, and that the model takes such a step at all is its choice, where 93_implementation_defined.md U12 says
`refuse`. On a transport that is not the core's alone the core takes no part, and the device's contents, latch and busy bit stay,
but for `WRITE_DISABLE` alone, which clears the latch: the effect is read from 20_memory.md R90 and R95, and that such states
exist is the model's choice. -/
def Obligations.UnemittedCommandsLeaveTheCore : Prop :=
  ∀ (i : Instr) (s : State) (rest : List Byte),
    i = .wireWriteDisable rest ∨ i = .wireWriteStatus rest ∨ i = .wireReadDataFast rest ∨
      i = .wireReadDataFastDual rest ∨ i = .wireEraseSector rest ∨ i = .wirePowerDown rest ∨ i = .wirePowerUp rest →
    s.seq = .idle →
    (s.exclusive = true → exec i s = .next s) ∧
    (s.exclusive = false →
      ∃ t, exec i s = .next t ∧ CoreKept s t ∧ FlashKept s t ∧ t.response = s.response ∧ t.trace = s.trace ∧
        t.cs = s.cs ∧ t.env.dev.wip = s.env.dev.wip ∧
        t.env.dev.wel =
          (if i = .wireWriteDisable [] ∧ s.env.kind = .simFlash then false else s.env.dev.wel))

/-- The transport is the core's alone for its entire lifetime (60_exceptions.md R250): no step gives that up, and a step changes
the device only by transport calls of the core, which are on its trace, or by the end of the device's own cycle (20_memory.md
R95), whatever the inputs are. -/
def Obligations.OnlyTheCoreReachesTheDevice : Prop :=
  ∀ s t : State, s.exclusive = true → step s = .next t →
    t.exclusive = true ∧
      (t.env.dev = s.env.dev ∨ (∃ rest, s.inputs = .complete :: rest ∧ t.env.dev = s.env.dev.complete) ∨
        ∃ e es, t.trace = s.trace ++ e :: es)

/-! ## Frames and whole-machine rules -/

/-- The frame of every instruction that is no erase and no program: every byte of the flash reads as before (20_memory.md R63,
R72), whether the instruction responds or hangs. For the host operations this is R63. For the wire rows it rests on what the
reference device does (20_memory.md R90, R95), and that the seven the core never emits, `ERASE_SECTOR` and `WRITE_STATUS` among
them, change no byte is read from R95 and is the model's (log 2). -/
def Obligations.OtherInstructionsKeepTheFlash : Prop :=
  ∀ (i : Instr) (s t : State), mayChangeFlash i = false → exec i s = .next t → FlashKept s t

/-- The frame of the erases and of `program` at the host interface, on any environment: with no device behind the transport the
flash keeps every byte; on a device an operation that answers `OK` changes only the bytes of its block or of its page, and one
that answers another code but `TransportError` changes none (20_memory.md R93, R94; 60_exceptions.md R240, R241). -/
def Obligations.MutatingOperationsStoreWhereTheyShould : Prop :=
  ∀ (i : Instr) (s t : State), ((∃ a, i = .eraseBlock a) ∨ i = .eraseAll ∨ ∃ a buf, i = .program a buf) →
    s.FlashCanonical → exec i s = .next t → t.seq = .idle →
    (s.env.kind = .arbitrary → FlashKept s t) ∧
    (t.response.code ≠ .ok → t.response.code ≠ .transportError → FlashKept s t) ∧
    (t.response.code = .ok → s.env.kind = .simFlash →
      (∀ a, i = .eraseBlock a → ∀ x, s.env.dev.inBlock (a.toNat % 2 ^ 24) x = false →
        t.env.dev.mem.read x = s.env.dev.mem.read x) ∧
      (∀ a buf, i = .program a buf → ∀ x, (∀ j < buf.length, s.env.dev.programAddr (a.toNat % 2 ^ 24) j ≠ x) →
        t.env.dev.mem.read x = s.env.dev.mem.read x))

/-- Every operation makes at most eleven transport calls, after those that were made before (43_operations.md R201, 20_memory.md
R76). -/
def Obligations.AtMostElevenCalls : Prop :=
  ∀ (i : Instr) (s t : State), exec i s = .next t → ∃ es, t.trace = s.trace ++ es ∧ es.length ≤ 11

/-- The phases of a host operation that answers `OK` (43_operations.md R201). -/
def Obligations.PhasesOfASuccessfulOperation : Prop :=
  ∀ (i : Instr) (s t : State), isHostOp i = true → exec i s = .next t → t.seq = .idle → t.response.code = .ok →
    t.phases =
      match i with
      | .configure _ _ _ => [.idle, .check, .respond, .idle]
      | .eraseBlock _ | .eraseAll | .program _ _ => [.idle, .check, .gateStatus, .gateWren, .cmd, .respond, .idle]
      | _ => [.idle, .check, .cmd, .respond, .idle]

/-- No history (10_state.md R45): with the same mode, geometry, parameter, environment and free values an operation makes the same
transport calls and gives the same response, whatever ran before. -/
def Obligations.NoHistoryIsKept : Prop :=
  ∀ (i : Instr) (s1 s2 t1 t2 : State), isHostOp i = true →
    s1.mode = s2.mode → s1.geom = s2.geom → s1.eraseChip = s2.eraseChip → s1.env = s2.env → s1.draws = s2.draws →
    exec i s1 = .next t1 → exec i s2 = .next t2 →
    t1.seq = t2.seq ∧ (t1.seq = .idle → t1.response = t2.response) ∧
      ∃ es, t1.trace = s1.trace ++ es ∧ t2.trace = s2.trace ++ es

/-- In an environment nothing is known of, the counts are the scripted ones, and so are the bytes as far as the count reaches.
That the environment's answers are held in a list is the model's choice (log 9); the counts and the buffer are those of 00_scope.md
R20 and 60_exceptions.md R248, R249. -/
def Obligations.ScriptedAnswersAreTaken : Prop :=
  ∀ (s : State) (c k : Nat) (bs sent : List Byte) (rest : List Answer), s.env.kind = .arbitrary →
    s.env.script = .returns c bs :: rest →
    (∃ t, transportWrite sent s = .done c t ∧ t.trace = s.trace ++ [.wrote sent c] ∧ t.env.script = rest) ∧
    (∃ rs t, transportRead k s = .done (c, rs) t ∧ t.trace = s.trace ++ [.readBack k c rs] ∧ t.env.script = rest ∧
      rs.length = k ∧ ∀ i b, i < k → i < c → bs[i]? = some b → rs[i]? = some b)

/-! ## Invariants of every step -/

/-- The transaction discipline (43_operations.md R191, 10_state.md R46, 30_encoding.md R100, R106, R110): every transaction is whole,
carries the header of an emitted command and the payload phase of that command, and chip-select is deasserted in `IDLE`. -/
def Obligations.StepKeepsTransactionDiscipline : Prop :=
  ∀ s t : State, s.BusInv → step s = .next t → t.BusInv

/-- The geometry invariant (10_state.md R32, R33, R34). -/
def Obligations.StepKeepsGeometry : Prop :=
  ∀ s t : State, s.GeometryInv → step s = .next t → t.GeometryInv

/-- The flash array stays in canonical form. The form is the model's (log 7). -/
def Obligations.StepKeepsFlashCanonical : Prop :=
  ∀ s t : State, s.FlashCanonical → step s = .next t → t.FlashCanonical

/-- The state after reset (10_state.md R50, 70_reset_and_hazards.md R260) with the latches of 20_memory.md R88 and the parameter of
00_scope.md R11; the invariants hold in it (10_state.md R46, R50). The transport is the core's alone (60_exceptions.md
R250). The canonical form and the geometry's values are the model's (logs 5 and 7). -/
def Obligations.ResetStateOfTheCore : Prop :=
  State.reset.mode = .unconfigured ∧ State.reset.seq = .idle ∧ State.reset.cs = false ∧
    State.reset.env.dev.wel = false ∧ State.reset.env.dev.wip = false ∧ State.reset.eraseChip = .c7 ∧
    State.reset.exclusive = true ∧ State.reset.BusInv ∧ State.reset.GeometryInv ∧ State.reset.FlashCanonical
end

