-- ==== Sys2Proof/Laws/Decode.lean ====
section
/-! SUPPORT. Small facts of the decoders: what each opcode of the table decodes to, and that three address bytes give their
address back. -/

namespace Sys2Proof

@[simp] theorem decodeOpcode_06 : decodeOpcode 0x06#8 = .writeEnable := by decide
@[simp] theorem decodeOpcode_04 : decodeOpcode 0x04#8 = .writeDisable := by decide
@[simp] theorem decodeOpcode_05 : decodeOpcode 0x05#8 = .readStatus := by decide
@[simp] theorem decodeOpcode_01 : decodeOpcode 0x01#8 = .writeStatus := by decide
@[simp] theorem decodeOpcode_03 : decodeOpcode 0x03#8 = .readData := by decide
@[simp] theorem decodeOpcode_0B : decodeOpcode 0x0B#8 = .readDataFast := by decide
@[simp] theorem decodeOpcode_3B : decodeOpcode 0x3B#8 = .readDataFastDual := by decide
@[simp] theorem decodeOpcode_02 : decodeOpcode 0x02#8 = .programPage := by decide
@[simp] theorem decodeOpcode_20 : decodeOpcode 0x20#8 = .eraseSector := by decide
@[simp] theorem decodeOpcode_D8 : decodeOpcode 0xD8#8 = .eraseBlock := by decide
@[simp] theorem decodeOpcode_C7 : decodeOpcode 0xC7#8 = .eraseChip := by decide
@[simp] theorem decodeOpcode_60 : decodeOpcode 0x60#8 = .eraseChip := by decide
@[simp] theorem decodeOpcode_B9 : decodeOpcode 0xB9#8 = .powerDown := by decide
@[simp] theorem decodeOpcode_AB : decodeOpcode 0xAB#8 = .powerUp := by decide
@[simp] theorem decodeOpcode_9F : decodeOpcode 0x9F#8 = .readJedecId := by decide

/-- The address a `W4` header carries is the one its three bytes were taken from. -/
@[simp] theorem joinAddr_of_bytes (a : Addr24) :
    joinAddr (a.extractLsb' 16 8) (a.extractLsb' 8 8) (a.extractLsb' 0 8) = a := by
  unfold joinAddr
  apply BitVec.eq_of_getLsbD_eq
  intro i hi
  simp only [BitVec.getLsbD_append, BitVec.getLsbD_extractLsb']
  by_cases h8 : i < 8
  · simp [h8]
  · by_cases h16 : i - 8 < 8
    · simp [h8, h16, show 8 + (i - 8) = i by omega]
    · simp [h8, h16, show i - 8 - 8 < 8 by omega, show 16 + (i - 8 - 8) = i by omega]

/-- Where each bit of a joined address comes from. -/
theorem joinAddr_getLsbD (h1 h2 h3 : Byte) (i : Nat) :
    (joinAddr h1 h2 h3).getLsbD i =
      if i < 8 then h3.getLsbD i else if i - 8 < 8 then h2.getLsbD (i - 8) else h1.getLsbD (i - 8 - 8) := by
  show ((h1 ++ h2 ++ h3 : BitVec (8 + 8 + 8))).getLsbD i = _
  rw [BitVec.getLsbD_append, BitVec.getLsbD_append]

/-- The bytes of an address are read back from the address they were joined to. -/
@[simp] theorem addrBytes24_joinAddr (h1 h2 h3 : Byte) : addrBytes24 (joinAddr h1 h2 h3) = [h1, h2, h3] := by
  have e1 : (joinAddr h1 h2 h3).extractLsb' 16 8 = h1 := by
    apply BitVec.eq_of_getLsbD_eq
    intro i hi
    simp [joinAddr_getLsbD, hi, show ¬ 16 + i < 8 by omega, show ¬ 16 + i - 8 < 8 by omega,
      show 16 + i - 8 - 8 = i by omega]
  have e2 : (joinAddr h1 h2 h3).extractLsb' 8 8 = h2 := by
    apply BitVec.eq_of_getLsbD_eq
    intro i hi
    simp [joinAddr_getLsbD, hi]
  have e3 : (joinAddr h1 h2 h3).extractLsb' 0 8 = h3 := by
    apply BitVec.eq_of_getLsbD_eq
    intro i hi
    simp [joinAddr_getLsbD, hi]
  rw [addrBytes24, e1, e2, e3]

@[simp] theorem addrBytes24_length (a : Addr24) : (addrBytes24 a).length = 3 := rfl

@[simp] theorem encodeHeader_length (ec : EraseChipOpcode) (c : Command) (a : Addr24) :
    (encodeHeader ec c a).length = if c.hasAddr then 4 else 1 := by
  cases c <;> rfl

end Sys2Proof
end

