-- ==== Sys2Proof/Laws/Memory.lean ====
section
/-! SUPPORT. The flash array: reading what was written, and that every operation keeps the canonical form. -/

namespace Sys2Proof.Machine.Memory

@[simp] theorem read_nil (a : Nat) : Memory.read [] a = Memory.erased := rfl

theorem read_cons (x : Nat) (v : Byte) (m : Memory) (a : Nat) :
    Memory.read ((x, v) :: m) a = if x = a then v else m.read a := rfl

/-- An address below every listed one is not listed. -/
theorem read_of_lt {m : Memory} {a : Nat} (h : ∀ c ∈ m, a < c.1) : m.read a = erased := by
  induction m with
  | nil => rfl
  | cons c m ih =>
    obtain ⟨x, v⟩ := c
    have hx : a < x := h (x, v) (by simp)
    rw [read_cons, if_neg (by omega)]
    exact ih fun c hc => h c (by simp [hc])

theorem read_consCell {m : Memory} {a : Nat} (b : Byte) (x : Nat) (h : ∀ c ∈ m, a < c.1) :
    (Memory.cons a b m).read x = if x = a then b else m.read x := by
  unfold Memory.cons
  split
  · next hb =>
    split
    · next hx => subst hx; rw [hb]; exact read_of_lt h
    · rfl
  · rw [read_cons]; simp only [eq_comm]

theorem wf_nil : Memory.wf [] := ⟨List.Pairwise.nil, by simp⟩

theorem wf_consCell {m : Memory} {a : Nat} {b : Byte} (hm : m.wf) (h : ∀ c ∈ m, a < c.1) :
    (Memory.cons a b m).wf := by
  unfold Memory.cons
  split
  · exact hm
  · next hb => exact ⟨List.pairwise_cons.2 ⟨h, hm.1⟩, by simpa using ⟨hb, fun x y hc => hm.2 _ hc⟩⟩

/-- The tail of a canonical array, and what lies in front of it. -/
theorem wf_cons_inv {x : Nat} {v : Byte} {m : Memory} (h : Memory.wf ((x, v) :: m)) :
    v ≠ erased ∧ (∀ c ∈ m, x < c.1) ∧ m.wf := by
  obtain ⟨hp, hv⟩ := h
  rw [List.pairwise_cons] at hp
  exact ⟨hv (x, v) (by simp), hp.1, hp.2, fun c hc => hv c (by simp [hc])⟩

/-- A read after a write: the byte written at its address, the byte that was there elsewhere. -/
theorem read_write {m : Memory} (hm : m.wf) (a : Nat) (b : Byte) (x : Nat) :
    (m.write a b).read x = if x = a then b else m.read x := by
  induction m with
  | nil => exact read_consCell b x (by simp)
  | cons c m ih =>
    obtain ⟨y, v⟩ := c
    obtain ⟨hv, hlt, hm'⟩ := wf_cons_inv hm
    unfold Memory.write
    split
    · next h =>
      exact read_consCell b x (by
        intro c hc
        rcases List.mem_cons.1 hc with rfl | hc
        · exact h
        · exact lt_trans h (hlt c hc))
    · split
      · next h =>
        subst h
        rw [read_consCell b x hlt, read_cons]
        by_cases hx : x = a
        · simp [hx]
        · rw [if_neg hx, if_neg hx, if_neg (Ne.symm hx)]
      · next h1 h2 =>
        rw [read_cons, read_cons, ih hm']
        by_cases hy : y = x
        · subst hy; rw [if_pos rfl, if_pos rfl, if_neg (Ne.symm h2)]
        · rw [if_neg hy, if_neg hy]

theorem mem_write {m : Memory} {a : Nat} {b : Byte} {c : Host.Cell} (h : c ∈ m.write a b) : c.1 = a ∨ c ∈ m := by
  induction m with
  | nil => unfold Memory.write Memory.cons at h; split at h <;> simp_all
  | cons d m ih =>
    obtain ⟨y, v⟩ := d
    unfold Memory.write Memory.cons at h
    split at h
    · split at h <;> aesop
    · split at h
      · split at h <;> aesop
      · rcases List.mem_cons.1 h with rfl | h
        · simp
        · rcases ih h with h | h <;> simp [h]

/-- A write keeps the canonical form. -/
theorem wf_write {m : Memory} (hm : m.wf) (a : Nat) (b : Byte) : (m.write a b).wf := by
  induction m with
  | nil => exact wf_consCell wf_nil (by simp)
  | cons c m ih =>
    obtain ⟨y, v⟩ := c
    obtain ⟨hv, hlt, hm'⟩ := wf_cons_inv hm
    unfold Memory.write
    split
    · next h =>
      exact wf_consCell hm (by
        intro c hc
        rcases List.mem_cons.1 hc with rfl | hc
        · exact h
        · exact lt_trans h (hlt c hc))
    · split
      · next h => exact wf_consCell hm' (by rw [h]; exact hlt)
      · next h1 h2 =>
        have hw := ih hm'
        refine ⟨List.pairwise_cons.2 ⟨fun c hc => ?_, hw.1⟩, fun c hc => ?_⟩
        · rcases mem_write hc with h | h
          · simp only []; omega
          · exact hlt c h
        · rcases List.mem_cons.1 hc with rfl | hc
          · exact hv
          · exact hw.2 c hc

/-- An erase keeps the canonical form. -/
theorem wf_erase {m : Memory} (hm : m.wf) (p : Nat → Bool) : (m.erase p).wf :=
  ⟨hm.1.filter _, fun c hc => hm.2 c (List.mem_filter.1 hc).1⟩

/-- A read after an erase: `0xFF` inside, the byte that was there outside. -/
theorem read_erase (m : Memory) (p : Nat → Bool) (x : Nat) :
    (m.erase p).read x = if p x then erased else m.read x := by
  induction m with
  | nil => simp [Memory.erase]
  | cons c m ih =>
    obtain ⟨y, v⟩ := c
    unfold Memory.erase at ih ⊢
    by_cases hy : p y
    · rw [List.filter_cons_of_neg (by simp [hy]), ih, read_cons]
      by_cases hx : y = x
      · subst hx; simp [hy]
      · rw [if_neg hx]
    · rw [List.filter_cons_of_pos (by simp [hy]), read_cons, read_cons, ih]
      by_cases hx : y = x
      · subst hx; simp [hy]
      · simp [hx]

end Sys2Proof.Machine.Memory
end

