-- ==== Sys2Proof/Laws/State.lean ====
section
/-! SUPPORT. One lemma per field per update of the state, so that no later proof unfolds a record update. -/

namespace Sys2Proof.Machine

section Record
variable (s : State) (c : TransportCall) (a : Answer)

@[simp] theorem State.record_mode : (s.record c a).mode = s.mode := rfl
@[simp] theorem State.record_geom : (s.record c a).geom = s.geom := rfl
@[simp] theorem State.record_seq : (s.record c a).seq = s.seq := rfl
@[simp] theorem State.record_latch : (s.record c a).latch = s.latch := rfl
@[simp] theorem State.record_response : (s.record c a).response = s.response := rfl
@[simp] theorem State.record_cs : (s.record c a).cs = s.cs := rfl
@[simp] theorem State.record_trace : (s.record c a).trace = s.trace ++ [{ call := c, answer := a }] := rfl
@[simp] theorem State.record_eraseChip : (s.record c a).eraseChip = s.eraseChip := rfl
@[simp] theorem State.record_exclusive : (s.record c a).exclusive = s.exclusive := rfl
@[simp] theorem State.record_env : (s.record c a).env = s.env := rfl
@[simp] theorem State.record_inputs : (s.record c a).inputs = s.inputs := rfl
@[simp] theorem State.record_phases : (s.record c a).phases = s.phases := rfl
@[simp] theorem State.record_draws : (s.record c a).draws = s.draws := rfl

end Record

section Enter
variable (s : State) (p : Phase)

@[simp] theorem State.enter_mode : (s.enter p).mode = s.mode := rfl
@[simp] theorem State.enter_geom : (s.enter p).geom = s.geom := rfl
@[simp] theorem State.enter_seq : (s.enter p).seq = p := rfl
@[simp] theorem State.enter_latch : (s.enter p).latch = s.latch := rfl
@[simp] theorem State.enter_response : (s.enter p).response = s.response := rfl
@[simp] theorem State.enter_cs : (s.enter p).cs = s.cs := rfl
@[simp] theorem State.enter_trace : (s.enter p).trace = s.trace := rfl
@[simp] theorem State.enter_eraseChip : (s.enter p).eraseChip = s.eraseChip := rfl
@[simp] theorem State.enter_exclusive : (s.enter p).exclusive = s.exclusive := rfl
@[simp] theorem State.enter_env : (s.enter p).env = s.env := rfl
@[simp] theorem State.enter_inputs : (s.enter p).inputs = s.inputs := rfl
@[simp] theorem State.enter_phases : (s.enter p).phases = s.phases ++ [p] := rfl
@[simp] theorem State.enter_draws : (s.enter p).draws = s.draws := rfl

end Enter

section Tick
variable (s : State)

@[simp] theorem State.tick_mode : s.tick.mode = s.mode := rfl
@[simp] theorem State.tick_geom : s.tick.geom = s.geom := rfl
@[simp] theorem State.tick_seq : s.tick.seq = s.seq := rfl
@[simp] theorem State.tick_latch : s.tick.latch = s.latch := rfl
@[simp] theorem State.tick_response : s.tick.response = s.response := rfl
@[simp] theorem State.tick_cs : s.tick.cs = s.cs := rfl
@[simp] theorem State.tick_trace : s.tick.trace = s.trace := rfl
@[simp] theorem State.tick_eraseChip : s.tick.eraseChip = s.eraseChip := rfl
@[simp] theorem State.tick_exclusive : s.tick.exclusive = s.exclusive := rfl
@[simp] theorem State.tick_env : s.tick.env = s.env := rfl
@[simp] theorem State.tick_inputs : s.tick.inputs = s.inputs := rfl
@[simp] theorem State.tick_phases : s.tick.phases = s.phases := rfl
@[simp] theorem State.tick_draws : s.tick.draws = s.draws + 1 := rfl

end Tick

section WithDevice
variable (s : State) (d : SimFlash)

@[simp] theorem State.withDevice_mode : (s.withDevice d).mode = s.mode := rfl
@[simp] theorem State.withDevice_geom : (s.withDevice d).geom = s.geom := rfl
@[simp] theorem State.withDevice_seq : (s.withDevice d).seq = s.seq := rfl
@[simp] theorem State.withDevice_latch : (s.withDevice d).latch = s.latch := rfl
@[simp] theorem State.withDevice_response : (s.withDevice d).response = s.response := rfl
@[simp] theorem State.withDevice_cs : (s.withDevice d).cs = s.cs := rfl
@[simp] theorem State.withDevice_trace : (s.withDevice d).trace = s.trace := rfl
@[simp] theorem State.withDevice_eraseChip : (s.withDevice d).eraseChip = s.eraseChip := rfl
@[simp] theorem State.withDevice_exclusive : (s.withDevice d).exclusive = s.exclusive := rfl
@[simp] theorem State.withDevice_kind : (s.withDevice d).env.kind = s.env.kind := rfl
@[simp] theorem State.withDevice_script : (s.withDevice d).env.script = s.env.script := rfl
@[simp] theorem State.withDevice_completions : (s.withDevice d).env.completions = s.env.completions := rfl
@[simp] theorem State.withDevice_dev : (s.withDevice d).env.dev = d := rfl
@[simp] theorem State.withDevice_inputs : (s.withDevice d).inputs = s.inputs := rfl
@[simp] theorem State.withDevice_phases : (s.withDevice d).phases = s.phases := rfl
@[simp] theorem State.withDevice_draws : (s.withDevice d).draws = s.draws := rfl

end WithDevice

section SetGeometry
variable (s : State) (g : Geometry)

@[simp] theorem State.setGeometry_mode : (s.setGeometry g).mode = .ready := rfl
@[simp] theorem State.setGeometry_geom : (s.setGeometry g).geom = g := rfl
@[simp] theorem State.setGeometry_seq : (s.setGeometry g).seq = s.seq := rfl
@[simp] theorem State.setGeometry_latch : (s.setGeometry g).latch = s.latch := rfl
@[simp] theorem State.setGeometry_response : (s.setGeometry g).response = s.response := rfl
@[simp] theorem State.setGeometry_cs : (s.setGeometry g).cs = s.cs := rfl
@[simp] theorem State.setGeometry_trace : (s.setGeometry g).trace = s.trace := rfl
@[simp] theorem State.setGeometry_eraseChip : (s.setGeometry g).eraseChip = s.eraseChip := rfl
@[simp] theorem State.setGeometry_exclusive : (s.setGeometry g).exclusive = s.exclusive := rfl
@[simp] theorem State.setGeometry_env : (s.setGeometry g).env = s.env := rfl
@[simp] theorem State.setGeometry_inputs : (s.setGeometry g).inputs = s.inputs := rfl
@[simp] theorem State.setGeometry_phases : (s.setGeometry g).phases = s.phases := rfl
@[simp] theorem State.setGeometry_draws : (s.setGeometry g).draws = s.draws := rfl

end SetGeometry

section Respond
variable (s : State) (r : Reply)

@[simp] theorem State.respond_mode : (s.respond r).mode = s.mode := rfl
@[simp] theorem State.respond_geom : (s.respond r).geom = s.geom := rfl
@[simp] theorem State.respond_seq : (s.respond r).seq = .idle := rfl
@[simp] theorem State.respond_latch : (s.respond r).latch = s.latch := rfl
@[simp] theorem State.respond_response : (s.respond r).response = r.response s.draws := rfl
@[simp] theorem State.respond_cs : (s.respond r).cs = s.cs := rfl
@[simp] theorem State.respond_trace : (s.respond r).trace = s.trace := rfl
@[simp] theorem State.respond_eraseChip : (s.respond r).eraseChip = s.eraseChip := rfl
@[simp] theorem State.respond_exclusive : (s.respond r).exclusive = s.exclusive := rfl
@[simp] theorem State.respond_env : (s.respond r).env = s.env := rfl
@[simp] theorem State.respond_inputs : (s.respond r).inputs = s.inputs := rfl
@[simp] theorem State.respond_phases : (s.respond r).phases = s.phases ++ [.respond] ++ [.idle] := rfl
@[simp] theorem State.respond_draws : (s.respond r).draws = s.draws + 1 := rfl

@[simp] theorem Reply.response_code (n : Nat) : (r.response n).code = r.code := rfl
@[simp] theorem Reply.response_busy (n : Nat) : (r.response n).busy = r.busy.getD (Config.freeBool n) := rfl
@[simp] theorem Reply.response_status (n : Nat) : (r.response n).status = r.status.getD (Config.freeByte n 0) := rfl
@[simp] theorem Reply.response_id (n : Nat) : (r.response n).id = r.id.getD (Config.freeId n) := rfl
@[simp] theorem Reply.response_rbuf (n : Nat) : (r.response n).rbuf = r.rbuf.getD (Config.freeBytes n) := rfl

end Respond

section Accept
variable (s : State) (w : Fetched) (rest : List Input)

@[simp] theorem State.accept_mode : (s.accept w rest).mode = s.mode := by cases w <;> rfl
@[simp] theorem State.accept_geom : (s.accept w rest).geom = s.geom := by cases w <;> rfl
@[simp] theorem State.accept_seq : (s.accept w rest).seq = s.seq := by cases w <;> rfl
@[simp] theorem State.accept_response : (s.accept w rest).response = s.response := by cases w <;> rfl
@[simp] theorem State.accept_cs : (s.accept w rest).cs = s.cs := by cases w <;> rfl
@[simp] theorem State.accept_trace : (s.accept w rest).trace = s.trace := by cases w <;> rfl
@[simp] theorem State.accept_eraseChip : (s.accept w rest).eraseChip = s.eraseChip := by cases w <;> rfl
@[simp] theorem State.accept_exclusive : (s.accept w rest).exclusive = s.exclusive := by cases w <;> rfl
@[simp] theorem State.accept_env : (s.accept w rest).env = s.env := by cases w <;> rfl
@[simp] theorem State.accept_inputs : (s.accept w rest).inputs = rest := by cases w <;> rfl
@[simp] theorem State.accept_phases : (s.accept w rest).phases = s.phases := by cases w <;> rfl
@[simp] theorem State.accept_draws : (s.accept w rest).draws = s.draws := by cases w <;> rfl
@[simp] theorem State.accept_latch_host (r : Request) : (s.accept (.host r) rest).latch = r := rfl
@[simp] theorem State.accept_latch_wire (f : Frame) : (s.accept (.wire f) rest).latch = s.latch := rfl

end Accept

section BetweenOperations
variable (s : State) (rest : List Input)

@[simp] theorem State.ignoreFrame_mode : (s.ignoreFrame rest).mode = s.mode := rfl
@[simp] theorem State.ignoreFrame_geom : (s.ignoreFrame rest).geom = s.geom := rfl
@[simp] theorem State.ignoreFrame_seq : (s.ignoreFrame rest).seq = s.seq := rfl
@[simp] theorem State.ignoreFrame_cs : (s.ignoreFrame rest).cs = s.cs := rfl
@[simp] theorem State.ignoreFrame_trace : (s.ignoreFrame rest).trace = s.trace := rfl
@[simp] theorem State.ignoreFrame_exclusive : (s.ignoreFrame rest).exclusive = s.exclusive := rfl
@[simp] theorem State.ignoreFrame_env : (s.ignoreFrame rest).env = s.env := rfl
@[simp] theorem State.ignoreFrame_inputs : (s.ignoreFrame rest).inputs = rest := rfl

@[simp] theorem State.resetEvent_mode : s.resetEvent.mode = .unconfigured := rfl
@[simp] theorem State.resetEvent_seq : s.resetEvent.seq = .idle := rfl
@[simp] theorem State.resetEvent_cs : s.resetEvent.cs = false := rfl
@[simp] theorem State.resetEvent_trace : s.resetEvent.trace = s.trace := rfl
@[simp] theorem State.resetEvent_eraseChip : s.resetEvent.eraseChip = s.eraseChip := rfl
@[simp] theorem State.resetEvent_exclusive : s.resetEvent.exclusive = s.exclusive := rfl
@[simp] theorem State.resetEvent_env : s.resetEvent.env = s.env := rfl
@[simp] theorem State.resetEvent_inputs : s.resetEvent.inputs = s.inputs := rfl

end BetweenOperations

section OnDevice
variable (s : State) (f : SimFlash → SimFlash)

@[simp] theorem State.onDevice_mode : (s.onDevice f).mode = s.mode := by unfold State.onDevice; split <;> rfl
@[simp] theorem State.onDevice_geom : (s.onDevice f).geom = s.geom := by unfold State.onDevice; split <;> rfl
@[simp] theorem State.onDevice_seq : (s.onDevice f).seq = s.seq := by unfold State.onDevice; split <;> rfl
@[simp] theorem State.onDevice_latch : (s.onDevice f).latch = s.latch := by unfold State.onDevice; split <;> rfl
@[simp] theorem State.onDevice_response : (s.onDevice f).response = s.response := by
  unfold State.onDevice; split <;> rfl
@[simp] theorem State.onDevice_cs : (s.onDevice f).cs = s.cs := by unfold State.onDevice; split <;> rfl
@[simp] theorem State.onDevice_trace : (s.onDevice f).trace = s.trace := by unfold State.onDevice; split <;> rfl
@[simp] theorem State.onDevice_eraseChip : (s.onDevice f).eraseChip = s.eraseChip := by
  unfold State.onDevice; split <;> rfl
@[simp] theorem State.onDevice_exclusive : (s.onDevice f).exclusive = s.exclusive := by
  unfold State.onDevice; split <;> rfl
@[simp] theorem State.onDevice_kind : (s.onDevice f).env.kind = s.env.kind := by
  unfold State.onDevice; split <;> rfl
@[simp] theorem State.onDevice_script : (s.onDevice f).env.script = s.env.script := by
  unfold State.onDevice; split <;> rfl
@[simp] theorem State.onDevice_completions : (s.onDevice f).env.completions = s.env.completions := by
  unfold State.onDevice; split <;> rfl
@[simp] theorem State.onDevice_inputs : (s.onDevice f).inputs = s.inputs := by unfold State.onDevice; split <;> rfl
@[simp] theorem State.onDevice_phases : (s.onDevice f).phases = s.phases := by unfold State.onDevice; split <;> rfl
@[simp] theorem State.onDevice_draws : (s.onDevice f).draws = s.draws := by unfold State.onDevice; split <;> rfl

theorem State.onDevice_sim (h : s.env.kind = .simFlash) : s.onDevice f = s.withDevice (f s.env.dev) := by
  simp [State.onDevice, h]

theorem State.onDevice_arbitrary (h : s.env.kind = .arbitrary) : s.onDevice f = s := by
  simp [State.onDevice, h]

/-- The device after a change: changed where there is one, untouched otherwise. -/
theorem State.onDevice_dev :
    (s.onDevice f).env.dev = if s.env.kind = .simFlash then f s.env.dev else s.env.dev := by
  unfold State.onDevice; split <;> simp_all

end OnDevice

end Sys2Proof.Machine
end

