-- ==== Sys2Proof/Laws/Transport.lean ====
section
/-! SUPPORT. What the environment's choices and the four transport primitives can do, said once for each. -/

namespace Sys2Proof.Machine

/-! ## Reasoning about calls -/

/-- Whatever way the call ends: `P` of its value and state, or `H` of the state it hangs in. -/
def Call.Sat {α : Type} (c : Call α) (P : α → State → Prop) (H : State → Prop) : Prop :=
  match c with
  | .done a s => P a s
  | .hung s   => H s

/-- The call ends with a value, and `P` holds of it and of the state. -/
def Call.Ends {α : Type} (c : Call α) (P : α → State → Prop) : Prop :=
  match c with
  | .done a s => P a s
  | .hung _   => False

@[simp] theorem Call.sat_done {α : Type} (a : α) (s : State) (P : α → State → Prop) (H : State → Prop) :
    (Call.done a s).Sat P H ↔ P a s := Iff.rfl

@[simp] theorem Call.sat_hung {α : Type} (s : State) (P : α → State → Prop) (H : State → Prop) :
    (Call.hung s : Call α).Sat P H ↔ H s := Iff.rfl

@[simp] theorem Call.ends_done {α : Type} (a : α) (s : State) (P : α → State → Prop) :
    (Call.done a s).Ends P ↔ P a s := Iff.rfl

@[simp] theorem Call.bind_done {α β : Type} (a : α) (s : State) (k : α → State → Call β) :
    (Call.done a s).bind k = k a s := rfl

@[simp] theorem Call.bind_hung {α β : Type} (s : State) (k : α → State → Call β) :
    (Call.hung s : Call α).bind k = .hung s := rfl

theorem Call.bind_assoc {α β γ : Type} (c : Call α) (k : α → State → Call β) (l : β → State → Call γ) :
    (c.bind k).bind l = c.bind fun a s => (k a s).bind l := by
  cases c <;> rfl

theorem Call.Sat.bind {α β : Type} {c : Call α} {k : α → State → Call β} {P : α → State → Prop}
    {Q : β → State → Prop} {H : State → Prop} (hc : c.Sat P H) (hk : ∀ a s, P a s → (k a s).Sat Q H) :
    (c.bind k).Sat Q H := by
  cases c with
  | done a s => exact hk a s hc
  | hung s => exact hc

theorem Call.Ends.bind {α β : Type} {c : Call α} {k : α → State → Call β} {P : α → State → Prop}
    {Q : β → State → Prop} (hc : c.Ends P) (hk : ∀ a s, P a s → (k a s).Ends Q) : (c.bind k).Ends Q := by
  cases c with
  | done a s => exact hk a s hc
  | hung s => exact hc.elim

theorem Call.Sat.mono {α : Type} {c : Call α} {P Q : α → State → Prop} {H K : State → Prop} (hc : c.Sat P H)
    (hP : ∀ a s, P a s → Q a s) (hH : ∀ s, H s → K s) : c.Sat Q K := by
  cases c with
  | done a s => exact hP a s hc
  | hung s => exact hH s hc

theorem Call.Ends.mono {α : Type} {c : Call α} {P Q : α → State → Prop} (hc : c.Ends P)
    (hP : ∀ a s, P a s → Q a s) : c.Ends Q := by
  cases c with
  | done a s => exact hP a s hc
  | hung s => exact hc.elim

/-- A call that ends with a value does what every way it can end says. -/
theorem Call.Ends.and_sat {α : Type} {c : Call α} {P Q : α → State → Prop} {H : State → Prop} (hc : c.Ends P)
    (hs : c.Sat Q H) : c.Ends fun a s => P a s ∧ Q a s := by
  cases c with
  | done a s => exact ⟨hc, hs⟩
  | hung s => exact hc.elim

/-! ## What no transport call changes -/

/-- The core's registers and the parameters of the environment are those of `s`. -/
structure Kept (s t : State) : Prop where
  mode      : t.mode = s.mode
  geom      : t.geom = s.geom
  seq       : t.seq = s.seq
  latch     : t.latch = s.latch
  response  : t.response = s.response
  eraseChip : t.eraseChip = s.eraseChip
  exclusive : t.exclusive = s.exclusive
  inputs    : t.inputs = s.inputs
  phases    : t.phases = s.phases
  kind      : t.env.kind = s.env.kind
  size      : t.env.dev.size = s.env.dev.size
  page      : t.env.dev.page = s.env.dev.page
  block     : t.env.dev.block = s.env.dev.block
  ident     : t.env.dev.ident = s.env.dev.ident

theorem Kept.refl (s : State) : Kept s s := ⟨rfl, rfl, rfl, rfl, rfl, rfl, rfl, rfl, rfl, rfl, rfl, rfl, rfl, rfl⟩

theorem Kept.trans {s t u : State} (h : Kept s t) (k : Kept t u) : Kept s u :=
  ⟨k.mode.trans h.mode, k.geom.trans h.geom, k.seq.trans h.seq, k.latch.trans h.latch, k.response.trans h.response,
   k.eraseChip.trans h.eraseChip, k.exclusive.trans h.exclusive, k.inputs.trans h.inputs, k.phases.trans h.phases, k.kind.trans h.kind,
   k.size.trans h.size, k.page.trans h.page, k.block.trans h.block, k.ident.trans h.ident⟩

theorem Kept.record {s t : State} (h : Kept s t) (c : TransportCall) (a : Answer) : Kept s (t.record c a) := by
  obtain ⟨h1, h2, h3, h4, h5, h6, h7, h8, h9, h10, h11, h12, h13, h14⟩ := h
  exact ⟨h1, h2, h3, h4, h5, h6, h7, h8, h9, h10, h11, h12, h13, h14⟩

/-- The parameters of a device are those of another. -/
structure SameDevice (d e : SimFlash) : Prop where
  size  : e.size = d.size
  page  : e.page = d.page
  block : e.block = d.block
  ident : e.ident = d.ident

theorem Kept.onDevice (s : State) {f : SimFlash → SimFlash} (hf : SameDevice s.env.dev (f s.env.dev)) :
    Kept s (s.onDevice f) := by
  refine ⟨by simp, by simp, by simp, by simp, by simp, by simp, by simp, by simp, by simp, by simp, ?_, ?_, ?_, ?_⟩ <;>
    rw [State.onDevice_dev] <;> split <;> first | exact hf.size | exact hf.page | exact hf.block | exact hf.ident | rfl

/-! ## The environment's choices -/

/-- A choice changes the script and the draw counter only. -/
theorem State.choose_kept (s : State) (full : Nat) : Kept s (s.choose full).2 := by
  unfold State.choose
  split
  · exact ⟨rfl, rfl, rfl, rfl, rfl, rfl, rfl, rfl, rfl, rfl, rfl, rfl, rfl, rfl⟩
  · split
    · exact Kept.refl s
    · exact ⟨rfl, rfl, rfl, rfl, rfl, rfl, rfl, rfl, rfl, rfl, rfl, rfl, rfl, rfl⟩

@[simp] theorem State.choose_trace (s : State) (full : Nat) : (s.choose full).2.trace = s.trace := by
  unfold State.choose; split <;> (try split) <;> rfl

@[simp] theorem State.choose_cs (s : State) (full : Nat) : (s.choose full).2.cs = s.cs := by
  unfold State.choose; split <;> (try split) <;> rfl

@[simp] theorem State.choose_dev (s : State) (full : Nat) : (s.choose full).2.env.dev = s.env.dev := by
  unfold State.choose; split <;> (try split) <;> rfl

@[simp] theorem State.choose_kind (s : State) (full : Nat) : (s.choose full).2.env.kind = s.env.kind := by
  unfold State.choose; split <;> (try split) <;> rfl

@[simp] theorem State.choose_completions (s : State) (full : Nat) :
    (s.choose full).2.env.completions = s.env.completions := by
  unfold State.choose; split <;> (try split) <;> rfl

/-- A scripted answer is taken as it stands. -/
theorem State.choose_cons {s : State} {a : Answer} {rest : List Answer} (h : s.env.script = a :: rest) (full : Nat) :
    s.choose full = (a, { s with env := { s.env with script := rest } }) := by
  simp [State.choose, h]

/-- With nothing scripted the reference device transfers everything. -/
theorem State.choose_sim {s : State} (h : s.env.script = []) (hk : s.env.kind = .simFlash) (full : Nat) :
    s.choose full = (.returns full [], s) := by
  simp [State.choose, h, hk]

/-- Where calls return, the next answer is a return, and one call fewer is promised. -/
theorem State.CallsReturn.choose {s : State} {k : Nat} (h : s.CallsReturn (k + 1)) (full : Nat) :
    (∃ c bs, (s.choose full).1 = .returns c bs) ∧ (s.choose full).2.CallsReturn k := by
  obtain ⟨hs, hk⟩ := h
  unfold State.choose
  split
  · next a rest hr =>
    rw [hr] at hs hk
    constructor
    · cases a with
      | returns c bs => exact ⟨c, bs, rfl⟩
      | never => exact absurd rfl (hs .never (by simp))
    · refine ⟨fun b hb => hs b (by simp [hb]), fun ha => ?_⟩
      rcases hk ha with h | h
      · exact .inl (by simpa using h)
      · exact .inr h
  · next hr =>
    split
    · next hkind => exact ⟨⟨_, _, rfl⟩, by simp [hr], by simp [hkind]⟩
    · next hkind =>
      rcases hk hkind with h | h
      · simp [hr] at h
      · exact ⟨⟨Config.freeCount s.draws, [], by simp [drawnAnswer, h]⟩, by simp [hr], fun _ => .inr h⟩

theorem State.CallsReturn.of_env {s t : State} {k : Nat} (h : s.CallsReturn k) (hs : t.env.script = s.env.script)
    (hk : t.env.kind = s.env.kind) : t.CallsReturn k := by
  unfold State.CallsReturn at *; rwa [hs, hk]

theorem State.CallsReturn.le {s : State} {j k : Nat} (h : s.CallsReturn k) (hjk : j ≤ k) : s.CallsReturn j := by
  refine ⟨fun a ha => h.1 a ?_, fun hk => (h.2 hk).imp (fun hl => hjk.trans hl) id⟩
  exact (List.take_subset_take_left _ hjk) ha

/-! ## The device's side -/

theorem SimFlash.openTx_same (d : SimFlash) : SameDevice d d.openTx := ⟨rfl, rfl, rfl, rfl⟩

theorem SimFlash.complete_same (d : SimFlash) : SameDevice d d.complete := by
  unfold SimFlash.complete; split <;> exact ⟨rfl, rfl, rfl, rfl⟩

@[simp] theorem SimFlash.complete_mem (d : SimFlash) : d.complete.mem = d.mem := by
  unfold SimFlash.complete; split <;> rfl

theorem SimFlash.commit_same (d : SimFlash) (i : Instr) : SameDevice d (d.commit i) := by
  unfold SimFlash.commit SimFlash.startCycle
  split <;> (try split) <;> exact ⟨rfl, rfl, rfl, rfl⟩

theorem SimFlash.close_same (d : SimFlash) : SameDevice d d.close := by
  unfold SimFlash.close; split
  · exact d.commit_same _
  · exact ⟨rfl, rfl, rfl, rfl⟩

theorem SimFlash.receive_same (d : SimFlash) (bytes : List Byte) : SameDevice d (d.receive bytes) := by
  unfold SimFlash.receive
  have h := SimFlash.close_same { d.openTx with tx := bytes }
  exact ⟨h.size, h.page, h.block, h.ident⟩

/-- Storing a byte keeps the canonical form. -/
theorem SimFlash.store_wf {m : Memory} (d : SimFlash) (h : m.wf) (x : Nat) (b : Byte) : (d.store m x b).wf := by
  unfold SimFlash.store; split
  · exact Memory.wf_write h _ _
  · exact h

/-- What every byte reads after a byte was stored. -/
theorem SimFlash.store_read {m : Memory} (d : SimFlash) (h : m.wf) (x y : Nat) (b : Byte) :
    (d.store m x b).read y = if y = x ∧ x < d.size.val then m.read y &&& b else m.read y := by
  unfold SimFlash.store
  by_cases hx : x < d.size.val
  · simp only [hx, if_true, and_true, Memory.read_write h]
    split
    · next he => rw [he]
    · rfl
  · simp [hx]

/-- Programming keeps the canonical form. -/
theorem SimFlash.programFrom_wf (d : SimFlash) (a : Nat) (data : List Byte) :
    ∀ (m : Memory) (i : Nat), m.wf → (d.programFrom a m i data).wf := by
  induction data with
  | nil => exact fun m i h => h
  | cons b bs ih => exact fun m i h => ih _ _ (d.store_wf h _ _)

/-- A byte outside the addresses a program stores to, or behind the end of the array, reads as before. -/
theorem SimFlash.programFrom_read_other (d : SimFlash) (a x : Nat) (data : List Byte) :
    ∀ (m : Memory) (i : Nat), m.wf → (∀ j < data.length, d.programAddr a (i + j) = x → d.size.val ≤ x) →
      (d.programFrom a m i data).read x = m.read x := by
  induction data with
  | nil => exact fun m i _ _ => rfl
  | cons b bs ih =>
    intro m i hm hx
    have h0 : d.programAddr a i = x → d.size.val ≤ x := by simpa using hx 0 (by simp)
    rw [SimFlash.programFrom, ih _ _ (d.store_wf hm _ _) fun j hj => by
      have := hx (j + 1) (by simp; omega)
      rwa [show i + 1 + j = i + (j + 1) by omega]]
    rw [SimFlash.store_read _ hm, if_neg fun ⟨he, hl⟩ => by have := h0 he.symm; omega]

/-- What a transaction does keeps the canonical form. -/
theorem SimFlash.commit_wf {d : SimFlash} (h : d.mem.wf) (i : Instr) : (d.commit i).mem.wf := by
  unfold SimFlash.commit SimFlash.startCycle
  split <;> (try split) <;>
    first
    | exact h
    | exact SimFlash.programFrom_wf _ _ _ _ _ h
    | exact Memory.wf_erase h _
    | exact Memory.wf_erase h (fun _ => true)

theorem SimFlash.close_wf {d : SimFlash} (h : d.mem.wf) : d.close.mem.wf := by
  unfold SimFlash.close; split
  · exact SimFlash.commit_wf h _
  · exact h

theorem SimFlash.receive_wf {d : SimFlash} (h : d.mem.wf) (bytes : List Byte) : (d.receive bytes).mem.wf :=
  SimFlash.close_wf (d := { d.openTx with tx := bytes }) h

/-- A transaction opens: the cycle may have ended before it, and nothing is written or read yet. -/
theorem State.openDevice_dev (s : State) :
    (s.env.kind = .arbitrary ∧ s.openDevice = s) ∨
      (s.env.kind = .simFlash ∧
        (s.openDevice.env.dev = s.env.dev.openTx ∨ s.openDevice.env.dev = s.env.dev.complete.openTx)) := by
  unfold State.openDevice
  cases hk : s.env.kind with
  | arbitrary => exact .inl ⟨rfl, rfl⟩
  | simFlash =>
    refine .inr ⟨rfl, ?_⟩
    simp only [State.onDevice_dev]
    unfold State.maybeComplete
    split
    · split
      · next c rest h => cases c <;> simp [hk]
      · next h => by_cases hc : Config.freeCompletes s.draws = true <;> simp [hk, hc]
    · simp

theorem State.maybeComplete_kept (s : State) : Kept s s.maybeComplete := by
  have hc := s.env.dev.complete_same
  unfold State.maybeComplete
  split
  · split
    · next c rest h =>
      cases c
      · exact ⟨rfl, rfl, rfl, rfl, rfl, rfl, rfl, rfl, rfl, rfl, rfl, rfl, rfl, rfl⟩
      · exact ⟨rfl, rfl, rfl, rfl, rfl, rfl, rfl, rfl, rfl, rfl, hc.size, hc.page, hc.block, hc.ident⟩
    · next h =>
      by_cases hf : Config.freeCompletes s.draws = true
      · simp only [hf, if_true]
        exact ⟨rfl, rfl, rfl, rfl, rfl, rfl, rfl, rfl, rfl, rfl, hc.size, hc.page, hc.block, hc.ident⟩
      · simp only [hf]
        exact ⟨rfl, rfl, rfl, rfl, rfl, rfl, rfl, rfl, rfl, rfl, rfl, rfl, rfl, rfl⟩
  · exact Kept.refl s

theorem State.openDevice_kept (s : State) : Kept s s.openDevice := by
  unfold State.openDevice
  split
  · exact s.maybeComplete_kept.trans (Kept.onDevice _ (SimFlash.openTx_same _))
  · exact Kept.refl s

@[simp] theorem State.maybeComplete_trace (s : State) : s.maybeComplete.trace = s.trace := by
  unfold State.maybeComplete; split <;> (try split) <;> rfl

@[simp] theorem State.maybeComplete_script (s : State) : s.maybeComplete.env.script = s.env.script := by
  unfold State.maybeComplete; split <;> (try split) <;> rfl

@[simp] theorem State.openDevice_trace (s : State) : s.openDevice.trace = s.trace := by
  unfold State.openDevice; split <;> simp

@[simp] theorem State.openDevice_script (s : State) : s.openDevice.env.script = s.env.script := by
  unfold State.openDevice; split <;> simp

@[simp] theorem fillBuffer_length (k c : Nat) (r : List (Option Byte)) (n : Nat) : (fillBuffer k c r n).length = k := by
  simp [fillBuffer]

/-- A byte that was received stands in the buffer (00_scope.md R20). -/
theorem fillBuffer_received {k c i n : Nat} {r : List (Option Byte)} {b : Byte} (hk : i < k) (hc : i < c)
    (hr : r[i]? = some (some b)) : (fillBuffer k c r n)[i]? = some b := by
  simp [fillBuffer, hk, hc, hr]

/-- A buffer all of whose bytes were received is what was received. -/
theorem fillBuffer_full {k n : Nat} {bs : List Byte} (h : bs.length = k) : fillBuffer k k (bs.map some) n = bs := by
  apply List.ext_getElem?
  intro i
  by_cases hi : i < k
  · rw [fillBuffer_received hi hi (b := bs[i]'(by omega)) (by simp [h, hi]), List.getElem?_eq_getElem]
  · rw [List.getElem?_eq_none (by simp; omega), List.getElem?_eq_none (by omega)]

/-! ## The four primitives -/

/-- A transport call was made and answered, and nothing of the core changed but the trace. -/
structure Made (s t : State) (c : TransportCall) (a : Answer) : Prop where
  kept  : Kept s t
  trace : t.trace = s.trace ++ [{ call := c, answer := a }]

theorem Made.of_kept {s t : State} (h : Kept s t) (ht : t.trace = s.trace) (c : TransportCall) (a : Answer) :
    Made s (t.record c a) c a := ⟨h.record c a, by simp [ht]⟩

/-- A call hangs: it is on the trace without an answer, chip-select and the device stay as they were. -/
structure Hangs (s t : State) (c : TransportCall) : Prop extends Made s t c .never where
  cs  : t.cs = s.cs
  dev : t.env.dev = s.env.dev

theorem Hangs.of_choose (s : State) (full : Nat) (c : TransportCall) : Hangs s ((s.choose full).2.record c .never) c :=
  { Made.of_kept (s.choose_kept full) (s.choose_trace full) c .never with cs := by simp, dev := by simp }

/-- `T.begin()`: chip-select asserted; the device's transaction is empty, and its cycle may have ended before. -/
structure Begun (s t : State) : Prop extends Made s t .beginTx (.returns 0 []) where
  cs  : t.cs = true
  dev : (s.env.kind = .arbitrary ∧ t.env.dev = s.env.dev) ∨
    (s.env.kind = .simFlash ∧ (t.env.dev = s.env.dev.openTx ∨ t.env.dev = s.env.dev.complete.openTx))

/-- `T.write(bs)` answered with `n`: the device, if there is one, has taken the first `n` bytes. -/
structure Wrote (s t : State) (bs : List Byte) (n : Nat) : Prop extends Made s t (.write bs) (.returns n []) where
  cs  : t.cs = s.cs
  dev : (s.env.kind = .arbitrary ∧ t.env.dev = s.env.dev) ∨
    (s.env.kind = .simFlash ∧ n ≤ bs.length ∧ t.env.dev = { s.env.dev with tx := s.env.dev.tx ++ bs.take n })

/-- `T.read(k)` answered with `n` and `k` bytes: the device, if there is one, has sent `n`. -/
structure Got (s t : State) (k n : Nat) (rs : List Byte) : Prop extends Made s t (.read k) (.returns n rs) where
  cs     : t.cs = s.cs
  length : rs.length = k
  dev    : (s.env.kind = .arbitrary ∧ t.env.dev = s.env.dev) ∨
    (s.env.kind = .simFlash ∧ n ≤ k ∧ t.env.dev = { s.env.dev with rdn := s.env.dev.rdn + n } ∧
      ∀ i < n, ∀ b, s.env.dev.answerByte i = some b → rs[i]? = some b)

/-- `T.end()`: chip-select deasserted; the device, if there is one, applies the command it has received. -/
structure Ended (s t : State) : Prop extends Made s t .endTx (.returns 0 []) where
  cs  : t.cs = false
  dev : t.env.dev = if s.env.kind = .simFlash then s.env.dev.close else s.env.dev

theorem transportBegin_sat (s : State) :
    (transportBegin s).Sat (fun _ t => Begun s t) (fun t => Hangs s t .beginTx) := by
  unfold transportBegin
  rcases hc : s.choose 0 with ⟨a, t⟩
  have ht : t = (s.choose 0).2 := by rw [hc]
  cases a with
  | never => subst ht; exact Hangs.of_choose s 0 _
  | returns c bs =>
    have hk : Kept s t.openDevice := ht ▸ (s.choose_kept 0).trans (State.openDevice_kept _)
    refine ⟨⟨?_, by simp [ht]⟩, rfl, ?_⟩
    · obtain ⟨h1, h2, h3, h4, h5, h6, h7, h8, h9, h10, h11, h12, h13, h14⟩ := hk
      exact ⟨h1, h2, h3, h4, h5, h6, h7, h8, h9, h10, h11, h12, h13, h14⟩
    · have := t.openDevice_dev
      rw [show t.env.kind = s.env.kind by simp [ht], show t.env.dev = s.env.dev by simp [ht]] at this
      rcases this with ⟨h, h'⟩ | h
      · exact .inl ⟨h, by rw [State.record_env]; show t.openDevice.env.dev = _; rw [h']; simp [ht]⟩
      · exact .inr h

theorem transportWrite_sat (bs : List Byte) (s : State) :
    (transportWrite bs s).Sat (fun n t => Wrote s t bs n) (fun t => Hangs s t (.write bs)) := by
  unfold transportWrite
  rcases hc : s.choose bs.length with ⟨a, t⟩
  have ht : t = (s.choose bs.length).2 := by rw [hc]
  cases a with
  | never => subst ht; exact Hangs.of_choose s _ _
  | returns c r =>
    have hkind : t.env.kind = s.env.kind := by simp [ht]
    have hdev : t.env.dev = s.env.dev := by simp [ht]
    have htr : t.trace = s.trace := by simp [ht]
    have hcs : t.cs = s.cs := by simp [ht]
    have hk : Kept s t := ht ▸ s.choose_kept _
    refine ⟨Made.of_kept (hk.trans (Kept.onDevice _ ?_)) (by simp [htr]) _ _, by simp [hcs], ?_⟩
    · exact ⟨rfl, rfl, rfl, rfl⟩
    · simp only [State.record_env, State.onDevice_dev, hkind, hdev, State.transferred]
      cases hks : s.env.kind with
      | arbitrary => simp
      | simFlash => simp

theorem transportRead_sat (k : Nat) (s : State) :
    (transportRead k s).Sat (fun r t => Got s t k r.1 r.2) (fun t => Hangs s t (.read k)) := by
  unfold transportRead
  rcases hc : s.choose k with ⟨a, t⟩
  have ht : t = (s.choose k).2 := by rw [hc]
  cases a with
  | never => subst ht; exact Hangs.of_choose s _ _
  | returns c r =>
    have hkind : t.env.kind = s.env.kind := by simp [ht]
    have hdev : t.env.dev = s.env.dev := by simp [ht]
    have htr : t.trace = s.trace := by simp [ht]
    have hcs : t.cs = s.cs := by simp [ht]
    have hk : Kept s t := ht ▸ s.choose_kept _
    have hk' : Kept s (t.onDevice fun d => { d with rdn := d.rdn + t.transferred c k }) :=
      hk.trans (Kept.onDevice _ ⟨rfl, rfl, rfl, rfl⟩)
    refine ⟨Made.of_kept ?_ (by simp [htr]) _ _, by simp [hcs], by simp, ?_⟩
    · obtain ⟨h1, h2, h3, h4, h5, h6, h7, h8, h9, h10, h11, h12, h13, h14⟩ := hk'
      exact ⟨h1, h2, h3, h4, h5, h6, h7, h8, h9, h10, h11, h12, h13, h14⟩
    · simp only [State.record_env, State.tick_env, State.onDevice_dev, hkind, hdev, State.transferred, State.received]
      cases hks : s.env.kind with
      | arbitrary => simp
      | simFlash =>
        refine .inr ⟨rfl, by simp, by simp, fun i hi b hb => ?_⟩
        have hi' : i < k := lt_of_lt_of_le hi (Nat.min_le_right c k)
        exact fillBuffer_received hi' hi (by simp [SimFlash.answer, hi', hb])

theorem transportEnd_sat (s : State) :
    (transportEnd s).Sat (fun _ t => Ended s t) (fun t => Hangs s t .endTx) := by
  unfold transportEnd
  rcases hc : s.choose 0 with ⟨a, t⟩
  have ht : t = (s.choose 0).2 := by rw [hc]
  cases a with
  | never => subst ht; exact Hangs.of_choose s _ _
  | returns c r =>
    have hk' : Kept s (t.onDevice SimFlash.close) :=
      (ht ▸ s.choose_kept 0).trans (Kept.onDevice _ (SimFlash.close_same _))
    refine ⟨⟨?_, by simp [ht]⟩, rfl, ?_⟩
    · obtain ⟨h1, h2, h3, h4, h5, h6, h7, h8, h9, h10, h11, h12, h13, h14⟩ := hk'
      exact ⟨h1, h2, h3, h4, h5, h6, h7, h8, h9, h10, h11, h12, h13, h14⟩
    · simp [State.onDevice_dev, ht]

/-! ## Where transport calls return -/

theorem transportBegin_ends {s : State} {k : Nat} (h : s.CallsReturn (k + 1)) :
    (transportBegin s).Ends fun _ t => t.CallsReturn k := by
  unfold transportBegin
  obtain ⟨⟨c, bs, hc⟩, hk⟩ := h.choose 0
  rcases he : s.choose 0 with ⟨a, t⟩
  rw [he] at hc hk
  simp only at hc; subst hc
  exact hk.of_env (by simp) t.openDevice_kept.kind

theorem transportWrite_ends {s : State} {k : Nat} (bs : List Byte) (h : s.CallsReturn (k + 1)) :
    (transportWrite bs s).Ends fun _ t => t.CallsReturn k := by
  unfold transportWrite
  obtain ⟨⟨c, r, hc⟩, hk⟩ := h.choose bs.length
  rcases he : s.choose bs.length with ⟨a, t⟩
  rw [he] at hc hk
  simp only at hc; subst hc
  exact hk.of_env (by simp) (by simp)

theorem transportRead_ends {s : State} {k : Nat} (n : Nat) (h : s.CallsReturn (k + 1)) :
    (transportRead n s).Ends fun _ t => t.CallsReturn k := by
  unfold transportRead
  obtain ⟨⟨c, r, hc⟩, hk⟩ := h.choose n
  rcases he : s.choose n with ⟨a, t⟩
  rw [he] at hc hk
  simp only at hc; subst hc
  exact hk.of_env (by simp) (by simp)

theorem transportEnd_ends {s : State} {k : Nat} (h : s.CallsReturn (k + 1)) :
    (transportEnd s).Ends fun _ t => t.CallsReturn k := by
  unfold transportEnd
  obtain ⟨⟨c, r, hc⟩, hk⟩ := h.choose 0
  rcases he : s.choose 0 with ⟨a, t⟩
  rw [he] at hc hk
  simp only at hc; subst hc
  exact hk.of_env (by simp) (by simp)

end Sys2Proof.Machine
end

