-- ==== Sys2Proof/Laws/Operation.lean ====
section
/-! SUPPORT. What a transaction, the procedures of the gate and a whole operation can do, said once for each. -/

namespace Sys2Proof.Machine

open Host (Outcome)

/-! ## Transactions -/

/-- The bytes a payload phase writes. -/
def Payload.written : Payload → List Byte
  | .none => []
  | .write bs => bs
  | .read _ => []

/-- The trace of a payload phase, its match and the bytes it read. -/
def PayloadEvents : Payload → List Event → Bool → List Byte → Prop
  | .none, pe, ok, rs => pe = [] ∧ ok = true ∧ rs = []
  | .write bs, pe, ok, rs => ∃ c, pe = [.wrote bs c] ∧ ok = countMatches c bs.length ∧ rs = []
  | .read k, pe, ok, rs => ∃ c, pe = [.readBack k c rs] ∧ ok = countMatches c k ∧ rs.length = k

/-- The payload phase a command has (30_encoding.md R110). -/
def Payload.fits : Payload → Command → Prop
  | .none, c => c = .writeEnable ∨ c = .eraseChip ∨ c = .eraseBlock
  | .write _, c => c = .programPage
  | .read k, c => c = .readStatus ∧ k = 1 ∨ c = .readJedecId ∧ k = 3 ∨ c = .readData

/-- A whole transaction was made, with the AND of its matches and the bytes it read. -/
structure Transacted (s t : State) (header : List Byte) (p : Payload) (r : Bool × List Byte) : Prop where
  kept  : Kept s t
  cs    : t.cs = false
  trace : ∃ c1 pe ok2, t.trace = s.trace ++ (Event.opened :: Event.wrote header c1 :: (pe ++ [Event.closed])) ∧
    PayloadEvents p pe ok2 r.2 ∧ r.1 = (countMatches c1 header.length && ok2)
  wf    : s.env.dev.mem.wf → t.env.dev.mem.wf
  arbitrary : s.env.kind = .arbitrary → t.env.dev = s.env.dev
  sim   : s.env.kind = .simFlash → ∃ d tx rdn, (d = s.env.dev ∨ d = s.env.dev.complete) ∧
    t.env.dev = SimFlash.close { d with tx := tx, rdn := rdn } ∧
    (∃ n m, tx = header.take n ++ p.written.take m) ∧ (r.1 = true → tx = header ++ p.written) ∧
    (r.1 = true → ∀ k, p = .read k → ∀ i < k, ∀ b,
      SimFlash.answerByte { d with tx := header, rdn := 0 } i = some b → r.2[i]? = some b)

/-- A transaction hangs in one of its calls: the trace ends in a call that was not answered. -/
structure TransactionHangs (s t : State) (header : List Byte) (p : Payload) : Prop where
  kept  : Kept s t
  wf    : s.env.dev.mem.wf → t.env.dev.mem.wf
  mem   : t.env.dev.mem = s.env.dev.mem
  trace : ∃ es, t.trace = s.trace ++ es ∧ es.length ≤ 4 ∧
    ∀ c a, decodeHeader header = some (c, a) → p.fits c → BusState.closed.run es = some .waiting

theorem Begun.mem {s t : State} (h : Begun s t) : t.env.dev.mem = s.env.dev.mem := by
  rcases h.dev with ⟨-, h⟩ | ⟨-, h | h⟩ <;> simp [h, SimFlash.openTx]

theorem Wrote.mem {s t : State} {bs : List Byte} {n : Nat} (h : Wrote s t bs n) :
    t.env.dev.mem = s.env.dev.mem := by
  rcases h.dev with ⟨-, h⟩ | ⟨-, -, h⟩ <;> simp [h]

theorem Got.mem {s t : State} {k n : Nat} {rs : List Byte} (h : Got s t k n rs) :
    t.env.dev.mem = s.env.dev.mem := by
  rcases h.dev with ⟨-, h⟩ | ⟨-, -, h, -⟩ <;> simp [h]

theorem Ended.wf {s t : State} (h : Ended s t) (hs : s.env.dev.mem.wf) : t.env.dev.mem.wf := by
  rw [h.dev]; split
  · exact SimFlash.close_wf hs
  · exact hs

/-- What the payload phase can do. -/
structure Paid (s t : State) (p : Payload) (r : Bool × List Byte) : Prop where
  kept  : Kept s t
  trace : ∃ pe, t.trace = s.trace ++ pe ∧ PayloadEvents p pe r.1 r.2
  mem   : t.env.dev.mem = s.env.dev.mem
  arbitrary : s.env.kind = .arbitrary → t.env.dev = s.env.dev
  sim   : s.env.kind = .simFlash → ∃ tx rdn, t.env.dev = { s.env.dev with tx := tx, rdn := rdn } ∧
    (∃ m, tx = s.env.dev.tx ++ p.written.take m) ∧ (r.1 = true → tx = s.env.dev.tx ++ p.written) ∧
    (r.1 = true → ∀ k, p = .read k → ∀ i < k, ∀ b, s.env.dev.answerByte i = some b → r.2[i]? = some b)

theorem subWrite_sat (bs : List Byte) (s : State) :
    (subWrite bs s).Sat (fun ok t => ∃ n, ok = countMatches n bs.length ∧ Wrote s t bs n)
      (fun t => Hangs s t (.write bs)) :=
  (transportWrite_sat bs s).bind fun n _ h => ⟨n, rfl, h⟩

theorem subRead_sat (k : Nat) (s : State) :
    (subRead k s).Sat (fun r t => ∃ n, r.1 = countMatches n k ∧ Got s t k n r.2) (fun t => Hangs s t (.read k)) :=
  (transportRead_sat k s).bind fun r _ h => ⟨r.1, rfl, h⟩

/-- The call a payload phase makes. -/
def Payload.call : Payload → Option TransportCall
  | .none => Option.none
  | .write bs => some (.write bs)
  | .read k => some (.read k)

theorem subPayload_sat (p : Payload) (s : State) :
    (subPayload p s).Sat (fun r t => Paid s t p r) (fun t => ∃ c, p.call = some c ∧ Hangs s t c) := by
  cases p with
  | none =>
    exact ⟨Kept.refl s, ⟨[], by simp, rfl, rfl, rfl⟩, rfl, fun _ => rfl,
      fun _ => ⟨s.env.dev.tx, s.env.dev.rdn, rfl, ⟨0, by simp⟩, by simp [Payload.written], by simp⟩⟩
  | write bs =>
    refine Call.Sat.bind (Call.Sat.mono (subWrite_sat bs s) (fun _ _ h => h) fun t h => ⟨_, rfl, h⟩) ?_
    rintro ok t ⟨n, rfl, h⟩
    refine ⟨h.kept, ⟨_, h.trace, n, rfl, rfl, rfl⟩, h.mem, fun hk => ?_, fun hk => ?_⟩
    · rcases h.dev with ⟨-, hd⟩ | ⟨hk', -⟩
      · exact hd
      · simp [hk] at hk'
    · rcases h.dev with ⟨hk', -⟩ | ⟨-, -, hd⟩
      · simp [hk] at hk'
      · refine ⟨_, s.env.dev.rdn, hd, ⟨n, rfl⟩, fun hn => ?_, by simp⟩
        simp only [countMatches, beq_iff_eq] at hn
        simp [Payload.written, hn]
  | read k =>
    refine Call.Sat.mono (subRead_sat k s) ?_ fun t h => ⟨_, rfl, h⟩
    rintro r t ⟨n, hn, h⟩
    refine ⟨h.kept, ⟨_, h.trace, n, rfl, hn, h.length⟩, h.mem, fun hk => ?_, fun hk => ?_⟩
    · rcases h.dev with ⟨-, hd⟩ | ⟨hk', -⟩
      · exact hd
      · simp [hk] at hk'
    · rcases h.dev with ⟨hk', -⟩ | ⟨-, -, hd, hb⟩
      · simp [hk] at hk'
      · refine ⟨s.env.dev.tx, _, hd, ⟨0, by simp⟩, by simp [Payload.written], fun hr j hj i hi b hb' => ?_⟩
        rw [hr] at hn
        obtain rfl : n = k := by simpa [countMatches] using hn.symm
        cases hj
        exact hb i hi b hb'

/-- One call of a whole trace after another. -/
theorem BusState.run_append (b : BusState) (es fs : List Event) :
    b.run (es ++ fs) = (b.run es).bind fun b' => b'.run fs := by
  induction es generalizing b with
  | nil => rfl
  | cons e es ih => simp only [List.cons_append, BusState.run]; cases b.next e <;> simp [ih]

/-- The payload phase of a fitting command ends where the transaction may close. -/
theorem PayloadEvents.run {p : Payload} {pe : List Event} {ok : Bool} {rs : List Byte} {c : Command}
    (h : PayloadEvents p pe ok rs) (hf : p.fits c) :
    ∃ b, (BusState.header c).run pe = some b ∧ b.call .endTx = some .closed := by
  cases p with
  | none =>
    obtain ⟨rfl, -, -⟩ := h
    rcases hf with rfl | rfl | rfl <;> exact ⟨_, rfl, rfl⟩
  | write bs =>
    obtain ⟨n, rfl, -, -⟩ := h
    cases hf
    exact ⟨.payload, rfl, rfl⟩
  | read k =>
    obtain ⟨n, rfl, -, -⟩ := h
    rcases hf with ⟨rfl, rfl⟩ | ⟨rfl, rfl⟩ | rfl <;> exact ⟨.payload, rfl, rfl⟩

/-- The payload call of a fitting command is one the shape allows. -/
theorem Payload.fits_call {p : Payload} {c : Command} {tc : TransportCall} (hf : p.fits c) (hc : p.call = some tc) :
    ∃ b, (BusState.header c).call tc = some b := by
  cases p with
  | none => simp [Payload.call] at hc
  | write bs =>
    simp only [Payload.call, Option.some.injEq] at hc; subst hc
    cases hf
    exact ⟨_, rfl⟩
  | read k =>
    simp only [Payload.call, Option.some.injEq] at hc; subst hc
    rcases hf with ⟨rfl, rfl⟩ | ⟨rfl, rfl⟩ | rfl <;> exact ⟨_, rfl⟩

theorem BusState.run_opened {es : List Event} : BusState.closed.run (Event.opened :: es) = BusState.opened.run es := rfl

theorem BusState.run_header {header : List Byte} {c1 : Nat} {c : Command} {a : Option Addr24} {es : List Event}
    (h : decodeHeader header = some (c, a)) :
    BusState.opened.run (Event.wrote header c1 :: es) = (BusState.header c).run es := by
  simp [BusState.run, BusState.next, BusState.call, h]

theorem BusState.run_never {b b' : BusState} {c : TransportCall} (h : b.call c = some b') :
    b.run [{ call := c, answer := .never }] = some .waiting := by
  simp [BusState.run, BusState.next, h]

/-- A whole transaction of a fitting command leaves the bus closed. -/
theorem Transacted.run {s t : State} {header : List Byte} {p : Payload} {r : Bool × List Byte} {c : Command}
    {a : Option Addr24} (h : Transacted s t header p r) (hh : decodeHeader header = some (c, a)) (hf : p.fits c) :
    ∃ es, t.trace = s.trace ++ es ∧ BusState.closed.run es = some .closed := by
  obtain ⟨c1, pe, ok2, ht, hp, -⟩ := h.trace
  refine ⟨_, ht, ?_⟩
  obtain ⟨b, hb, he⟩ := hp.run hf
  rw [BusState.run_opened, BusState.run_header hh, BusState.run_append, hb]
  simp [BusState.run, BusState.next, he]

/-- A payload phase is at most one call. -/
theorem PayloadEvents.length_le {p : Payload} {pe : List Event} {ok : Bool} {rs : List Byte}
    (h : PayloadEvents p pe ok rs) : pe.length ≤ 1 := by
  cases p with
  | none => obtain ⟨rfl, -⟩ := h; simp
  | write bs => obtain ⟨n, rfl, -⟩ := h; simp
  | read k => obtain ⟨n, rfl, -⟩ := h; simp

theorem transaction_sat (header : List Byte) (p : Payload) (s : State) :
    (transaction header p s).Sat (fun r t => Transacted s t header p r)
      (fun t => TransactionHangs s t header p) := by
  unfold transaction
  refine Call.Sat.bind (P := fun _ t => Begun s t) ?_ ?_
  · refine Call.Sat.mono (transportBegin_sat s) (fun _ _ h => h) fun t h => ?_
    refine ⟨h.kept, fun hw => by rwa [h.dev], by rw [h.dev], _, h.trace, by simp, fun c a _ _ => ?_⟩
    exact BusState.run_never rfl
  rintro - s1 h1
  refine Call.Sat.bind (P := fun ok t => ∃ n, ok = countMatches n header.length ∧ Wrote s1 t header n) ?_ ?_
  · refine Call.Sat.mono (subWrite_sat header s1) (fun _ _ h => h) fun t h => ?_
    refine ⟨h1.kept.trans h.kept, fun hw => by rwa [h.dev, h1.mem], by rw [h.dev, h1.mem],
      [Event.opened] ++ _, by rw [h.trace, h1.trace, List.append_assoc], by simp, fun c a hh _ => ?_⟩
    rw [List.singleton_append, BusState.run_opened]
    exact BusState.run_never (b' := .header c) (by simp [BusState.call, hh])
  rintro ok1 s2 ⟨c1, rfl, h2⟩
  refine Call.Sat.bind (P := fun r t => Paid s2 t p r) ?_ ?_
  · refine Call.Sat.mono (subPayload_sat p s2) (fun _ _ h => h) ?_
    rintro t ⟨tc, htc, h⟩
    refine ⟨h1.kept.trans (h2.kept.trans h.kept), fun hw => by rwa [h.dev, h2.mem, h1.mem],
      by rw [h.dev, h2.mem, h1.mem],
      [Event.opened, Event.wrote header c1] ++ [{ call := tc, answer := .never }], by rw [h.trace, h2.trace, h1.trace]; simp, by simp, fun c a hh hf => ?_⟩
    obtain ⟨b, hb⟩ := Payload.fits_call hf htc
    show BusState.closed.run (Event.opened :: Event.wrote header c1 :: [_]) = _
    rw [BusState.run_opened, BusState.run_header hh]
    exact BusState.run_never hb
  rintro r s3 h3
  obtain ⟨pe, hpt, hpe⟩ := h3.trace
  refine Call.Sat.bind (P := fun _ t => Ended s3 t) ?_ ?_
  · refine Call.Sat.mono (transportEnd_sat s3) (fun _ _ h => h) fun t h => ?_
    refine ⟨h1.kept.trans (h2.kept.trans (h3.kept.trans h.kept)),
      fun hw => by rwa [h.dev, h3.mem, h2.mem, h1.mem], by rw [h.dev, h3.mem, h2.mem, h1.mem],
      [Event.opened, Event.wrote header c1] ++ (pe ++ [{ call := .endTx, answer := .never }]), by rw [h.trace, hpt, h2.trace, h1.trace]; simp, by simpa using Nat.lt_succ_of_le (Nat.succ_le_succ (Nat.succ_le_succ hpe.length_le)),
      fun c a hh hf => ?_⟩
    obtain ⟨b, hb, he⟩ := hpe.run hf
    show BusState.closed.run (Event.opened :: Event.wrote header c1 :: (pe ++ [_])) = _
    rw [BusState.run_opened, BusState.run_header hh, BusState.run_append, hb]
    exact BusState.run_never he
  rintro - t h4
  have hk : Kept s t := h1.kept.trans (h2.kept.trans (h3.kept.trans h4.kept))
  have k1 : s1.env.kind = s.env.kind := h1.kept.kind
  have k2 : s2.env.kind = s.env.kind := h2.kept.kind.trans k1
  have k3 : s3.env.kind = s.env.kind := h3.kept.kind.trans k2
  refine ⟨hk, h4.cs, ⟨c1, pe, r.1, ?_, hpe, rfl⟩, fun hw => h4.wf (by rwa [h3.mem, h2.mem, h1.mem]), fun ha => ?_,
    fun hs => ?_⟩
  · rw [h4.trace, hpt, h2.trace, h1.trace]; simp
  · have e1 : s1.env.dev = s.env.dev := by
      rcases h1.dev with ⟨-, h⟩ | ⟨h, -⟩
      · exact h
      · simp [ha] at h
    have e2 : s2.env.dev = s1.env.dev := by
      rcases h2.dev with ⟨-, h⟩ | ⟨h, -⟩
      · exact h
      · simp [k1, ha] at h
    rw [h4.dev, if_neg (by rw [k3, ha]; decide), h3.arbitrary (by rw [k2, ha]), e2, e1]
  · have e1 : ∃ d, (d = s.env.dev ∨ d = s.env.dev.complete) ∧ s1.env.dev = d.openTx := by
      rcases h1.dev with ⟨h, -⟩ | ⟨-, h | h⟩
      · simp [hs] at h
      · exact ⟨_, .inl rfl, h⟩
      · exact ⟨_, .inr rfl, h⟩
    obtain ⟨d, hd, e1⟩ := e1
    have e2 : s2.env.dev = { d with tx := header.take c1, rdn := 0 } := by
      rcases h2.dev with ⟨h, -⟩ | ⟨-, -, h⟩
      · simp [k1, hs] at h
      · rw [h, e1]; simp [SimFlash.openTx]
    obtain ⟨tx, rdn, e3, ⟨m, hm⟩, htx, hrs⟩ := h3.sim (by rw [k2, hs])
    refine ⟨d, tx, rdn, hd, ?_, ⟨c1, m, by rw [hm, e2]⟩, fun hr => ?_, fun hr k hp i hi b hb => ?_⟩
    · rw [h4.dev, if_pos (by rw [k3, hs]), e3, e2]
    · simp only [Bool.and_eq_true, countMatches, beq_iff_eq] at hr
      rw [htx hr.2, e2]; simp [hr.1]
    · simp only [Bool.and_eq_true, countMatches, beq_iff_eq] at hr
      refine hrs hr.2 k hp i hi b ?_
      rw [e2]; simpa [hr.1] using hb

/-- The number of transport calls a transaction makes. -/
def Payload.calls : Payload → Nat
  | .none => 3
  | .write _ => 4
  | .read _ => 4

theorem subWrite_ends {s : State} {k : Nat} (bs : List Byte) (h : s.CallsReturn (k + 1)) :
    (subWrite bs s).Ends fun _ t => t.CallsReturn k :=
  (transportWrite_ends bs h).bind fun n t (ht : t.CallsReturn k) =>
    (Call.ends_done (countMatches n bs.length) t _).2 ht

theorem subRead_ends {s : State} {k : Nat} (n : Nat) (h : s.CallsReturn (k + 1)) :
    (subRead n s).Ends fun _ t => t.CallsReturn k :=
  (transportRead_ends n h).bind fun r t (ht : t.CallsReturn k) =>
    (Call.ends_done (countMatches r.1 n, r.2) t _).2 ht

theorem subPayload_ends {s : State} {k : Nat} (p : Payload) (h : s.CallsReturn (p.calls - 3 + k)) :
    (subPayload p s).Ends fun _ t => t.CallsReturn k := by
  cases p with
  | none => simpa [subPayload, Payload.calls] using h
  | write bs =>
    simp only [Payload.calls, show 4 - 3 + k = k + 1 by omega] at h
    exact (subWrite_ends bs h).bind fun ok t ht => (Call.ends_done (ok, []) t _).2 ht
  | read n =>
    simp only [Payload.calls, show 4 - 3 + k = k + 1 by omega] at h
    exact subRead_ends n h

/-- Where transport calls return, a transaction ends and does what `transaction_sat` says. -/
theorem transaction_ends {s : State} {k : Nat} (header : List Byte) (p : Payload)
    (h : s.CallsReturn (p.calls + k)) :
    (transaction header p s).Ends fun r t => t.CallsReturn k ∧ Transacted s t header p r := by
  refine Call.Ends.and_sat ?_ (transaction_sat header p s)
  have h0 : s.CallsReturn ((p.calls - 3 + k) + 1 + 1 + 1) := by
    cases p <;> simpa [Payload.calls, Nat.add_comm, Nat.add_left_comm, Nat.add_assoc] using h
  refine Call.Ends.bind (transportBegin_ends h0) fun _ s1 h1 => ?_
  refine Call.Ends.bind (subWrite_ends header h1) fun ok1 s2 h2 => ?_
  have h2' : s2.CallsReturn (p.calls - 3 + (k + 1)) := by
    rwa [show p.calls - 3 + (k + 1) = p.calls - 3 + k + 1 by omega]
  refine Call.Ends.bind (subPayload_ends p h2') fun r s3 h3 => ?_
  exact (transportEnd_ends h3).bind fun _ t ht => (Call.ends_done (ok1 && r.1, r.2) t _).2 ht

/-! ## Whole operations -/

/-- An operation that goes on was started in `IDLE`, and either responds or hangs. -/
theorem perform_next {s t : State} {body : State → Call Reply} (h : perform s body = .next t) :
    s.seq = .idle ∧
      ((∃ r u, body { s with phases := [.idle] } = .done r u ∧ t = u.respond r) ∨
        body { s with phases := [.idle] } = .hung t) := by
  unfold perform at h
  split at h
  · next hs =>
    refine ⟨hs, ?_⟩
    split at h
    · next r u he => exact .inl ⟨r, u, he, (Outcome.next.inj h).symm⟩
    · next u he => exact .inr ((Outcome.next.inj h) ▸ he)
  · cases h

/-- An operation whose body ends responds. -/
theorem perform_of_ends {s : State} {body : State → Call Reply} {P : Reply → State → Prop} (hs : s.seq = .idle)
    (h : (body { s with phases := [.idle] }).Ends P) :
    ∃ r u, P r u ∧ perform s body = .next (u.respond r) := by
  unfold perform
  rw [if_pos hs]
  cases hb : body { s with phases := [.idle] } with
  | done r u => rw [hb] at h; exact ⟨r, u, h, rfl⟩
  | hung u => rw [hb] at h; exact h.elim

/-- What holds of every way the body can end holds of every next state of the operation. -/
theorem perform_sat {s t : State} {body : State → Call Reply} {P : Reply → State → Prop} {H : State → Prop}
    (h : perform s body = .next t) (hb : (body { s with phases := [.idle] }).Sat P H) :
    (∃ r u, P r u ∧ t = u.respond r) ∨ H t := by
  rcases (perform_next h).2 with ⟨r, u, he, rfl⟩ | he
  · rw [he] at hb; exact .inl ⟨r, u, hb, rfl⟩
  · rw [he] at hb; exact .inr hb

/-- An operation is refused while one is executing. -/
theorem perform_refused {s : State} (body : State → Call Reply) (h : s.seq ≠ .idle) :
    perform s body = .refused .requestWhileExecuting := by
  simp [perform, h]

theorem ifReady_ready {e : Reply} {s : State} (k : State → Call Reply) (h : s.mode = .ready) :
    ifReady e s k = k (s.enter .check) := by
  simp [ifReady, h]

theorem ifReady_unconfigured {e : Reply} {s : State} (k : State → Call Reply) (h : s.mode = .unconfigured) :
    ifReady e s k = .done e (s.enter .check) := by
  simp [ifReady, h]

@[simp] theorem ifShaped_none (s : State) (k : State → Call Reply) : ifShaped none s k = k s := rfl

@[simp] theorem ifShaped_some (e : ResultCode) (s : State) (k : State → Call Reply) :
    ifShaped (some e) s k = .done { code := e } s := rfl

end Sys2Proof.Machine
end

