-- ==== Sys2Proof/Laws/Procedures.lean ====
section
/-! SUPPORT. What the status read, the write-enable and the command transactions of the core can do. -/

namespace Sys2Proof.Machine

open Host (Outcome)

/-! ## What a transaction that changes no byte leaves -/

/-- A transaction whose bytes are no mutating command leaves the array as it is. -/
theorem SimFlash.close_mem_of {d : SimFlash}
    (h : ∀ i, decodeFrame { bytes := d.tx, len := 0 } = .ok i → (d.commit i).mem = d.mem) : d.close.mem = d.mem := by
  unfold SimFlash.close
  split
  · next i hi => exact h i hi
  · rfl

/-- The headers whose transactions never change a byte of the array: those that read, and the write-enable. -/
def Quiet (header : List Byte) : Prop :=
  header = [0x05] ∨ header = [0x06] ∨ header = [0x9F] ∨ ∃ a, header = 0x03 :: addrBytes24 a

theorem decodeFrame_prefix_of_quiet {header : List Byte} (hq : Quiet header) (n : Nat) {i : Instr}
    (h : decodeFrame { bytes := header.take n, len := 0 } = .ok i) :
    i = .wireReadStatus ∨ i = .wireWriteEnable ∨ i = .wireReadJedecId ∨ ∃ a k, i = .wireReadData a k := by
  rcases hq with rfl | rfl | rfl | ⟨a, rfl⟩
  · rcases n with _ | n
    · simp [decodeFrame] at h
    · simp [decodeFrame, decodeW1] at h; simp [← h]
  · rcases n with _ | n
    · simp [decodeFrame] at h
    · simp [decodeFrame, decodeW1] at h; simp [← h]
  · rcases n with _ | n
    · simp [decodeFrame] at h
    · simp [decodeFrame, decodeW1] at h; simp [← h]
  · rcases n with _ | n
    · simp [decodeFrame] at h
    · simp only [List.take_succ_cons, decodeFrame] at h
      rw [show decodeOpcode 0x03 = .readData from decodeOpcode_03] at h
      simp only [decodeW4] at h
      split at h
      · simp only [Except.ok.injEq] at h
        exact .inr (.inr (.inr ⟨_, _, h.symm⟩))
      · cases h

theorem SimFlash.close_quiet {d : SimFlash} {header : List Byte} (hq : Quiet header) (n rdn : Nat) :
    (SimFlash.close { d with tx := header.take n, rdn := rdn }).mem = d.mem := by
  refine SimFlash.close_mem_of fun i hi => ?_
  rcases decodeFrame_prefix_of_quiet hq n hi with rfl | rfl | rfl | ⟨a, k, rfl⟩
  · rfl
  · simp only [SimFlash.commit]; split <;> rfl
  · rfl
  · rfl

/-- A transaction that only reads, or sets the latch, leaves every byte of the array. -/
theorem Transacted.mem_of_quiet {s t : State} {header : List Byte} {p : Payload} {r : Bool × List Byte}
    (h : Transacted s t header p r) (hq : Quiet header) (hp : p.written = []) :
    t.env.dev.mem = s.env.dev.mem := by
  cases hk : s.env.kind with
  | arbitrary => rw [h.arbitrary hk]
  | simFlash =>
    obtain ⟨d, tx, rdn, hd, ht, ⟨n, m, htx⟩, -, -⟩ := h.sim hk
    rw [hp, List.take_nil, List.append_nil] at htx
    subst htx
    rw [ht, SimFlash.close_quiet hq]
    rcases hd with rfl | rfl <;> simp

/-! ## The procedures -/

/-- A piece of an operation made the transport calls `es`, left the array as it was, and chip-select is deasserted. -/
structure Exchanged (s t : State) (es : List Event) : Prop where
  kept  : Kept s t
  cs    : t.cs = false
  trace : t.trace = s.trace ++ es
  mem   : t.env.dev.mem = s.env.dev.mem

/-- A piece of an operation hangs: the bus waits for an answer. -/
structure Stuck (s t : State) : Prop where
  kept  : Kept s t
  mem   : t.env.dev.mem = s.env.dev.mem
  trace : ∃ es, t.trace = s.trace ++ es ∧ es.length ≤ 4 ∧ BusState.closed.run es = some .waiting

theorem TransactionHangs.stuck {s t : State} {header : List Byte} {p : Payload} {c : Command} {a : Option Addr24}
    (h : TransactionHangs s t header p) (hh : decodeHeader header = some (c, a)) (hf : p.fits c) : Stuck s t := by
  obtain ⟨es, he, hn, hr⟩ := h.trace
  exact ⟨h.kept, h.mem, es, he, hn, hr c a hh hf⟩

/-- The one byte of a one-byte buffer. -/
theorem one_byte {rs : List Byte} (h : rs.length = 1) : rs = [rs.getD 0 0] := by
  match rs, h with
  | [b], _ => rfl

/-- The three bytes of a three-byte buffer. -/
theorem three_bytes {rs : List Byte} (h : rs.length = 3) : rs = [rs.getD 0 0, rs.getD 1 0, rs.getD 2 0] := by
  match rs, h with
  | [a, b, c], _ => rfl

/-- What a status read made (41_status_gate.md R150). -/
def StatusRead (s t : State) (r : Bool × Byte) : Prop :=
  ∃ c1 c2, Exchanged s t (statusEvents c1 c2 r.2) ∧ r.1 = (countMatches c1 1 && countMatches c2 1)

theorem Transacted.statusRead {s t : State} {r : Bool × List Byte} (h : Transacted s t [0x05] (.read 1) r) :
    StatusRead s t (r.1, r.2.getD 0 0) := by
  obtain ⟨c1, pe, ok2, ht, ⟨c2, rfl, rfl, hl⟩, hr⟩ := h.trace
  refine ⟨c1, c2, ⟨h.kept, h.cs, ?_, h.mem_of_quiet (.inl rfl) rfl⟩, hr⟩
  rw [ht]; conv_lhs => rw [one_byte hl]
  rfl

theorem readStatusProc_sat (s : State) : (readStatusProc s).Sat (fun r t => StatusRead s t r) (Stuck s) := by
  refine Call.Sat.bind (Call.Sat.mono (transaction_sat _ _ s) (fun _ _ h => h) fun t h => ?_) ?_
  · exact h.stuck (c := .readStatus) (a := none) rfl (.inl ⟨rfl, rfl⟩)
  · intro r t h; exact Transacted.statusRead h

/-- A status read lets a gate pass exactly when both counts match and bit 0 is clear. -/
theorem busy_eq (c1 c2 : Nat) (b : Byte) :
    (!(countMatches c1 1 && countMatches c2 1) || busyBit b) = !decide (statusPasses c1 c2 b) := by
  rw [Bool.eq_iff_iff]
  simp [countMatches, busyBit, decodeStatus, statusPasses]
  tauto

theorem isBusyProc_sat (s : State) :
    (isBusyProc s).Sat
      (fun busy t => ∃ c1 c2 b, Exchanged s t (statusEvents c1 c2 b) ∧ busy = !decide (statusPasses c1 c2 b))
      (Stuck s) := by
  refine Call.Sat.bind (readStatusProc_sat s) ?_
  rintro ⟨ok, b⟩ t ⟨c1, c2, he, hr⟩
  refine ⟨c1, c2, b, he, ?_⟩
  simp only at hr
  rw [hr]
  exact busy_eq c1 c2 b

theorem Transacted.wren {s t : State} {r : Bool × List Byte} (h : Transacted s t [0x06] .none r) :
    ∃ c, Exchanged s t (wrenEvents c) ∧ r.1 = countMatches c 1 := by
  obtain ⟨c, pe, ok2, ht, ⟨rfl, rfl, -⟩, hr⟩ := h.trace
  exact ⟨c, ⟨h.kept, h.cs, ht, h.mem_of_quiet (.inr (.inl rfl)) rfl⟩, by simpa using hr⟩

theorem writeEnableProc_sat (s : State) :
    (writeEnableProc s).Sat (fun ok t => ∃ c, Exchanged s t (wrenEvents c) ∧ ok = countMatches c 1) (Stuck s) := by
  refine Call.Sat.bind (Call.Sat.mono (transaction_sat _ _ s) (fun _ _ h => h) fun t h => ?_) ?_
  · exact h.stuck (c := .writeEnable) (a := none) rfl (.inl rfl)
  · intro r t h; exact Transacted.wren h

theorem readStatusProc_ends {s : State} {k : Nat} (h : s.CallsReturn (4 + k)) :
    (readStatusProc s).Ends fun r t => t.CallsReturn k ∧ StatusRead s t r :=
  (transaction_ends _ (.read 1) h).bind fun r t ⟨hk, ht⟩ =>
    (Call.ends_done (r.1, r.2.getD 0 0) t _).2 ⟨hk, Transacted.statusRead ht⟩

theorem isBusyProc_ends {s : State} {k : Nat} (h : s.CallsReturn (4 + k)) :
    (isBusyProc s).Ends fun busy t => t.CallsReturn k ∧
      ∃ c1 c2 b, Exchanged s t (statusEvents c1 c2 b) ∧ busy = !decide (statusPasses c1 c2 b) := by
  have h1 : (isBusyProc s).Ends fun _ t => t.CallsReturn k :=
    (readStatusProc_ends h).bind fun r t ht => (Call.ends_done (!r.1 || busyBit r.2) t _).2 ht.1
  exact h1.and_sat (isBusyProc_sat s)

theorem writeEnableProc_ends {s : State} {k : Nat} (h : s.CallsReturn (3 + k)) :
    (writeEnableProc s).Ends fun ok t => t.CallsReturn k ∧
      ∃ c, Exchanged s t (wrenEvents c) ∧ ok = countMatches c 1 :=
  (transaction_ends _ .none h).bind fun r t ⟨hk, ht⟩ =>
    (Call.ends_done r.1 t _).2 ⟨hk, Transacted.wren ht⟩

/-! ## Headers of the core -/

/-- A header the core sends is the header of the command it was made from (30_encoding.md R109). -/
theorem decodeHeader_encodeHeader (ec : EraseChipOpcode) (c : Command) (a : Addr24) :
    decodeHeader (encodeHeader ec c a) = some (c, if c.hasAddr then some a else none) := by
  cases c <;> first
    | (cases ec <;> rfl)
    | (simp [encodeHeader, Command.hasAddr, addrBytes24, decodeHeader, Command.opcode, Mnemonic.command?])

/-- A command transaction with the command's own payload phase leaves the bus closed or waiting. -/
theorem commandTransaction_sat {c : Command} {p : Payload} (a : Addr24) (hf : p.fits c) (s : State) :
    (commandTransaction c a p s).Sat (fun r t => Transacted s t (encodeHeader s.eraseChip c a) p r) (Stuck s) :=
  Call.Sat.mono (transaction_sat _ _ s) (fun _ _ h => h) fun _ h =>
    h.stuck (decodeHeader_encodeHeader _ c a) hf

end Sys2Proof.Machine
end

