-- ==== Sys2Proof/Laws/Sequencer.lean ====
section
/-! SUPPORT. What the gate, the last steps of a mutating operation, a lone wire transaction and a transaction the core takes
no part in can do, said once for each. -/

namespace Sys2Proof.Machine

open Host (Outcome)

/-! ## What an operation leaves, whatever phases it walks -/

/-- The core's registers, the response and the parameters of the environment are those of `s`. -/
structure Steady (s t : State) : Prop where
  mode      : t.mode = s.mode
  geom      : t.geom = s.geom
  latch     : t.latch = s.latch
  response  : t.response = s.response
  eraseChip : t.eraseChip = s.eraseChip
  exclusive : t.exclusive = s.exclusive
  inputs    : t.inputs = s.inputs
  kind      : t.env.kind = s.env.kind
  size      : t.env.dev.size = s.env.dev.size
  page      : t.env.dev.page = s.env.dev.page
  block     : t.env.dev.block = s.env.dev.block
  ident     : t.env.dev.ident = s.env.dev.ident

theorem Kept.steady {s t : State} (h : Kept s t) : Steady s t :=
  ⟨h.mode, h.geom, h.latch, h.response, h.eraseChip, h.exclusive, h.inputs, h.kind, h.size, h.page, h.block, h.ident⟩

theorem Steady.refl (s : State) : Steady s s := (Kept.refl s).steady

theorem Steady.trans {s t u : State} (h : Steady s t) (k : Steady t u) : Steady s u :=
  ⟨k.mode.trans h.mode, k.geom.trans h.geom, k.latch.trans h.latch, k.response.trans h.response,
   k.eraseChip.trans h.eraseChip, k.exclusive.trans h.exclusive, k.inputs.trans h.inputs, k.kind.trans h.kind, k.size.trans h.size,
   k.page.trans h.page, k.block.trans h.block, k.ident.trans h.ident⟩

/-- Entering a phase changes none of them. -/
theorem Steady.enter (s : State) (p : Phase) : Steady s (s.enter p) :=
  ⟨rfl, rfl, rfl, rfl, rfl, rfl, rfl, rfl, rfl, rfl, rfl, rfl⟩

/-- The start of an operation changes none of them. -/
theorem Steady.start (s : State) : Steady s { s with phases := [.idle] } :=
  ⟨rfl, rfl, rfl, rfl, rfl, rfl, rfl, rfl, rfl, rfl, rfl, rfl⟩

/-- The response is all that `RESPOND` writes. -/
theorem Steady.respond {s t : State} (h : Steady s t) (r : Reply) : CoreKept s (t.respond r) :=
  ⟨h.mode, h.geom, h.latch, h.eraseChip, h.exclusive, h.inputs, h.kind, h.size, h.page, h.block, h.ident, rfl⟩

/-- Calls that leave the bus waiting end in the one that was not answered. -/
theorem BusState.run_waiting {es : List Event} : ∀ {b : BusState}, b ≠ .waiting → b.run es = some .waiting →
    ∃ fs c, es = fs ++ [{ call := c, answer := .never }] := by
  induction es with
  | nil => intro b hb h; exact absurd (Option.some.inj h) hb
  | cons e es ih =>
    intro b hb h
    obtain ⟨b', hb', hr⟩ := Option.bind_eq_some_iff.1 h
    by_cases hw : b' = .waiting
    · subst hw
      cases es with
      | nil =>
        obtain ⟨c, a⟩ := e
        cases a with
        | never => exact ⟨[], c, rfl⟩
        | returns n bs =>
          exfalso
          simp only [BusState.next] at hb'
          unfold BusState.call at hb'
          split at hb' <;> (try split at hb') <;> simp_all
      | cons f fs =>
        exfalso
        obtain ⟨b2, hb2, -⟩ := Option.bind_eq_some_iff.1 hr
        unfold BusState.next BusState.call at hb2
        split at hb2 <;> simp at hb2
    · obtain ⟨fs, c, rfl⟩ := ih hw hr
      exact ⟨e :: fs, c, rfl⟩

/-- An operation hangs in a transport call: outside `IDLE`, the array as it was, the last call of the trace unanswered. -/
structure Hung (s t : State) : Prop where
  steady : Steady s t
  busy   : t.seq ≠ .idle
  mem    : t.env.dev.mem = s.env.dev.mem
  trace  : ∃ es c, t.trace = s.trace ++ (es ++ [{ call := c, answer := .never }]) ∧ es.length ≤ 10 ∧
    BusState.closed.run (es ++ [{ call := c, answer := .never }]) = some .waiting

/-- A piece that hangs after calls that were whole transactions. -/
theorem Stuck.hung {s u t : State} {es : List Event} (h : Stuck u t) (hu : Steady s u) (hp : u.seq ≠ .idle)
    (hm : u.env.dev.mem = s.env.dev.mem) (ht : u.trace = s.trace ++ es) (hl : es.length ≤ 7)
    (hr : BusState.closed.run es = some .closed) : Hung s t := by
  obtain ⟨fs, hf, hn, hw⟩ := h.trace
  obtain ⟨gs, c, rfl⟩ := BusState.run_waiting (by decide) hw
  simp only [List.length_append, List.length_singleton] at hn
  refine ⟨hu.trans h.kept.steady, by rw [h.kept.seq]; exact hp, h.mem.trans hm, es ++ gs, c, ?_, ?_, ?_⟩
  · rw [hf, ht]; simp
  · rw [List.length_append]; omega
  · rw [List.append_assoc, BusState.run_append, hr, Option.bind_some, hw]

theorem statusEvents_run (c1 c2 : Nat) (b : Byte) :
    BusState.closed.run (statusEvents c1 c2 b) = some .closed := rfl

theorem wrenEvents_run (c : Nat) : BusState.closed.run (wrenEvents c) = some .closed := rfl

/-! ## The start of an operation -/

/-- The state behind the mode test: the walk is `IDLE`, `CHECK`. -/
def State.checked (s : State) : State := { s with seq := .check, phases := [.idle, .check] }

theorem Steady.checked (s : State) : Steady s s.checked := ⟨rfl, rfl, rfl, rfl, rfl, rfl, rfl, rfl, rfl, rfl, rfl, rfl⟩

@[simp] theorem State.checked_mode (s : State) : s.checked.mode = s.mode := rfl
@[simp] theorem State.checked_geom (s : State) : s.checked.geom = s.geom := rfl
@[simp] theorem State.checked_seq (s : State) : s.checked.seq = .check := rfl
@[simp] theorem State.checked_cs (s : State) : s.checked.cs = s.cs := rfl
@[simp] theorem State.checked_trace (s : State) : s.checked.trace = s.trace := rfl
@[simp] theorem State.checked_eraseChip (s : State) : s.checked.eraseChip = s.eraseChip := rfl
@[simp] theorem State.checked_exclusive (s : State) : s.checked.exclusive = s.exclusive := rfl
@[simp] theorem State.checked_env (s : State) : s.checked.env = s.env := rfl
@[simp] theorem State.checked_phases (s : State) : s.checked.phases = [.idle, .check] := rfl
@[simp] theorem State.checked_draws (s : State) : s.checked.draws = s.draws := rfl

/-- In `Ready` an operation runs its body behind the mode test; if that ends, the operation responds. -/
theorem perform_ready {s : State} {e : Reply} {k : State → Call Reply} {P : Reply → State → Prop} (hs : s.seq = .idle)
    (hm : s.mode = .ready) (h : (k s.checked).Ends P) :
    ∃ r u, P r u ∧ perform s (fun s => ifReady e s k) = .next (u.respond r) :=
  perform_of_ends hs ((ifReady_ready (e := e) (s := { s with phases := [.idle] }) k hm) ▸ h)

/-- Every next state of an operation behind the mode test: the mode test answered, the body responded, or it hangs. -/
theorem perform_ifReady_sat {s t : State} {e : Reply} {k : State → Call Reply} {P : Reply → State → Prop}
    {H : State → Prop} (h : perform s (fun s => ifReady e s k) = .next t) (hk : (k s.checked).Sat P H) :
    s.seq = .idle ∧
      ((s.mode = .unconfigured ∧ t = s.checked.respond e) ∨
        (s.mode = .ready ∧ ((∃ r u, P r u ∧ t = u.respond r) ∨ H t))) := by
  refine ⟨(perform_next h).1, ?_⟩
  cases hm : s.mode with
  | unconfigured =>
    have he := perform_sat (P := fun r u => r = e ∧ u = s.checked) (H := fun _ => False) h
      ((ifReady_unconfigured (e := e) (s := { s with phases := [.idle] }) k hm) ▸ ⟨rfl, rfl⟩)
    rcases he with ⟨r, u, ⟨rfl, rfl⟩, ht⟩ | h
    · exact .inl ⟨rfl, ht⟩
    · exact h.elim
  | ready =>
    exact .inr ⟨rfl, perform_sat h ((ifReady_ready (e := e) (s := { s with phases := [.idle] }) k hm) ▸ hk)⟩

/-! ## The gate and the command behind it -/

/-- The gate stopped the operation: exactly one status read, and it did not pass (41_status_gate.md R157). -/
structure GateStopped (s t : State) (r : Reply) : Prop where
  reply  : r = { code := .deviceBusy }
  steady : Steady s t
  cs     : t.cs = false
  mem    : t.env.dev.mem = s.env.dev.mem
  phases : t.phases = s.phases ++ [.gateStatus]
  trace  : ∃ c1 c2 b, t.trace = s.trace ++ statusEvents c1 c2 b ∧ ¬ statusPasses c1 c2 b

/-- The gate let the operation pass: a status read, a write-enable, then the command transaction from state `u`, and the
write-enable's count folded into the result (41_status_gate.md R157, R158). -/
structure GatePassed (s t : State) (header : List Byte) (p : Payload) (r : Reply) : Prop where
  steady : Steady s t
  cs     : t.cs = false
  phases : t.phases = s.phases ++ [.gateStatus, .gateWren, .cmd]
  trace  : ∃ c1 c2 b c3 u m, statusPasses c1 c2 b ∧ Steady s u ∧ u.env.dev.mem = s.env.dev.mem ∧
    u.trace = s.trace ++ (statusEvents c1 c2 b ++ wrenEvents c3) ∧ Transacted u t header p m ∧
    r = { code := foldedCode (countMatches c3 1 && m.1) }

theorem gatedCommand_sat {c : Command} {p : Payload} (a : Addr24) (hf : p.fits c) (s : State) :
    (gatedCommand c a p s).Sat
      (fun r t => GateStopped s t r ∨ GatePassed s t (encodeHeader s.eraseChip c a) p r) (Hung s) := by
  unfold gatedCommand gate
  refine Call.Sat.bind (Call.Sat.mono (isBusyProc_sat _) (fun _ _ h => h) fun t h =>
    h.hung (es := []) (Steady.enter s _) (by simp) rfl (by simp) (by simp) rfl) ?_
  rintro busy s1 ⟨c1, c2, b, h1, rfl⟩
  have k1 : Steady s s1 := (Steady.enter s _).trans h1.kept.steady
  by_cases hp : statusPasses c1 c2 b
  · rw [if_neg (by rw [decide_eq_true hp]; decide)]
    have t1 : s1.trace = s.trace ++ statusEvents c1 c2 b := h1.trace
    refine Call.Sat.bind (Call.Sat.mono (writeEnableProc_sat _) (fun _ _ h => h) fun t h =>
      h.hung (es := statusEvents c1 c2 b) (k1.trans (Steady.enter s1 _)) (by simp) h1.mem (by simp [t1]) (by simp)
        (statusEvents_run c1 c2 b)) ?_
    rintro okw s2 ⟨c3, h2, rfl⟩
    have k2 : Steady s s2 := k1.trans ((Steady.enter s1 _).trans h2.kept.steady)
    have t2 : s2.trace = s.trace ++ (statusEvents c1 c2 b ++ wrenEvents c3) := by rw [h2.trace]; simp [t1]
    have m2 : s2.env.dev.mem = s.env.dev.mem := h2.mem.trans h1.mem
    have ec : (s2.enter .cmd).eraseChip = s.eraseChip := k2.eraseChip
    refine Call.Sat.bind (Call.Sat.mono (commandTransaction_sat a hf _) (fun _ _ h => h) fun t h =>
      h.hung (k2.trans (Steady.enter s2 _)) (by simp) m2 t2 (by simp) (by
        rw [BusState.run_append, statusEvents_run, Option.bind_some, wrenEvents_run])) ?_
    rintro m t h3
    rw [ec] at h3
    refine .inr ⟨k2.trans ((Steady.enter s2 _).trans h3.kept.steady), h3.cs, ?_,
      c1, c2, b, c3, s2.enter .cmd, m, hp, k2.trans (Steady.enter s2 _), m2, t2, h3, rfl⟩
    rw [h3.kept.phases, State.enter_phases, h2.kept.phases, State.enter_phases, h1.kept.phases, State.enter_phases]
    simp
  · rw [if_pos (by rw [decide_eq_false hp]; rfl)]
    exact .inl ⟨rfl, k1, h1.cs, h1.mem, h1.kept.phases, c1, c2, b, h1.trace, hp⟩

theorem gatedCommand_ends {c : Command} {p : Payload} {s : State} (a : Addr24) (hf : p.fits c)
    (h : s.CallsReturn (7 + p.calls)) :
    (gatedCommand c a p s).Ends
      fun r t => GateStopped s t r ∨ GatePassed s t (encodeHeader s.eraseChip c a) p r := by
  have he : (gatedCommand c a p s).Ends fun _ _ => True := by
    unfold gatedCommand gate
    refine Call.Ends.bind (isBusyProc_ends (k := 3 + p.calls)
      ((h.of_env rfl rfl).le (by omega))) ?_
    rintro busy s1 ⟨k1, c1, c2, b, h1, -⟩
    split
    · trivial
    · refine Call.Ends.bind (writeEnableProc_ends (k := p.calls) (k1.of_env rfl rfl)) ?_
      rintro okw s2 ⟨k2, c3, h2, -⟩
      exact Call.Ends.bind (transaction_ends (k := 0) _ p (k2.of_env rfl rfl))
        fun _ _ _ => trivial
  exact (he.and_sat (gatedCommand_sat a hf s)).mono fun _ _ h => h.2

/-! ## A command transaction that is no mutation of the host interface -/

/-- A transaction in the phase `CMD`: whole, or hung. -/
theorem cmd_sat {header : List Byte} {p : Payload} {c : Command} {o : Option Addr24}
    (hh : decodeHeader header = some (c, o)) (hf : p.fits c) (s : State) :
    (transaction header p (s.enter .cmd)).Sat (fun r t => Transacted (s.enter .cmd) t header p r) (Hung s) :=
  Call.Sat.mono (transaction_sat _ _ _) (fun _ _ h => h) fun _ h =>
    (h.stuck hh hf).hung (es := []) (Steady.enter s _) (by simp) rfl (by simp) (by simp) rfl

/-! ## A transaction the core never makes -/

/-- While the core owns the transport nothing happens (60_exceptions.md R250). -/
theorem deviceOnly_exclusive {bytes : List Byte} {s : State} (hs : s.seq = .idle) (hx : s.exclusive = true) :
    deviceOnly bytes s = .next s := by
  simp [deviceOnly, hs, hx]

/-- Without that ownership the transaction reaches the device (20_memory.md R90, R95). -/
theorem deviceOnly_shared {bytes : List Byte} {s : State} (hs : s.seq = .idle) (hx : s.exclusive = false) :
    deviceOnly bytes s = .next (s.onDevice fun d => d.receive bytes) := by
  simp [deviceOnly, hs, hx]

theorem deviceOnly_next {bytes : List Byte} {s t : State} (h : deviceOnly bytes s = .next t) :
    s.seq = .idle ∧
      ((s.exclusive = true ∧ t = s) ∨ (s.exclusive = false ∧ t = s.onDevice fun d => d.receive bytes)) := by
  unfold deviceOnly at h
  split at h
  · next hs =>
    refine ⟨hs, ?_⟩
    obtain rfl := Outcome.next.inj h
    cases hx : s.exclusive <;> simp
  · cases h

end Sys2Proof.Machine
end

