-- ==== Sys2Proof/Laws/Device.lean ====
section
/-! SUPPORT. What the reference device does: where it transfers every byte, what each closing command leaves, and what a
program stores. -/

namespace Sys2Proof.Machine

/-! ## A device that transfers every byte -/

/-- A reference device with no fault injected (20_memory.md R89). -/
structure FullDevice (s : State) : Prop where
  kind   : s.env.kind = .simFlash
  script : s.env.script = []

theorem State.OnDevice.full_device {s : State} (h : s.OnDevice) : FullDevice s := ⟨h.kind, h.full⟩

theorem FullDevice.returns {s : State} (h : FullDevice s) (k : Nat) : s.CallsReturn k :=
  ⟨by simp [h.script], fun hk => by simp [h.kind] at hk⟩

theorem FullDevice.of_kept {s t : State} (h : FullDevice s) (hk : Steady s t) (hs : t.env.script = s.env.script) :
    FullDevice t :=
  ⟨hk.kind.trans h.kind, hs.trans h.script⟩

theorem transportBegin_full {s : State} (h : FullDevice s) :
    (transportBegin s).Ends fun _ t => t.env.script = [] := by
  unfold transportBegin
  rw [State.choose_sim h.script h.kind]
  simp [h.script]

theorem transportWrite_full {s : State} (h : FullDevice s) (bs : List Byte) :
    (transportWrite bs s).Ends fun n t => n = bs.length ∧ t.env.script = [] := by
  unfold transportWrite
  rw [State.choose_sim h.script h.kind]
  simp [State.transferred, h.kind, h.script]

theorem transportRead_full {s : State} (h : FullDevice s) (k : Nat) :
    (transportRead k s).Ends fun r t => r.1 = k ∧ t.env.script = [] := by
  unfold transportRead
  rw [State.choose_sim h.script h.kind]
  simp [State.transferred, h.kind, h.script]

theorem transportEnd_full {s : State} (h : FullDevice s) : (transportEnd s).Ends fun _ t => t.env.script = [] := by
  unfold transportEnd
  rw [State.choose_sim h.script h.kind]
  simp [h.script]

theorem subWrite_full {s : State} (h : FullDevice s) (bs : List Byte) :
    (subWrite bs s).Ends fun ok t => ok = true ∧ t.env.script = [] :=
  (transportWrite_full h bs).bind fun n t ⟨hn, ht⟩ =>
    (Call.ends_done (countMatches n bs.length) t _).2 ⟨by simp [countMatches, hn], ht⟩

theorem subRead_full {s : State} (h : FullDevice s) (k : Nat) :
    (subRead k s).Ends fun r t => r.1 = true ∧ t.env.script = [] :=
  (transportRead_full h k).bind fun r t ⟨hn, ht⟩ =>
    (Call.ends_done (countMatches r.1 k, r.2) t _).2 ⟨by simp [countMatches, hn], ht⟩

theorem subPayload_full {s : State} (h : FullDevice s) (p : Payload) :
    (subPayload p s).Ends fun r t => r.1 = true ∧ t.env.script = [] := by
  cases p with
  | none => exact ⟨rfl, h.script⟩
  | write bs =>
    exact (subWrite_full h bs).bind fun ok t ht => (Call.ends_done (ok, []) t _).2 ht
  | read k => exact subRead_full h k

/-- On a device that transfers every byte a transaction succeeds. -/
theorem transaction_full {s : State} (h : FullDevice s) (header : List Byte) (p : Payload) :
    (transaction header p s).Ends fun r t => (r.1 = true ∧ FullDevice t) ∧ Transacted s t header p r := by
  have he : (transaction header p s).Ends fun r t => r.1 = true ∧ t.env.script = [] := by
    refine ((transportBegin_full h).and_sat (transportBegin_sat s)).bind ?_
    rintro - s1 ⟨e1, h1⟩
    have f1 : FullDevice s1 := h.of_kept h1.kept.steady (e1.trans h.script.symm)
    refine ((subWrite_full f1 header).and_sat (subWrite_sat header s1)).bind ?_
    rintro ok s2 ⟨⟨rfl, e2⟩, n, -, h2⟩
    have f2 : FullDevice s2 := f1.of_kept h2.kept.steady (e2.trans f1.script.symm)
    refine ((subPayload_full f2 p).and_sat (subPayload_sat p s2)).bind ?_
    rintro r s3 ⟨⟨hr, e3⟩, h3⟩
    have f3 : FullDevice s3 := f2.of_kept h3.kept.steady (e3.trans f2.script.symm)
    exact (transportEnd_full f3).bind fun _ t ht => (Call.ends_done (true && r.1, r.2) t _).2 ⟨by simp [hr], ht⟩
  refine (he.and_sat (transaction_sat header p s)).mono ?_
  rintro r t ⟨⟨hr, ht⟩, hT⟩
  exact ⟨⟨hr, h.of_kept hT.kept.steady (ht.trans h.script.symm)⟩, hT⟩

/-- A successful transaction with a device: the command it applied, and the bytes it answered with. -/
theorem Transacted.on_device {s t : State} {header : List Byte} {p : Payload} {r : Bool × List Byte}
    (h : Transacted s t header p r) (hk : s.env.kind = .simFlash) (hr : r.1 = true) :
    ∃ d rdn, (d = s.env.dev ∨ d = s.env.dev.complete) ∧
      t.env.dev = SimFlash.close { d with tx := header ++ p.written, rdn := rdn } ∧
      ∀ k, p = .read k → r.2.length = k ∧ ∀ i < k, ∀ b,
        SimFlash.answerByte { d with tx := header, rdn := 0 } i = some b → r.2[i]? = some b := by
  obtain ⟨d, tx, rdn, hd, ht, -, htx, hrs⟩ := h.sim hk
  rw [htx hr] at ht
  refine ⟨d, rdn, hd, ht, fun k hp => ⟨?_, hrs hr k hp⟩⟩
  obtain ⟨c1, pe, ok2, -, hpe, -⟩ := h.trace
  subst hp
  exact hpe.choose_spec.2.2

/-! ## What a closing command leaves -/

theorem SimFlash.complete_of_idle {d : SimFlash} (h : d.wip = false) : d.complete = d := by
  simp [SimFlash.complete, h]

/-- A whole frame that decodes is applied. -/
theorem SimFlash.close_of_decode {d : SimFlash} {i : Instr} (h : decodeFrame { bytes := d.tx, len := 0 } = .ok i) :
    d.close = d.commit i := by
  rw [SimFlash.close, h]

theorem decodeFrame_writeEnable (n : XWord) : decodeFrame { bytes := [0x06], len := n } = .ok .wireWriteEnable := rfl

theorem decodeFrame_readStatus (n : XWord) : decodeFrame { bytes := [0x05], len := n } = .ok .wireReadStatus := rfl

theorem decodeFrame_readJedecId (n : XWord) : decodeFrame { bytes := [0x9F], len := n } = .ok .wireReadJedecId := rfl

theorem decodeFrame_readData (a : Addr24) (n : XWord) :
    decodeFrame { bytes := 0x03 :: addrBytes24 a, len := n } = .ok (.wireReadData a n) := by
  simp [decodeFrame, decodeW4, addrBytes24]

theorem decodeFrame_eraseBlock (a : Addr24) (n : XWord) :
    decodeFrame { bytes := 0xD8 :: addrBytes24 a, len := n } = .ok (.wireEraseBlock a) := by
  simp [decodeFrame, decodeW4, addrBytes24]

theorem decodeFrame_programPage (a : Addr24) (data : List Byte) (n : XWord) :
    decodeFrame { bytes := 0x02 :: (addrBytes24 a ++ data), len := n } = .ok (.wireProgramPage a data) := by
  simp [decodeFrame, decodeW4Payload, addrBytes24]

/-- A successful transaction with a device that runs no cycle. -/
theorem Transacted.on_idle_device {s t : State} {header : List Byte} {p : Payload} {r : Bool × List Byte}
    (h : Transacted s t header p r) (hk : s.env.kind = .simFlash) (hw : s.env.dev.wip = false) (hr : r.1 = true) :
    ∃ rdn, t.env.dev = SimFlash.close { s.env.dev with tx := header ++ p.written, rdn := rdn } ∧
      ∀ k, p = .read k → r.2.length = k ∧ ∀ i < k, ∀ b,
        SimFlash.answerByte { s.env.dev with tx := header, rdn := 0 } i = some b → r.2[i]? = some b := by
  obtain ⟨d, rdn, hd, ht, hrs⟩ := h.on_device hk hr
  obtain rfl : d = s.env.dev := by
    rcases hd with rfl | rfl
    · rfl
    · exact SimFlash.complete_of_idle hw
  exact ⟨rdn, ht, hrs⟩

/-- The bytes of an answer that is known in every place. -/
theorem answer_eq {rs : List Byte} {k : Nat} {f : Nat → Byte} (hl : rs.length = k)
    (h : ∀ i < k, ∀ b, some (f i) = some b → rs[i]? = some b) : rs = (List.range k).map f := by
  apply List.ext_getElem?
  intro i
  by_cases hi : i < k
  · rw [h i hi (f i) rfl]; simp [hi]
  · rw [List.getElem?_eq_none (by omega), List.getElem?_eq_none (by simp; omega)]

/-- An operation behind the gate on a device that runs no cycle: the latch is set, and the command is applied. -/
theorem gatedCommand_full {c : Command} {p : Payload} {s : State} (a : Addr24) (h : FullDevice s)
    (hw : s.env.dev.wip = false) :
    (gatedCommand c a p s).Ends fun r t => r = { code := .ok } ∧ Steady s t ∧ FullDevice t ∧ t.cs = false ∧
      ∃ rdn, t.env.dev =
        SimFlash.close { s.env.dev with wel := true, tx := encodeHeader s.eraseChip c a ++ p.written, rdn := rdn } := by
  unfold gatedCommand gate isBusyProc readStatusProc
  rw [Call.bind_assoc, Call.bind_assoc]
  have h0 : FullDevice (s.enter .gateStatus) := h.of_kept (Steady.enter s _) rfl
  refine Call.Ends.bind (transaction_full h0 _ _) ?_
  rintro m s1 ⟨⟨hm, f1⟩, T1⟩
  obtain ⟨rdn1, hd1, hrs⟩ := T1.on_idle_device h.kind hw hm
  have k1 : Steady s s1 := (Steady.enter s _).trans T1.kept.steady
  have hb : m.2.getD 0 0 = statusByte s.env.dev.wel false := by
    have := (hrs 1 rfl).2 0 (by decide) (statusByte s.env.dev.wel s.env.dev.wip) rfl
    simp [List.getD, this, hw]
  have d1 : s1.env.dev = { s.env.dev with tx := [0x05], rdn := rdn1 } := by
    rw [hd1]; exact SimFlash.close_of_decode (i := .wireReadStatus) rfl
  simp only [Call.bind_done, hm, hb]
  rw [if_neg (by cases s.env.dev.wel <;> decide)]
  unfold writeEnableProc
  rw [Call.bind_assoc]
  refine Call.Ends.bind (transaction_full (f1.of_kept (Steady.enter s1 _) rfl) _ _) ?_
  rintro m2 s2 ⟨⟨hm2, f2⟩, T2⟩
  have w1 : (s1.enter .gateWren).env.dev.wip = false := by rw [State.enter_env, d1]; exact hw
  obtain ⟨rdn2, hd2, -⟩ := T2.on_idle_device f1.kind w1 hm2
  have k2 : Steady s s2 := k1.trans ((Steady.enter s1 _).trans T2.kept.steady)
  have d2 : s2.env.dev = { s.env.dev with wel := true, tx := [0x06], rdn := rdn2 } := by
    rw [hd2, SimFlash.close_of_decode (i := .wireWriteEnable) rfl, State.enter_env, d1]
    simp [SimFlash.commit, hw, encodeHeader, Command.hasAddr, Command.opcode, Payload.written]
  simp only [Call.bind_done, hm2]
  refine Call.Ends.bind (transaction_full (f2.of_kept (Steady.enter s2 _) rfl) _ _) ?_
  rintro m3 t ⟨⟨hm3, f3⟩, T3⟩
  have w2 : (s2.enter .cmd).env.dev.wip = false := by rw [State.enter_env, d2]; exact hw
  obtain ⟨rdn3, hd3, -⟩ := T3.on_idle_device f2.kind w2 hm3
  refine ⟨by simp [hm3, foldedCode], k2.trans ((Steady.enter s2 _).trans T3.kept.steady), f3, T3.cs, rdn3, ?_⟩
  rw [hd3, State.enter_env, d2, show (s2.enter .cmd).eraseChip = s.eraseChip from k2.eraseChip]

/-! ## What a program stores -/

/-- Where a program stores is decided by the parameters of the device. -/
theorem SimFlash.programAddr_same {d e : SimFlash} (h : SameDevice d e) : e.programAddr = d.programAddr := by
  funext a i; simp [SimFlash.programAddr, h.size, h.page]

theorem SimFlash.programFrom_same {d e : SimFlash} (h : SameDevice d e) (a : Nat) (data : List Byte) :
    ∀ (m : Memory) (i : Nat), e.programFrom a m i data = d.programFrom a m i data := by
  induction data with
  | nil => exact fun _ _ => rfl
  | cons b bs ih =>
    intro m i
    rw [SimFlash.programFrom, SimFlash.programFrom, ih, SimFlash.programAddr_same h, SimFlash.store, SimFlash.store, h.size]

/-- Within one page the addresses a program stores to are distinct. -/
theorem SimFlash.programAddr_inj {d : SimFlash} (a : Nat) {i j : Nat} (hi : i < d.page.val)
    (hj : j < d.page.val) (he : d.programAddr a i = d.programAddr a j) : i = j := by
  simp only [SimFlash.programAddr] at he
  have h1 : (a % d.size.val + i) % d.page.val = (a % d.size.val + j) % d.page.val := by omega
  have h2 : i % d.page.val = j % d.page.val := Nat.ModEq.add_left_cancel' _ h1
  rwa [Nat.mod_eq_of_lt hi, Nat.mod_eq_of_lt hj] at h2

/-- Byte `k` of a program no longer than a page is ANDed into the byte at its address, where there is one. -/
theorem SimFlash.programFrom_read (d : SimFlash) (a : Nat) (data : List Byte) :
    ∀ (m : Memory) (i k : Nat) (b : Byte), m.wf → i + data.length ≤ d.page.val → data[k]? = some b →
      d.programAddr a (i + k) < d.size.val →
      (d.programFrom a m i data).read (d.programAddr a (i + k)) = m.read (d.programAddr a (i + k)) &&& b := by
  induction data with
  | nil => intro m i k b _ _ hb _; simp at hb
  | cons x bs ih =>
    intro m i k b hm hl hb hs
    simp only [List.length_cons] at hl
    cases k with
    | zero =>
      obtain rfl : x = b := by simpa using hb
      rw [SimFlash.programFrom, SimFlash.programFrom_read_other _ _ _ _ _ _ (d.store_wf hm _ _), SimFlash.store_read _ hm]
      · simp only [Nat.add_zero] at hs
        simp [hs]
      · intro j hj he
        have := SimFlash.programAddr_inj a (by omega) (by omega) he
        omega
    | succ k =>
      have hk : k < bs.length := by
        by_contra hc
        simp [List.getElem?_eq_none (by omega : bs.length ≤ k)] at hb
      have hne : d.programAddr a (i + 1 + k) ≠ d.programAddr a i := fun he => by
        have := SimFlash.programAddr_inj a (by omega) (by omega) he
        omega
      rw [show i + (k + 1) = i + 1 + k by omega, SimFlash.programFrom,
        ih _ _ k b (d.store_wf hm _ _) (by omega) (by simpa using hb) (by rwa [show i + 1 + k = i + (k + 1) by omega]),
        SimFlash.store_read _ hm, if_neg fun h => hne h.1]

end Sys2Proof.Machine
end

