-- ==== Sys2Proof/Laws/Exec.lean ====
section
/-! SUPPORT. One inversion lemma for all instructions: what a next state of `exec` can be. -/

namespace Sys2Proof.Machine

open Host (Outcome)

/-- A host operation behind the gate, the command it sends and its payload phase (43_operations.md R198 to R200). -/
def Gated (s : State) : Instr → List Byte → Payload → Prop
  | .eraseBlock a, h, p => h = encodeHeader s.eraseChip .eraseBlock (wireAddr a) ∧ p = .none ∧
      checkErase s.geom a.toNat = none
  | .eraseAll, h, p => h = encodeHeader s.eraseChip .eraseChip 0 ∧ p = .none
  | .program a buf, h, p => h = encodeHeader s.eraseChip .programPage (wireAddr a) ∧ p = .write buf ∧
      checkProgram s.geom a.toNat buf.length = none
  | _, _, _ => False

/-- The transaction a wire command of the core sends that may change the array (30_encoding.md R106). -/
def LoneMutation : Instr → List Byte → Payload → Prop
  | .wireEraseBlock a, h, p => h = 0xD8 :: addrBytes24 a ∧ p = .none
  | .wireEraseChip, h, p => h = [0xC7] ∧ p = .none
  | .wireEraseChipAlt, h, p => h = [0x60] ∧ p = .none
  | .wireProgramPage a data, h, p => h = 0x02 :: addrBytes24 a ∧ p = .write data
  | _, _, _ => False

/-- What a wire command the core never emits puts on the wire (30_encoding.md R114). -/
def Unemitted : Instr → List Byte → Prop
  | .wireWriteDisable rest, bs => bs = 0x04 :: rest
  | .wireWriteStatus rest, bs => bs = 0x01 :: rest
  | .wireReadDataFast rest, bs => bs = 0x0B :: rest
  | .wireReadDataFastDual rest, bs => bs = 0x3B :: rest
  | .wireEraseSector rest, bs => bs = 0x20 :: rest
  | .wirePowerDown rest, bs => bs = 0xB9 :: rest
  | .wirePowerUp rest, bs => bs = 0xAB :: rest
  | _, _ => False

/-- The errors that the mode test and the checks in front of the bus answer with are none of these four codes. -/
abbrev BeforeTheBus (c : ResultCode) : Prop :=
  c ∉ [.ok, .transportError, .deviceBusy, ResultCode.implausibleId]

/-- What a next state of an instruction can be. -/
inductive Did (s t : State) (i : Instr) : Prop where
  /-- an error before the bus: nothing but the response and the walk -/
  | refused (u : State) (r : Reply) (hu : u = s.checked ∨ u = { s with phases := [.idle] })
      (hc : BeforeTheBus r.code) (ht : t = u.respond r)
  /-- a successful `configure` -/
  | configured (ps ebs ts : XWord) (hi : i = .configure ps ebs ts) (hm : s.mode = .unconfigured)
      (hg : checkGeometry ps ebs ts = none)
      (ht : t = (s.checked.setGeometry (deriveGeometry ps ebs ts)).respond { code := .ok })
  /-- one transaction, outside the gate -/
  | exchanged (header : List Byte) (p : Payload) (c : Command) (o : Option Addr24) (u : State) (m : Bool × List Byte)
      (r : Reply) (hm : s.mode = .ready) (hh : decodeHeader header = some (c, o)) (hf : p.fits c)
      (hk : Quiet header ∧ p.written = [] ∨ LoneMutation i header p)
      (hT : Transacted (s.checked.enter .cmd) u header p m)
      (hc : r.code ∈ [.ok, .transportError, ResultCode.implausibleId]) (hi : mayChangeFlash i = true → isHostOp i = false)
      (hn : ∀ ps ebs ts, i ≠ .configure ps ebs ts) (ht : t = u.respond r)
  /-- the gate stopped the operation -/
  | stopped (header : List Byte) (p : Payload) (u : State) (r : Reply) (hm : s.mode = .ready) (hi : Gated s i header p)
      (hG : GateStopped s.checked u r) (ht : t = u.respond r)
  /-- the gate let the operation pass -/
  | passed (header : List Byte) (p : Payload) (c : Command) (o : Option Addr24) (u : State) (r : Reply)
      (hm : s.mode = .ready) (hi : Gated s i header p) (hh : decodeHeader header = some (c, o)) (hf : p.fits c)
      (hG : GatePassed s.checked u header p r) (ht : t = u.respond r)
  /-- a transport call was never answered -/
  | hung (hm : s.mode = .ready) (hH : Hung s t)
  /-- a transaction the core never makes, on a transport that is the core's alone: nothing -/
  | unsent (bytes : List Byte) (hi : Unemitted i bytes) (hs : s.seq = .idle) (hx : s.exclusive = true) (ht : t = s)
  /-- the same on a transport that is not -/
  | device (bytes : List Byte) (hi : Unemitted i bytes) (hs : s.seq = .idle) (hx : s.exclusive = false)
      (ht : t = s.onDevice fun d => d.receive bytes)

theorem Hung.of_checked {s t : State} (h : Hung s.checked t) : Hung s t :=
  ⟨(Steady.checked s).trans h.steady, h.busy, h.mem, h.trace⟩

/-- An operation that is a shape check and one transaction, outside the gate. -/
theorem exchange_did {s t : State} {i : Instr} {header : List Byte} {p : Payload} {c : Command} {o : Option Addr24}
    {e : Reply} {chk : Option ResultCode} {K : State → Call Reply} (f : Bool × List Byte → Reply)
    (hh : decodeHeader header = some (c, o)) (hf : p.fits c)
    (hk : Quiet header ∧ p.written = [] ∨ LoneMutation i header p) (he : BeforeTheBus e.code)
    (hchk : ∀ r, chk = some r → BeforeTheBus r)
    (hc : ∀ m, (f m).code ∈ [.ok, .transportError, ResultCode.implausibleId])
    (hi : mayChangeFlash i = true → isHostOp i = false) (hn : ∀ ps ebs ts, i ≠ .configure ps ebs ts)
    (hK : K s.checked =
      ifShaped chk s.checked fun u => (transaction header p (u.enter .cmd)).bind fun m s => .done (f m) s)
    (h : perform s (fun s => ifReady e s K) = .next t) : Did s t i := by
  cases chk with
  | some r =>
    have := (perform_ifReady_sat (P := fun q u => q = { code := r } ∧ u = s.checked) (H := fun _ => False) h
      (by rw [hK]; exact ⟨rfl, rfl⟩)).2
    rcases this with ⟨-, ht⟩ | ⟨-, ⟨q, u, ⟨rfl, rfl⟩, ht⟩ | hH⟩
    · exact .refused _ e (.inl rfl) he ht
    · exact .refused _ _ (.inl rfl) (hchk r rfl) ht
    · exact hH.elim
  | none =>
    have := (perform_ifReady_sat (P := fun r u => ∃ m, Transacted (s.checked.enter .cmd) u header p m ∧ r = f m)
      (H := Hung s.checked) h (by rw [hK]; exact (cmd_sat hh hf s.checked).bind fun m u hT => ⟨m, hT, rfl⟩)).2
    rcases this with ⟨-, ht⟩ | ⟨hm, ⟨r, u, ⟨m, hT, rfl⟩, ht⟩ | hH⟩
    · exact .refused _ e (.inl rfl) he ht
    · exact .exchanged header p c o u m _ hm hh hf hk hT (hc m) hi hn ht
    · exact .hung hm hH.of_checked

/-- The replies of a body behind a transaction, as one function of what the transaction gave. -/
theorem Call.bind_reply {α : Type} (c : Call α) {k : α → State → Call Reply} (f : α → Reply)
    (h : ∀ a s, k a s = .done (f a) s) : c.bind k = c.bind fun a s => .done (f a) s := by
  cases c <;> simp [h]

/-- An operation behind the gate. -/
theorem gated_did {s t : State} {i : Instr} {p : Payload} {c : Command} {a : Addr24} {e : Reply}
    {chk : State → Option ResultCode} (he : BeforeTheBus e.code)
    (hchk : ∀ r, chk s.checked = some r → BeforeTheBus r) (hf : p.fits c) (hg : chk s.checked = none → Gated s i (encodeHeader s.eraseChip c a) p)
    (h : perform s (fun s => ifReady e s fun s => ifShaped (chk s) s (gatedCommand c a p)) = .next t) : Did s t i := by
  cases hk : chk s.checked with
  | some r =>
    have := (perform_ifReady_sat (P := fun q u => q = { code := r } ∧ u = s.checked) (H := fun _ => False) h
      (by rw [hk]; exact ⟨rfl, rfl⟩)).2
    rcases this with ⟨-, ht⟩ | ⟨-, ⟨q, u, ⟨rfl, rfl⟩, ht⟩ | hH⟩
    · exact .refused _ e (.inl rfl) he ht
    · exact .refused _ _ (.inl rfl) (hchk r hk) ht
    · exact hH.elim
  | none =>
    have := (perform_ifReady_sat (H := Hung s.checked) h (by rw [hk]; exact gatedCommand_sat a hf s.checked)).2
    rcases this with ⟨-, ht⟩ | ⟨hm, ⟨q, u, hG | hG, ht⟩ | hH⟩
    · exact .refused _ e (.inl rfl) he ht
    · exact .stopped _ p u q hm (hg hk) hG ht
    · exact .passed _ p c _ u q hm (hg hk) (decodeHeader_encodeHeader _ c a) hf hG ht
    · exact .hung hm hH.of_checked

theorem checkErase_code {g : Geometry} {a : Nat} {r : ResultCode} (h : checkErase g a = some r) :
    r = .misaligned ∨ r = .outOfRange := by
  unfold checkErase at h; split at h
  · simp_all
  · split at h <;> simp_all

theorem checkProgram_code {g : Geometry} {a n : Nat} {r : ResultCode} (h : checkProgram g a n = some r) :
    r = .outOfRange ∨ r = .pageBoundaryCrossed := by
  unfold checkProgram at h; split at h
  · simp_all
  · split at h <;> simp_all

theorem checkRead_code {g : Geometry} {a n : Nat} {r : ResultCode} (h : checkRead g a n = some r) :
    r = .outOfRange := by
  unfold checkRead at h; split at h <;> simp_all

theorem checkGeometry_code {ps ebs ts : XWord} {r : ResultCode} (h : checkGeometry ps ebs ts = some r) :
    r = .zeroPageSize ∨ r = .pageExceedsBlock ∨ r = .blockExceedsDevice := by
  unfold checkGeometry at h; split at h
  · simp_all
  · split at h
    · simp_all
    · split at h <;> simp_all

theorem configureBody_start (ps ebs ts : XWord) (s : State) :
    configureBody ps ebs ts { s with phases := [.idle] } =
      match s.mode with
      | .ready => .done { code := .alreadyConfigured } s.checked
      | .unconfigured => ifShaped (checkGeometry ps ebs ts) s.checked fun u =>
          .done { code := .ok } (u.setGeometry (deriveGeometry ps ebs ts)) := rfl

theorem execConfigure_did {ps ebs ts : XWord} {s t : State} (h : execConfigure ps ebs ts s = .next t) :
    Did s t (.configure ps ebs ts) := by
  have hp := (perform_next h).2
  rw [configureBody_start] at hp
  cases hm : s.mode with
  | ready =>
    simp only [hm, Call.done.injEq, reduceCtorEq, or_false] at hp
    obtain ⟨r, u, ⟨rfl, rfl⟩, ht⟩ := hp
    exact .refused s.checked { code := .alreadyConfigured } (.inl rfl) (by decide) ht
  | unconfigured =>
    simp only [hm] at hp
    cases hc : checkGeometry ps ebs ts with
    | none =>
      simp only [hc, ifShaped_none, Call.done.injEq, reduceCtorEq, or_false] at hp
      obtain ⟨r, u, ⟨rfl, rfl⟩, ht⟩ := hp
      exact .configured ps ebs ts rfl hm hc ht
    | some e =>
      simp only [hc, ifShaped_some, Call.done.injEq, reduceCtorEq, or_false] at hp
      obtain ⟨r, u, ⟨rfl, rfl⟩, ht⟩ := hp
      refine .refused s.checked { code := e } (.inl rfl) ?_ ht
      rcases checkGeometry_code hc with rfl | rfl | rfl <;> decide

theorem illegalOp_did {s t : State} {i : Instr} (h : illegalOp s = .next t) : Did s t i := by
  obtain ⟨-, ⟨r, u, hb, ht⟩ | hb⟩ := perform_next h
  · simp only [raise, Call.done.injEq] at hb
    obtain ⟨rfl, rfl⟩ := hb
    exact .refused { s with phases := [.idle] } { code := .illegalOp } (.inr rfl) (by decide) ht
  · cases hb

theorem lone_did {s t : State} {i : Instr} {header : List Byte} {p : Payload} {c : Command} {o : Option Addr24}
    {reply : List Byte → Reply} (hh : decodeHeader header = some (c, o)) (hf : p.fits c)
    (hk : Quiet header ∧ p.written = [] ∨ LoneMutation i header p) (hr : ∀ bs, (reply bs).code = .ok)
    (hi : isHostOp i = false) (h : lone header p reply s = .next t) : Did s t i := by
  refine exchange_did (chk := none) (fun m => if m.1 then reply m.2 else { code := .transportError }) hh hf hk
    (by decide) (by simp) (fun m => ?_) (fun _ => hi) (fun _ _ _ hc => by subst hc; simp [isHostOp] at hi) ?_ h
  · cases hm : m.1 <;> simp [hr]
  · exact Call.bind_reply _ _ fun m s => by split <;> rfl

theorem deviceOnly_did {s t : State} {i : Instr} {bytes : List Byte} (hi : Unemitted i bytes)
    (h : deviceOnly bytes s = .next t) : Did s t i := by
  obtain ⟨hs, ⟨hx, ht⟩ | ⟨hx, ht⟩⟩ := deviceOnly_next h
  · exact .unsent bytes hi hs hx ht
  · exact .device bytes hi hs hx ht

/-- What a next state of any instruction can be. -/
theorem exec_did {i : Instr} {s t : State} (h : exec i s = .next t) : Did s t i := by
  cases i with
  | configure ps ebs ts => exact execConfigure_did h
  | readStatus =>
    refine exchange_did (chk := none) (header := [0x05]) (p := .read 1) (c := .readStatus) (o := none)
      (fun m => if m.1 then { code := .ok, status := some (m.2.getD 0 0) } else { code := .transportError })
      rfl (.inl ⟨rfl, rfl⟩) (.inl ⟨.inl rfl, rfl⟩) (by decide) (by simp) (fun m => ?_) (by simp [mayChangeFlash]) (by simp)
      ?_ h
    · cases m.1 <;> simp
    · rw [readStatusProc, Call.bind_assoc]
      exact Call.bind_reply _ _ fun m s => by simp only [Call.bind_done]; split <;> rfl
  | isBusy =>
    refine exchange_did (chk := none) (header := [0x05]) (p := .read 1) (c := .readStatus) (o := none)
      (fun m => { code := .ok, busy := some (!m.1 || busyBit (m.2.getD 0 0)) })
      rfl (.inl ⟨rfl, rfl⟩) (.inl ⟨.inl rfl, rfl⟩) (by decide) (by simp) (fun m => by simp) (by simp [mayChangeFlash])
      (by simp) ?_ h
    rw [isBusyProc, readStatusProc, Call.bind_assoc, Call.bind_assoc]
    exact Call.bind_reply _ _ fun m s => rfl
  | writeEnable =>
    refine exchange_did (chk := none) (header := [0x06]) (p := .none) (c := .writeEnable) (o := none)
      (fun m => { code := foldedCode m.1 })
      rfl (.inl rfl) (.inl ⟨.inr (.inl rfl), rfl⟩) (by decide) (by simp) (fun m => ?_) (by simp [mayChangeFlash]) (by simp)
      ?_ h
    · cases hm : m.1 <;> simp [foldedCode]
    · rw [writeEnableProc, Call.bind_assoc]
      exact Call.bind_reply _ _ fun m s => rfl
  | identify =>
    refine exchange_did (chk := none) (header := [0x9F]) (p := .read 3) (c := .readJedecId) (o := none)
      (fun m => if !m.1 then { code := .transportError } else if !plausible m.2 then { code := .implausibleId }
        else { code := .ok, id := some (decodeId (m.2.getD 0 0) (m.2.getD 1 0) (m.2.getD 2 0)) })
      rfl (.inr (.inl ⟨rfl, rfl⟩)) (.inl ⟨.inr (.inr (.inl rfl)), rfl⟩) (by decide) (by simp) (fun m => ?_)
      (by simp [mayChangeFlash]) (by simp) ?_ h
    · cases m.1 <;> cases plausible m.2 <;> simp
    · exact Call.bind_reply _ _ fun m s => by split <;> [rfl; split <;> rfl]
  | read a n =>
    refine exchange_did (chk := checkRead s.geom a.toNat n.toNat) (header := 0x03 :: addrBytes24 (wireAddr a))
      (p := .read n.toNat) (c := .readData) (o := some (wireAddr a))
      (fun m => if m.1 then { code := .ok, rbuf := some m.2 } else { code := .transportError })
      (decodeHeader_encodeHeader .c7 .readData (wireAddr a)) (.inr (.inr rfl))
      (.inl ⟨.inr (.inr (.inr ⟨_, rfl⟩)), rfl⟩) (by decide) (fun r hr => by rw [checkRead_code hr]; decide) (fun m => ?_)
      (by simp [mayChangeFlash]) (by simp) ?_ h
    · cases m.1 <;> simp
    · congr 1
      funext u
      exact Call.bind_reply _ _ fun m s => by split <;> rfl
  | eraseBlock a =>
    exact gated_did (c := .eraseBlock) (p := .none) (chk := fun s => checkErase s.geom a.toNat) (by decide)
      (fun r hr => by rcases checkErase_code hr with rfl | rfl <;> decide) (.inr (.inr rfl)) (fun hc => ⟨rfl, rfl, hc⟩) h
  | eraseAll =>
    exact gated_did (c := .eraseChip) (p := .none) (chk := fun _ => none) (by decide) (by simp) (.inr (.inl rfl)) (fun hc => ⟨rfl, rfl⟩) h
  | program a buf =>
    exact gated_did (c := .programPage) (p := .write buf) (chk := fun s => checkProgram s.geom a.toNat buf.length) (by decide)
      (fun r hr => by rcases checkProgram_code hr with rfl | rfl <;> decide) rfl (fun hc => ⟨rfl, rfl, hc⟩) h
  | reserved9 => exact illegalOp_did h
  | reserved10 => exact illegalOp_did h
  | reserved11 => exact illegalOp_did h
  | reserved12 => exact illegalOp_did h
  | reserved13 => exact illegalOp_did h
  | reserved14 => exact illegalOp_did h
  | reserved15 => exact illegalOp_did h
  | wireWriteEnable =>
    exact lone_did (p := .none) (reply := fun _ => { code := .ok }) (c := .writeEnable) (o := none) rfl (.inl rfl) (.inl ⟨.inr (.inl rfl), rfl⟩) (fun _ => rfl) rfl h
  | wireWriteDisable rest => exact deviceOnly_did rfl h
  | wireReadStatus =>
    exact lone_did (p := .read 1) (reply := fun rs => { code := .ok, status := some (rs.getD 0 0) }) (c := .readStatus) (o := none) rfl (.inl ⟨rfl, rfl⟩) (.inl ⟨.inl rfl, rfl⟩) (fun _ => rfl) rfl h
  | wireWriteStatus rest => exact deviceOnly_did rfl h
  | wireReadData a n =>
    exact lone_did (p := .read n.toNat) (reply := fun rs => { code := .ok, rbuf := some rs })
      (decodeHeader_encodeHeader .c7 .readData a) (.inr (.inr rfl))
      (.inl ⟨.inr (.inr (.inr ⟨_, rfl⟩)), rfl⟩) (fun _ => rfl) rfl h
  | wireReadDataFast rest => exact deviceOnly_did rfl h
  | wireReadDataFastDual rest => exact deviceOnly_did rfl h
  | wireProgramPage a data =>
    exact lone_did (p := .write data) (reply := fun _ => { code := .ok })
      (decodeHeader_encodeHeader .c7 .programPage a) rfl (.inr ⟨rfl, rfl⟩) (fun _ => rfl) rfl h
  | wireEraseSector rest => exact deviceOnly_did rfl h
  | wireEraseBlock a =>
    exact lone_did (p := .none) (reply := fun _ => { code := .ok })
      (decodeHeader_encodeHeader .c7 .eraseBlock a) (.inr (.inr rfl)) (.inr ⟨rfl, rfl⟩) (fun _ => rfl) rfl h
  | wireEraseChip =>
    exact lone_did (p := .none) (reply := fun _ => { code := .ok })
      (decodeHeader_encodeHeader .c7 .eraseChip 0) (.inr (.inl rfl)) (.inr ⟨rfl, rfl⟩) (fun _ => rfl) rfl h
  | wireEraseChipAlt =>
    exact lone_did (p := .none) (reply := fun _ => { code := .ok })
      (decodeHeader_encodeHeader .x60 .eraseChip 0) (.inr (.inl rfl)) (.inr ⟨rfl, rfl⟩) (fun _ => rfl) rfl h
  | wirePowerDown rest => exact deviceOnly_did rfl h
  | wirePowerUp rest => exact deviceOnly_did rfl h
  | wireReadJedecId =>
    exact lone_did (p := .read 3) (reply := fun rs => { code := .ok, rbuf := some rs }) (c := .readJedecId) (o := none) rfl (.inr (.inl ⟨rfl, rfl⟩)) (.inl ⟨.inr (.inr (.inl rfl)), rfl⟩)
      (fun _ => rfl) rfl h

end Sys2Proof.Machine
end

