-- ==== Sys2Proof/Laws/Operands.lean ====
section
/-! SUPPORT. The request-shape checks and the derived geometry: when a check passes, and what a geometry that passes is. -/

namespace Sys2Proof.Machine

theorem checkRead_none {g : Geometry} {a n : Nat} :
    checkRead g a n = none ↔ a + n < g.endAddress.toNat := by
  unfold checkRead; split <;> simp <;> omega

theorem checkErase_none {g : Geometry} {a : Nat} :
    checkErase g a = none ↔ a &&& (g.eraseBlockSize.toNat - 1) = 0 ∧ a < g.endAddress.toNat := by
  unfold checkErase; split
  · simp_all
  · split <;> simp_all

theorem checkProgram_none {g : Geometry} {a n : Nat} :
    checkProgram g a n = none ↔ a < g.endAddress.toNat ∧ n ≤ g.pageSize.toNat - pageOffset g a := by
  unfold checkProgram; split
  · simp; omega
  · split <;> simp <;> omega

theorem checkGeometry_none {ps ebs ts : XWord} :
    checkGeometry ps ebs ts = none ↔ 0 < ps.toNat ∧ ps.toNat ≤ ebs.toNat ∧ ebs.toNat ≤ ts.toNat := by
  unfold checkGeometry
  split
  · simp; omega
  · split
    · simp; omega
    · split <;> simp <;> omega

/-- The last addressable byte never lies past the size that was asked for (40_geometry.md R143). -/
theorem endAddress_le (p e t : Nat) : p * (e / p) * (t / e) ≤ t :=
  calc p * (e / p) * (t / e) ≤ e * (t / e) := Nat.mul_le_mul_right _ (Nat.mul_div_le _ _)
    _ ≤ t := Nat.mul_div_le _ _

/-- The derived quantities fit their registers, so they are the exact quotients and product (00_scope.md R15). -/
theorem deriveGeometry_exact (ps ebs ts : XWord) :
    (deriveGeometry ps ebs ts).pagesPerBlock.toNat = ebs.toNat / ps.toNat ∧
    (deriveGeometry ps ebs ts).blockCount.toNat = ts.toNat / ebs.toNat ∧
    (deriveGeometry ps ebs ts).endAddress.toNat = ps.toNat * (ebs.toNat / ps.toNat) * (ts.toNat / ebs.toNat) := by
  have h1 := lt_of_le_of_lt (Nat.div_le_self ebs.toNat ps.toNat) ebs.isLt
  have h2 := lt_of_le_of_lt (Nat.div_le_self ts.toNat ebs.toNat) ts.isLt
  have h3 := lt_of_le_of_lt (endAddress_le ps.toNat ebs.toNat ts.toNat) ts.isLt
  exact ⟨by simpa [deriveGeometry] using h1, by simpa [deriveGeometry] using h2, by simpa [deriveGeometry] using h3⟩

/-- What a mask test says of a power of two. -/
theorem mask_eq_mod {x n : Nat} (h : ∃ j, n = 2 ^ j) : x &&& (n - 1) = x % n := by
  obtain ⟨j, rfl⟩ := h
  exact Nat.and_two_pow_sub_one_eq_mod x j

end Sys2Proof.Machine
end

