-- ==== Sys2Proof/Tests/Slice0.lean ====
section
/-! SUPPORT. The model's own tests. Expected results come from the tables of spec/ (95_test_vectors.md unless another file is
named). The witnesses at the end show that the hypotheses of each statement can be met together. -/

namespace Sys2Proof.Machine.Tests

open Host (Outcome)

/-! ## Helpers -/

/-- The outcome is a next state with this property. -/
def next (o : Outcome State Fault Refusal) (p : State → Bool) : Bool :=
  match o with
  | .next t => p t
  | .fault _ => false
  | .refused _ => false

theorem exists_next {o : Outcome State Fault Refusal} {p : State → Bool} (h : next o p = true) :
    ∃ t, o = .next t ∧ p t = true := by
  cases o with
  | next t => exact ⟨t, rfl, h⟩
  | fault r => cases h
  | refused r => cases h

/-- The answer to a call that has no result. -/
def done : Answer := .returns 0 []

/-- The answers to a status read, a write-enable, a command header, and a command with a written payload. -/
def statusAnswers (c1 c2 : Nat) (b : Byte) : List Answer := [done, .returns c1 [], .returns c2 [b], done]
def headerAnswers (c : Nat) : List Answer := [done, .returns c [], done]
def payloadAnswers (c1 c2 : Nat) : List Answer := [done, .returns c1 [], .returns c2 [], done]

/-- A `Ready` core with the geometry of the source's scenario, in an environment that answers as scripted. -/
def scripted (script : List Answer) : State :=
  { State.reset with
    mode := .ready, geom := deriveGeometry 256 0x8000 0x80000, env := { State.reset.env with script := script } }

/-- The device S2 of program P3, with four bytes that are not erased. -/
def deviceS2 (wel wip : Bool) : SimFlash :=
  { size := ⟨256, by decide⟩, page := ⟨16, by decide⟩, block := ⟨64, by decide⟩,
    ident := { b0 := 0xC2, b1 := 0x20, b2 := 0x11 },
    mem := [(0x3F, 0x00), (0x40, 0x00), (0x7F, 0x0F), (0x80, 0x00)], wel := wel, wip := wip, tx := [], rdn := 0 }

/-- A `Ready` core with the geometry of program P3 on that device. -/
def onS2 (wel wip : Bool) : State :=
  { State.reset with
    mode := .ready, geom := deriveGeometry 16 64 256
    env := { kind := .simFlash, script := [], completions := [], dev := deviceS2 wel wip } }

/-- The same on a transport the core does not own. -/
def shared (wel wip : Bool) : State := { onS2 wel wip with exclusive := false }

/-- An input in front of a state. -/
def given (s : State) (i : Input) : State := { s with inputs := [i] }

/-! ## Well-formedness -/

theorem test_wf_rejects_payload_of_two_to_the_32 :
    Instr.wf (.program 0 (List.replicate (2 ^ 32) 0)) = false := by
  rw [Instr.wf, List.length_replicate]; rfl

theorem test_wf_accepts_hello : Instr.wf (.program 0x18000 [0x48, 0x65, 0x6C, 0x6C, 0x6F]) = true := by decide

/-! ## Decoding: every constructor from a word written out from 30_encoding.md R101, R102, R104, R117 and R118 -/

def hostReq (op : BitVec 4) : Fetched := .host { op := op, arg0 := 0x11, arg1 := 0x22, arg2 := 0x33, wbuf := [0x44] }
def frame (bs : List Byte) : Fetched := .wire { bytes := bs, len := 5 }

theorem test_decode_host :
    decode (hostReq 0) = .ok (.configure 0x11 0x22 0x33) ∧ decode (hostReq 1) = .ok .readStatus ∧
    decode (hostReq 2) = .ok .isBusy ∧ decode (hostReq 3) = .ok .writeEnable ∧ decode (hostReq 4) = .ok .identify ∧
    decode (hostReq 5) = .ok (.read 0x11 0x22) ∧ decode (hostReq 6) = .ok (.eraseBlock 0x11) ∧
    decode (hostReq 7) = .ok .eraseAll ∧ decode (hostReq 8) = .ok (.program 0x11 [0x44]) := by decide

theorem test_decode_reserved :
    decode (hostReq 9) = .ok .reserved9 ∧ decode (hostReq 10) = .ok .reserved10 ∧
    decode (hostReq 11) = .ok .reserved11 ∧ decode (hostReq 12) = .ok .reserved12 ∧
    decode (hostReq 13) = .ok .reserved13 ∧ decode (hostReq 14) = .ok .reserved14 ∧
    decode (hostReq 15) = .ok .reserved15 := by decide

theorem test_decode_emitted :
    decode (frame [0x06]) = .ok .wireWriteEnable ∧ decode (frame [0x05]) = .ok .wireReadStatus ∧
    decode (frame [0x9F]) = .ok .wireReadJedecId ∧ decode (frame [0xC7]) = .ok .wireEraseChip ∧
    decode (frame [0x60]) = .ok .wireEraseChipAlt ∧
    decode (frame [0x03, 0x01, 0x23, 0x45]) = .ok (.wireReadData 0x012345 5) ∧
    decode (frame [0x02, 0x00, 0x00, 0xFF, 0xAA]) = .ok (.wireProgramPage 0x0000FF [0xAA]) ∧
    decode (frame [0xD8, 0x07, 0x80, 0x00]) = .ok (.wireEraseBlock 0x078000) := by decide

theorem test_decode_unemitted :
    decode (frame [0x04]) = .ok (.wireWriteDisable []) ∧ decode (frame [0x01, 0x1C]) = .ok (.wireWriteStatus [0x1C]) ∧
    decode (frame [0x0B]) = .ok (.wireReadDataFast []) ∧ decode (frame [0x3B]) = .ok (.wireReadDataFastDual []) ∧
    decode (frame [0x20, 0x00, 0x10, 0x00]) = .ok (.wireEraseSector [0x00, 0x10, 0x00]) ∧
    decode (frame [0xB9]) = .ok (.wirePowerDown []) ∧ decode (frame [0xAB]) = .ok (.wirePowerUp []) := by decide

theorem test_decode_rejects :
    decode (frame []) = .error .emptyTransaction ∧ decode (frame [0xE7]) = .error (.unknownOpcode 0xE7) ∧
    decode (frame [0x03]) = .error (.badHeader 0x03) ∧ decode (frame [0x06, 0, 0, 0]) = .error (.badHeader 0x06) := by
  decide

theorem test_decode_header :
    decodeHeader [0xD8, 0x01, 0x80, 0x00] = some (.eraseBlock, some 0x018000) ∧
    decodeHeader [0x60] = some (.eraseChip, none) ∧ decodeHeader [0x03] = none ∧
    decodeHeader [0x20, 0x00, 0x10, 0x00] = none ∧
    decodeHeader (encodeHeader .c7 .programPage (wireAddr 0x01ABCDEF)) = some (.programPage, some 0xABCDEF) := by decide

theorem test_encode_header :
    encodeHeader .c7 .readData (wireAddr 0x1000000) = [0x03, 0x00, 0x00, 0x00] ∧
    encodeHeader .c7 .eraseBlock (wireAddr 0x12345678) = [0xD8, 0x34, 0x56, 0x78] ∧
    encodeHeader .x60 .eraseChip 0 = [0x60] := by decide

theorem test_decode_status :
    decodeStatus 0x1C = { wip := false, wel := false, bp := 0b0111, rsv := false, srp := false } ∧
    decodeStatus 0xFE = { wip := false, wel := true, bp := 0b1111, rsv := true, srp := true } := by decide

theorem test_table_words :
    decodeTableWord 4 8 = some (.program 0 []) ∧ decodeTableWord 8 0xC7 = some .wireEraseChip ∧
    decodeTableWord 32 0xD8018000 = some (.wireEraseBlock 0x018000) ∧ decodeTableWord 4 15 = some .reserved15 := by decide

theorem test_result_numbers :
    ResultCode.number .ok = 0 ∧ ResultCode.number .transportError = 7 ∧ ResultCode.number .illegalOp = 12 := by decide

/-! ## The checks (B4) -/

theorem test_check_read :
    checkRead (deriveGeometry 256 0x8000 0x80000) 0x7FFFE 1 = none ∧
    checkRead (deriveGeometry 256 0x8000 0x80000) 0x7FFFF 1 = some .outOfRange ∧
    checkRead (deriveGeometry 256 0x8000 0x80000) 0x10 0xFFFFFFFF = some .outOfRange := by decide

theorem test_check_erase_is_the_literal_mask :
    checkErase (deriveGeometry 256 1000 5000) 24 = none ∧
    checkErase (deriveGeometry 256 1000 5000) 1000 = some .misaligned ∧
    checkErase (deriveGeometry 256 1000 5000) 4096 = some .outOfRange := by decide

theorem test_check_program :
    checkProgram (deriveGeometry 3 10 100) 1 3 = none ∧
    checkProgram (deriveGeometry 3 10 100) 2 2 = some .pageBoundaryCrossed ∧
    checkProgram (deriveGeometry 256 0x8000 0x80000) 0x80000 300 = some .outOfRange := by decide

/-! ## The host operations (B1, B3, B5, P3, P4) -/

theorem test_configure_floors :
    next (exec (.configure 256 1000 5000) State.reset) (fun t =>
      t.mode == .ready && t.response.code == .ok && t.geom.pagesPerBlock == 3 && t.geom.blockCount == 5 &&
      t.geom.endAddress == 3840 && t.trace == []) = true := by decide

theorem test_configure_first_fault :
    next (exec (.configure 8 4 2) State.reset) (fun t =>
      t.mode == .unconfigured && t.response.code == .pageExceedsBlock) = true := by decide

theorem test_read_status_raw_byte :
    next (exec .readStatus (scripted (statusAnswers 1 1 0xFF))) (fun t =>
      t.response.code == .ok && t.response.status == 0xFF && t.trace == statusEvents 1 1 0xFF) = true := by decide

theorem test_read_status_long_count :
    next (exec .readStatus (scripted (statusAnswers 1 2 0x00))) (fun t =>
      t.response.code == .transportError) = true := by decide

theorem test_is_busy_bit_zero_only :
    next (exec .isBusy (scripted (statusAnswers 1 1 0xFE))) (fun t =>
      t.response.code == .ok && t.response.busy == false) = true := by decide

theorem test_is_busy_failed_read :
    next (exec .isBusy (scripted (statusAnswers 0 1 0x00))) (fun t =>
      t.response.code == .ok && t.response.busy == true) = true := by decide

theorem test_write_enable_short :
    next (exec .writeEnable (scripted (headerAnswers 0))) (fun t =>
      t.response.code == .transportError && t.trace == wrenEvents 0 && t.cs == false) = true := by decide

theorem test_identify_parsed :
    next (exec .identify (scripted [done, .returns 1 [], .returns 3 [0xEF, 0x40, 0x13], done])) (fun t =>
      t.response.code == .ok &&
      t.response.id == { reserved := 0x00, manufacturer := 0xEF, device := 0x40, capacity := 0x13 }) = true := by decide

theorem test_identify_implausible :
    next (exec .identify (scripted [done, .returns 1 [], .returns 3 [0xC2, 0xFF, 0x11], done])) (fun t =>
      t.response.code == .implausibleId) = true := by decide

theorem test_read_returns_bytes :
    next (exec (.read 0x7FFFE 1) (scripted [done, .returns 4 [], .returns 1 [0x5A], done])) (fun t =>
      t.response.code == .ok && t.response.rbuf == [0x5A] &&
      t.trace == [.opened, .wrote [0x03, 0x07, 0xFF, 0xFE] 4, .readBack 1 1 [0x5A], .closed]) = true := by decide

theorem test_read_empty_makes_its_call :
    next (exec (.read 0 0) (scripted [done, .returns 4 [], .returns 0 [], done])) (fun t =>
      t.response.code == .ok && t.response.rbuf == [] &&
      t.trace == [.opened, .wrote [0x03, 0, 0, 0] 4, .readBack 0 0 [], .closed]) = true := by decide

theorem test_erase_block_long_count :
    next (exec (.eraseBlock 0x18000) (scripted (statusAnswers 1 1 0x00 ++ headerAnswers 1 ++ headerAnswers 5))) (fun t =>
      t.response.code == .transportError &&
      t.trace == statusEvents 1 1 0x00 ++ wrenEvents 1 ++
        [.opened, .wrote [0xD8, 0x01, 0x80, 0x00] 5, .closed]) = true := by decide

theorem test_erase_block_on_device :
    next (exec (.eraseBlock 0x40) (onS2 false false)) (fun t =>
      t.response.code == .ok && t.env.dev.mem == [(0x3F, 0x00), (0x80, 0x00)] && t.env.dev.wel && t.env.dev.wip) =
      true := by decide

theorem test_erase_all_failed_write_enable_goes_on :
    next (exec .eraseAll (scripted (statusAnswers 1 1 0x02 ++ headerAnswers 0 ++ headerAnswers 1))) (fun t =>
      t.response.code == .transportError &&
      t.trace == statusEvents 1 1 0x02 ++ wrenEvents 0 ++ [.opened, .wrote [0xC7] 1, .closed]) = true := by decide

theorem test_erase_all_busy :
    next (exec .eraseAll (scripted (statusAnswers 1 0 0x00))) (fun t =>
      t.response.code == .deviceBusy && t.phases == [.idle, .check, .gateStatus, .respond, .idle]) = true := by decide

theorem test_program_payload_after_short_header :
    next (exec (.program 0x18000 [0xAA, 0xBB])
      (scripted (statusAnswers 1 1 0x00 ++ headerAnswers 1 ++ payloadAnswers 2 2))) (fun t =>
      t.response.code == .transportError &&
      t.trace == statusEvents 1 1 0x00 ++ wrenEvents 1 ++
        [.opened, .wrote [0x02, 0x01, 0x80, 0x00] 2, .wrote [0xAA, 0xBB] 2, .closed]) = true := by decide

theorem test_program_ands_on_device :
    next (exec (.program 0x7E [0x5A, 0x3C]) (onS2 false false)) (fun t =>
      t.response.code == .ok && t.env.dev.mem.read 0x7E == 0x5A && t.env.dev.mem.read 0x7F == 0x0C &&
      t.env.dev.mem.read 0x80 == 0x00 && t.env.dev.wip) = true := by decide

theorem test_reserved_selectors_illegal :
    [Instr.reserved9, .reserved10, .reserved11, .reserved12, .reserved13, .reserved14, .reserved15].all (fun i =>
      next (exec i State.reset) (fun t => t.response.code == .illegalOp && t.trace == [])) = true := by decide

/-! ## The wire rows alone (20_memory.md R90 to R95, 30_encoding.md R110, R114; logs 1 and 2) -/

theorem test_wire_write_enable :
    next (exec .wireWriteEnable (onS2 false false)) (fun t => t.response.code == .ok && t.env.dev.wel) = true := by decide

theorem test_wire_write_disable :
    exec (.wireWriteDisable []) (onS2 true false) = .next (onS2 true false) ∧
    next (exec (.wireWriteDisable []) (shared true false)) (fun t => t.env.dev.wel == false && t.trace == []) = true :=
  ⟨rfl, by decide⟩

theorem test_wire_read_status :
    next (exec .wireReadStatus (onS2 true false)) (fun t => t.response.status == 0x02) = true := by decide

theorem test_wire_read_jedec_id :
    next (exec .wireReadJedecId (onS2 false false)) (fun t => t.response.rbuf == [0xC2, 0x20, 0x11]) = true := by decide

theorem test_wire_read_data_wraps :
    next (exec (.wireReadData 0x17F 3) (onS2 false false)) (fun t => t.response.rbuf == [0x0F, 0x00, 0xFF]) = true := by
  decide

theorem test_wire_erase_needs_the_latch :
    next (exec (.wireEraseBlock 0x40) (onS2 false false)) (fun t => t.env.dev.mem == (deviceS2 false false).mem) = true ∧
    next (exec (.wireEraseBlock 0x7F) (onS2 true false)) (fun t => t.env.dev.mem == [(0x3F, 0x00), (0x80, 0x00)]) =
      true := by decide

theorem test_wire_erase_chip :
    next (exec .wireEraseChip (onS2 true false)) (fun t => t.env.dev.mem == [] && t.env.dev.wip) = true ∧
    next (exec .wireEraseChipAlt (onS2 true false)) (fun t => t.env.dev.mem == [] && t.env.dev.wip) = true := by decide

theorem test_wire_program_page_wraps_in_its_page :
    next (exec (.wireProgramPage 0x4F [0x11, 0x22]) (onS2 true false)) (fun t =>
      t.env.dev.mem.read 0x4F == 0x11 && t.env.dev.mem.read 0x40 == 0x00 && t.env.dev.mem.read 0x50 == 0xFF) = true := by
  decide

/-- A device whose last page is cut short: what would fall behind the end is not stored (R94; log 15), and a status read works
as on any device (R91). -/
theorem test_last_page_cut_short :
    let s := { onS2 true false with
      env := { (onS2 true false).env with dev := { deviceS2 true false with size := ⟨0x84, by decide⟩ } } }
    next (exec (.wireProgramPage 0x83 [0x11, 0x22]) s) (fun t =>
      t.env.dev.mem == [(0x3F, 0x00), (0x40, 0x00), (0x7F, 0x0F), (0x80, 0x00), (0x83, 0x11)] && t.env.dev.wip) = true ∧
    next (exec .readStatus s) (fun t => t.response.code == .ok && t.response.status == 0x02) = true := by decide

theorem test_wire_unemitted_change_nothing :
    [Instr.wireWriteStatus [0x1C], .wireReadDataFast [], .wireReadDataFastDual [], .wireEraseSector [0, 0, 0x40],
      .wirePowerDown [], .wirePowerUp []].all (fun i =>
      next (exec i (shared true false)) (fun t =>
        t.env.dev.mem == (deviceS2 true false).mem && t.env.dev.wel && t.env.dev.wip == false && t.trace == [])) = true := by
  decide

/-! ## Steps -/

theorem test_step_first_after_reset :
    next (step (State.reset.withFetchWord 4 4)) (fun t => t.response.code == .notConfigured && t.latch.op == 4) = true := by
  decide

theorem test_step_complete :
    next (step (given (onS2 true true) .complete)) (fun t => t.env.dev.wel == false && t.env.dev.wip == false) = true := by
  decide

theorem test_call_that_never_returns_hangs :
    next (exec .readStatus (scripted [done, .never])) (fun t =>
      t.seq == .cmd && t.trace == [.opened, ⟨.write [0x05], .never⟩]) = true := by decide

/-! ## Witnesses: for each statement with hypotheses, a state and operands that meet all of them together -/

theorem witness_WireDecodingKeepsEveryByte :
    decode (.wire { bytes := [0x03, 0x01, 0x80, 0x00], len := 256 }) = .ok (.wireReadData 0x018000 256) := by decide

theorem witness_OnlyHeadersDecode : decodeHeader [0xD8, 0x01, 0x80, 0x00] = some (.eraseBlock, some 0x018000) := by decide

theorem witness_StepRunsDecodedInstruction :
    let r : Request := { op := 1, arg0 := 0, arg1 := 0, arg2 := 0, wbuf := [] }
    let f : Frame := { bytes := [0x06], len := 0 }
    (given (scripted []) (.fetch (.host r))).seq = .idle ∧
      (given (scripted []) (.fetch (.host r))).inputs = .fetch (.host r) :: [] ∧ decode (.host r) = .ok .readStatus ∧
      (given (scripted []) (.fetch (.wire f))).seq = .idle ∧
      (given (scripted []) (.fetch (.wire f))).inputs = .fetch (.wire f) :: [] ∧
      decode (.wire f) = .ok .wireWriteEnable := by decide

theorem witness_IdleStepsWithoutInstruction :
    State.reset.seq = .idle ∧ State.reset.inputs = [] ∧
      (given State.reset (.fetch (.wire { bytes := [0xE7], len := 0 }))).inputs =
        .fetch (.wire { bytes := [0xE7], len := 0 }) :: [] ∧
      decode (.wire { bytes := [0xE7], len := 0 }) = .error (.unknownOpcode 0xE7) := by decide

theorem witness_ResetReturnsToUnconfigured :
    (given (scripted []) .reset).seq = .idle ∧ (given (scripted []) .reset).inputs = .reset :: [] := by decide

theorem witness_CompletionClearsBothLatches :
    let s := given (onS2 true true) .complete
    s.seq = .idle ∧ s.inputs = .complete :: [] ∧ s.env.kind = .simFlash ∧ s.env.dev.wip = true := by decide

theorem witness_NothingRunsWhileExecuting :
    let s := { given (scripted []) .reset with seq := .gateStatus }
    s.seq ≠ .idle ∧ s.inputs = .reset :: [] := by decide

theorem witness_UnansweredCallHangsForGood :
    ∃ t, exec .readStatus (scripted [done, .never]) = .next t ∧ t.seq ≠ .idle ∧ t.inputs = [] := by
  have h := exists_next (o := exec .readStatus (scripted [done, .never]))
    (p := fun t => decide (t.seq ≠ .idle ∧ t.inputs = [])) (by decide)
  simpa using h

theorem witness_UnconfiguredOperationsAreRefused :
    needsReady (.program 0 [0x00]) = true ∧ needsReady .isBusy = true ∧ State.reset.seq = .idle ∧
      State.reset.mode = .unconfigured := by decide

theorem witness_WireTransactionsNeedReady :
    isEmittedWire .wireReadJedecId = true ∧ State.reset.seq = .idle ∧ State.reset.mode = .unconfigured := by decide

theorem witness_ReservedSelectorsAreIllegal :
    State.reset.seq = .idle ∧ (scripted []).seq = .idle ∧ (scripted []).mode = .ready := by decide

theorem witness_OnlyConfigureWritesTheCore :
    (∃ t, exec (.configure 256 0x8000 0x80000) State.reset = .next t ∧ t.mode ≠ State.reset.mode) ∧
      ∃ t, exec .eraseAll (scripted (statusAnswers 1 1 0x01)) = .next t ∧ t.mode = .ready := by
  constructor
  · have h := exists_next (o := exec (.configure 256 0x8000 0x80000) State.reset)
      (p := fun t => decide (t.mode ≠ State.reset.mode)) (by decide)
    simpa using h
  · have h := exists_next (o := exec .eraseAll (scripted (statusAnswers 1 1 0x01)))
      (p := fun t => decide (t.mode = .ready)) (by decide)
    simpa using h

theorem witness_ReadyIsLeftByResetOnly :
    ∃ t, step (given (scripted []) .reset) = .next t ∧ (given (scripted []) .reset).mode = .ready ∧ t.mode ≠ .ready := by
  have h := exists_next (o := step (given (scripted []) .reset)) (p := fun t => decide (t.mode ≠ .ready)) (by decide)
  obtain ⟨t, ht, hp⟩ := h
  exact ⟨t, ht, rfl, of_decide_eq_true hp⟩

theorem witness_EarlyErrorsTouchNothing :
    isHostOp (.read 0x7FFFF 1) = true ∧
      ∃ t, exec (.read 0x7FFFF 1) (scripted []) = .next t ∧ t.seq = .idle ∧ t.response.code = .outOfRange := by
  have h := exists_next (o := exec (.read 0x7FFFF 1) (scripted []))
    (p := fun t => decide (t.seq = .idle ∧ t.response.code = .outOfRange)) (by decide)
  exact ⟨rfl, by simpa using h⟩

theorem witness_DeviceBusyAfterOneStatusRead :
    isHostOp .eraseAll = true ∧ ∃ t, exec .eraseAll (scripted (statusAnswers 1 1 0x01)) = .next t ∧ t.seq = .idle ∧
      t.response.code = .deviceBusy := by
  have h := exists_next (o := exec .eraseAll (scripted (statusAnswers 1 1 0x01)))
    (p := fun t => decide (t.seq = .idle ∧ t.response.code = .deviceBusy)) (by decide)
  exact ⟨rfl, by simpa using h⟩

theorem witness_ConfigureStoresGeometry :
    State.reset.seq = .idle ∧ State.reset.mode = .unconfigured ∧ 0 < (1 : XWord).toNat ∧
      (1 : XWord).toNat ≤ (1 : XWord).toNat := by decide

/-- At the edges of its ranges: a page size of 0, a block one byte too small, a device one byte too small. -/
theorem witness_ConfigureReportsFirstFault :
    (scripted []).seq = .idle ∧ (scripted []).mode = .ready ∧ State.reset.seq = .idle ∧
      State.reset.mode = .unconfigured ∧ (0 : XWord).toNat = 0 ∧
      (0 < (257 : XWord).toNat ∧ (256 : XWord).toNat < (257 : XWord).toNat) ∧
      (0 < (4 : XWord).toNat ∧ (4 : XWord).toNat ≤ (16 : XWord).toNat ∧ (15 : XWord).toNat < (16 : XWord).toNat) := by
  decide

theorem witness_LawsOfASuccessfulConfigure :
    ∃ t, exec (.configure 256 1000 5000) State.reset = .next t ∧ t.response.code = .ok := by
  have h := exists_next (o := exec (.configure 256 1000 5000) State.reset)
    (p := fun t => decide (t.response.code = .ok)) (by decide)
  simpa using h

/-- An environment that answers the next eleven calls, so the next three, four and ten too (ReadStatusAnswersRawByte,
IsBusyIsFailSafe, WriteEnableIsOneExchange, IdentifyChecksCountsThenBytes, EraseAllWalksTheGate, WireReadsRun,
WireWritesRun). -/
def answering : State := scripted (statusAnswers 1 1 0x00 ++ headerAnswers 1 ++ payloadAnswers 4 2)

theorem witness_CanRun (k : Nat) (hk : k ≤ 11) : answering.CanRun k := by
  have hs : ∀ a ∈ answering.env.script, a ≠ .never := by decide
  have hl : answering.env.script.length = 11 := by decide
  exact ⟨rfl, rfl, fun a ha => hs a (List.mem_of_mem_take ha),
    fun _ => .inl (hl ▸ hk)⟩

theorem witness_ReadOutOfRangeIsRefused :
    (scripted []).seq = .idle ∧ (scripted []).mode = .ready ∧
      (scripted []).geom.endAddress.toNat ≤ (0x80000 : XWord).toNat ∧
      (scripted []).geom.endAddress.toNat ≤ (0x7FFFF : XWord).toNat + (1 : XWord).toNat := by decide

theorem witness_EraseBlockChecksMaskThenRange :
    (scripted []).seq = .idle ∧ (scripted []).mode = .ready ∧
      (0x7FFF : XWord).toNat &&& ((scripted []).geom.eraseBlockSize.toNat - 1) ≠ 0 ∧
      (0x80000 : XWord).toNat &&& ((scripted []).geom.eraseBlockSize.toNat - 1) = 0 ∧
      (scripted []).geom.endAddress.toNat ≤ (0x80000 : XWord).toNat := by decide

theorem witness_ProgramChecksRangeThenPage :
    (scripted []).seq = .idle ∧ (scripted []).mode = .ready ∧
      (scripted []).geom.endAddress.toNat ≤ (0x80000 : XWord).toNat ∧
      (0x7FFFF : XWord).toNat < (scripted []).geom.endAddress.toNat ∧
      (scripted []).geom.pageSize.toNat - ((0x7FFFF : XWord).toNat &&& ((scripted []).geom.pageSize.toNat - 1)) <
        [(0x01 : Byte), 0x02].length := by decide

/-- The geometry of the scenario is legal, of power-of-two sizes that divide, and fits 24 bits. -/
theorem witness_geometry :
    (deriveGeometry 256 0x8000 0x80000).Legal ∧ (deriveGeometry 256 0x8000 0x80000).Fits24 ∧
      (∃ j, (deriveGeometry 256 0x8000 0x80000).pageSize.toNat = 2 ^ j) ∧
      (∃ k, (deriveGeometry 256 0x8000 0x80000).eraseBlockSize.toNat = 2 ^ k) ∧
      (deriveGeometry 256 0x8000 0x80000).pageSize.toNat ∣ (deriveGeometry 256 0x8000 0x80000).eraseBlockSize.toNat :=
  ⟨⟨by decide, by decide, by decide, by decide, by decide, by decide⟩, by unfold Geometry.Fits24; decide, ⟨8, by decide⟩,
    ⟨15, by decide⟩, ⟨128, by decide⟩⟩

/-- The last page and the last block pass their checks (AcceptedProgramStaysInside, AcceptedEraseStaysInside,
WireAddressIsExactWhenItFits, with `witness_geometry`). -/
theorem witness_accepted_requests :
    checkProgram (deriveGeometry 256 0x8000 0x80000) (0x7FF00 : XWord).toNat 256 = none ∧
      checkErase (deriveGeometry 256 0x8000 0x80000) (0x78000 : XWord).toNat = none ∧
      checkRead (deriveGeometry 256 0x8000 0x80000) (0x7FFFE : XWord).toNat 1 = none := by decide

theorem witness_ReadReturnsTheBytesReceived :
    answering.CanRun 4 ∧ (0x7FFFE : XWord).toNat + (1 : XWord).toNat < answering.geom.endAddress.toNat :=
  ⟨witness_CanRun 4 (by decide), by decide⟩

theorem witness_EraseBlockWalksTheGate :
    answering.CanRun 10 ∧ (0x78000 : XWord).toNat &&& (answering.geom.eraseBlockSize.toNat - 1) = 0 ∧
      (0x78000 : XWord).toNat < answering.geom.endAddress.toNat :=
  ⟨witness_CanRun 10 (by decide), by decide⟩

theorem witness_ProgramWalksTheGate :
    answering.CanRun 11 ∧ (0x7FFFF : XWord).toNat < answering.geom.endAddress.toNat ∧
      [(0x01 : Byte)].length ≤
        answering.geom.pageSize.toNat - ((0x7FFFF : XWord).toNat &&& (answering.geom.pageSize.toNat - 1)) :=
  ⟨witness_CanRun 11 (by decide), by decide⟩

/-- A `Ready` core on a device with no fault injected, busy or not (ReadsOnTheDevice, WriteEnableSetsTheLatch,
EraseAllErasesEverything, WireCommandsOnTheDevice). -/
theorem witness_OnDevice (wel wip : Bool) : (onS2 wel wip).OnDevice ∧ (onS2 wel wip).env.dev.wip = wip :=
  ⟨⟨rfl, rfl, rfl, rfl⟩, rfl⟩

theorem witness_FlashCanonical : (onS2 false false).FlashCanonical := by
  show Memory.wf (deviceS2 false false).mem
  decide

theorem witness_ReadsOnTheDevice :
    plausible [(onS2 false false).env.dev.ident.b0, (onS2 false false).env.dev.ident.b1,
      (onS2 false false).env.dev.ident.b2] = true ∧
    (0xF0 : XWord).toNat + (15 : XWord).toNat < (onS2 false false).geom.endAddress.toNat := by decide

theorem witness_EraseBlockErasesItsBlock :
    (onS2 false false).OnDevice ∧ (0xC0 : XWord).toNat &&& ((onS2 false false).geom.eraseBlockSize.toNat - 1) = 0 ∧
      (0xC0 : XWord).toNat < (onS2 false false).geom.endAddress.toNat :=
  ⟨(witness_OnDevice false false).1, by decide⟩

theorem witness_ProgramAndsIntoItsPage :
    (onS2 false false).OnDevice ∧ (onS2 false false).FlashCanonical ∧
      (0x4C : XWord).toNat < (onS2 false false).geom.endAddress.toNat ∧
      [(0x01 : Byte), 0x02, 0x03, 0x04].length ≤
        (onS2 false false).geom.pageSize.toNat - ((0x4C : XWord).toNat &&& ((onS2 false false).geom.pageSize.toNat - 1)) ∧
      [(0x01 : Byte), 0x02, 0x03, 0x04].length ≤ (onS2 false false).env.dev.page.val :=
  ⟨(witness_OnDevice false false).1, witness_FlashCanonical, by decide⟩

theorem witness_ProgrammedBytesReadBack :
    (onS2 false false).OnDevice ∧ (onS2 false false).env.dev.wip = false ∧ (onS2 false false).FlashCanonical ∧
      (onS2 false false).geom.Legal ∧ (onS2 false false).geom.Fits24 ∧
      (∃ j, (onS2 false false).geom.pageSize.toNat = 2 ^ j) ∧
      (onS2 false false).geom.pageSize.toNat = (onS2 false false).env.dev.page.val ∧
      (onS2 false false).geom.endAddress.toNat ≤ (onS2 false false).env.dev.size.val ∧
      checkProgram (onS2 false false).geom (0x4C : XWord).toNat [(0x01 : Byte), 0x02, 0x03, 0x04].length = none ∧
      (0x4C : XWord).toNat + [(0x01 : Byte), 0x02, 0x03, 0x04].length < (onS2 false false).geom.endAddress.toNat ∧
      ∀ i < [(0x01 : Byte), 0x02, 0x03, 0x04].length,
        (onS2 false false).env.dev.mem.read ((0x4C : XWord).toNat + i) = 0xFF :=
  ⟨(witness_OnDevice false false).1, rfl, witness_FlashCanonical,
    ⟨by decide, by decide, by decide, by decide, by decide, by decide⟩, by unfold Geometry.Fits24; decide,
    ⟨4, by decide⟩, by decide, by decide, by decide, by decide, by decide⟩

theorem witness_WireCommandsOnTheDevice :
    (onS2 true false).OnDevice ∧ (onS2 true false).env.dev.wip = false ∧ (onS2 true false).FlashCanonical ∧
      [(0x11 : Byte), 0x22].length ≤ (onS2 true false).env.dev.page.val :=
  ⟨(witness_OnDevice true false).1, rfl, witness_FlashCanonical, by decide⟩

theorem witness_UnemittedCommandsLeaveTheCore :
    ((onS2 true false).seq = .idle ∧ (onS2 true false).exclusive = true) ∧
      (shared true false).seq = .idle ∧ (shared true false).exclusive = false := ⟨⟨rfl, rfl⟩, rfl, rfl⟩

/-- One step in which the core changes the device, and one that puts a command to the machine that nobody sends. -/
theorem witness_OnlyTheCoreReachesTheDevice :
    (given (onS2 false false) (.fetch (.wire { bytes := [0x06], len := 0 }))).exclusive = true ∧
    (∃ t, step (given (onS2 false false) (.fetch (.wire { bytes := [0x06], len := 0 }))) = .next t ∧
      t.env.dev.wel = true) ∧
    ∃ t, step (given (onS2 true false) (.fetch (.wire { bytes := [0x04], len := 0 }))) = .next t ∧
      t.env.dev = deviceS2 true false := by
  refine ⟨rfl, ?_, _, rfl, rfl⟩
  have h := exists_next (p := fun t => decide (t.env.dev.wel = true))
    (o := step (given (onS2 false false) (.fetch (.wire { bytes := [0x06], len := 0 })))) (by decide)
  simpa using h

theorem witness_OtherInstructionsKeepTheFlash :
    mayChangeFlash .wireReadStatus = false ∧ ∃ t, exec .wireReadStatus (onS2 true false) = .next t := by
  obtain ⟨t, ht, -⟩ := exists_next (o := exec .wireReadStatus (onS2 true false)) (p := fun _ => true) (by decide)
  exact ⟨rfl, t, ht⟩

/-- One run answered `OK` on a device, one refused, one with no device behind the transport. -/
theorem witness_MutatingOperationsStoreWhereTheyShould :
    (∃ t, exec (.eraseBlock 0x40) (onS2 false false) = .next t ∧ t.seq = .idle ∧ t.response.code = .ok ∧
      (onS2 false false).env.kind = .simFlash) ∧
    (∃ t, exec (.eraseBlock 0x41) (onS2 false false) = .next t ∧ t.seq = .idle ∧ t.response.code ≠ .ok ∧
      t.response.code ≠ .transportError) ∧
    (∃ t, exec (.program 0 [0x01, 0x02]) answering = .next t ∧ t.seq = .idle ∧ answering.env.kind = .arbitrary) := by
  refine ⟨?_, ?_, ?_⟩
  · have h := exists_next (o := exec (.eraseBlock 0x40) (onS2 false false)) (p := fun t => decide
      (t.seq = .idle ∧ t.response.code = .ok ∧ (onS2 false false).env.kind = .simFlash)) (by decide)
    simpa using h
  · have h := exists_next (o := exec (.eraseBlock 0x41) (onS2 false false)) (p := fun t => decide
      (t.seq = .idle ∧ t.response.code ≠ .ok ∧ t.response.code ≠ .transportError)) (by decide)
    simpa using h
  · have h := exists_next (o := exec (.program 0 [0x01, 0x02]) answering) (p := fun t => decide
      (t.seq = .idle ∧ answering.env.kind = .arbitrary)) (by decide)
    simpa using h

theorem witness_AtMostElevenCalls :
    ∃ t, exec (.program 0 [0x01, 0x02]) answering = .next t ∧ t.trace.length = 11 := by
  have h := exists_next (o := exec (.program 0 [0x01, 0x02]) answering) (p := fun t => decide (t.trace.length = 11))
    (by decide)
  simpa using h

theorem witness_PhasesOfASuccessfulOperation :
    isHostOp (.program 0 [0x01, 0x02]) = true ∧
      ∃ t, exec (.program 0 [0x01, 0x02]) answering = .next t ∧ t.seq = .idle ∧ t.response.code = .ok := by
  have h := exists_next (o := exec (.program 0 [0x01, 0x02]) answering)
    (p := fun t => decide (t.seq = .idle ∧ t.response.code = .ok)) (by decide)
  exact ⟨rfl, by simpa using h⟩

/-- Two states that differ in their history. -/
theorem witness_NoHistoryIsKept :
    let s1 := scripted (statusAnswers 1 1 0x02)
    let s2 := { scripted (statusAnswers 1 1 0x02) with trace := wrenEvents 0 }
    isHostOp .readStatus = true ∧ s1.mode = s2.mode ∧ s1.geom = s2.geom ∧ s1.eraseChip = s2.eraseChip ∧
      s1.env = s2.env ∧ s1.draws = s2.draws ∧ s1.trace ≠ s2.trace ∧ (∃ t, exec .readStatus s1 = .next t) ∧
      ∃ t, exec .readStatus s2 = .next t := by
  refine ⟨by decide, by decide, by decide, by decide, by decide, by decide, by decide, ?_, ?_⟩
  · obtain ⟨t, ht, -⟩ := exists_next (o := exec .readStatus (scripted (statusAnswers 1 1 0x02))) (p := fun _ => true)
      (by decide)
    exact ⟨t, ht⟩
  · obtain ⟨t, ht, -⟩ := exists_next (p := fun _ => true)
      (o := exec .readStatus { scripted (statusAnswers 1 1 0x02) with trace := wrenEvents 0 }) (by decide)
    exact ⟨t, ht⟩

theorem witness_ScriptedAnswersAreTaken :
    (scripted [.returns 2 [0xEF, 0x40]]).env.kind = .arbitrary ∧
      (scripted [.returns 2 [0xEF, 0x40]]).env.script = .returns 2 [0xEF, 0x40] :: [] := by decide

/-- A state that meets the three invariants and takes a step (StepKeepsTransactionDiscipline, StepKeepsGeometry,
StepKeepsFlashCanonical). -/
theorem witness_invariants :
    let s := { answering with inputs := [.fetch (encode (.program 0 [0x01, 0x02]))] }
    s.BusInv ∧ s.GeometryInv ∧ s.FlashCanonical ∧ ∃ t, step s = .next t ∧ t.trace.length = 11 := by
  refine ⟨by unfold State.BusInv; decide, fun _ => witness_geometry.1, ?_, ?_⟩
  · show Memory.wf answering.env.dev.mem
    decide
  · have h := exists_next (o := step { answering with inputs := [.fetch (encode (.program 0 [0x01, 0x02]))] })
      (p := fun t => decide (t.trace.length = 11)) (by decide)
    simpa using h

end Sys2Proof.Machine.Tests
end

section
/-! PROOFS. The encoding statements of 30_encoding.md: the opcode table read backwards (O4), the emitted headers (O5), the
selectors (O9), and what a reserved selector answers (O18). -/

namespace Sys2Proof

/-! ## The opcode table -/

/-- No value stands in the table twice (30_encoding.md R108), so each row is found by its own value. -/
theorem decodeOpcode_of_mem_opcodeTable : ∀ r ∈ Config.opcodeTable, decodeOpcode r.2 = r.1 := by decide

theorem ne_unknown_of_mem_opcodeTable : ∀ r ∈ Config.opcodeTable, r.1 ≠ .unknown := by decide

/-- A byte is decoded by a row of the table, or it is in no row. -/
theorem decodeOpcode_cases (b : Byte) :
    (decodeOpcode b, b) ∈ Config.opcodeTable ∨ decodeOpcode b = .unknown ∧ b ∉ Config.opcodeTable.map Prod.snd := by
  unfold decodeOpcode
  cases h : Config.opcodeTable.find? (fun r => r.2 == b) with
  | some r =>
    have hb : r.2 = b := by simpa using List.find?_some h
    exact .inl (hb ▸ List.mem_of_find?_eq_some h)
  | none =>
    refine .inr ⟨rfl, fun hb => ?_⟩
    obtain ⟨r, hr, rfl⟩ := List.mem_map.1 hb
    exact List.find?_eq_none.1 h r hr (beq_self_eq_true r.2)

/-- A mnemonic of the table is answered exactly for the values the table gives it. -/
theorem decodeOpcode_eq_iff {m : Mnemonic} (hm : m ≠ .unknown) (b : Byte) :
    decodeOpcode b = m ↔ (m, b) ∈ Config.opcodeTable := by
  refine ⟨fun h => ?_, fun h => decodeOpcode_of_mem_opcodeTable (m, b) h⟩
  rcases decodeOpcode_cases b with hr | ⟨hu, -⟩
  · exact h ▸ hr
  · exact absurd (h.symm.trans hu) hm

theorem decodeOpcode_eq_unknown_iff (b : Byte) :
    decodeOpcode b = .unknown ↔ b ∉ Config.opcodeTable.map Prod.snd := by
  rcases decodeOpcode_cases b with hr | ⟨hu, hb⟩
  · exact iff_of_false (ne_unknown_of_mem_opcodeTable _ hr) (not_not_intro (List.mem_map_of_mem (f := Prod.snd) hr))
  · exact iff_of_true hu hb

/-! ## Addresses and headers -/

/-- Byte `k / 8` of a wire address by the shift and the mask of 30_encoding.md R103. -/
theorem extractLsb'_setWidth_24 (a : XWord) {k : Nat} (hk : k + 8 ≤ 24) :
    (a.setWidth 24).extractLsb' k 8 = BitVec.ofNat 8 ((a.toNat >>> k) &&& 0xFF) := by
  apply BitVec.eq_of_getLsbD_eq
  intro i hi
  have hmask : Nat.testBit 0xFF i = true := by
    simpa [hi] using Nat.testBit_two_pow_sub_one 8 i
  have hlow : k + i < 24 := by omega
  simp only [BitVec.getLsbD_extractLsb', BitVec.getLsbD_setWidth, BitVec.getLsbD_ofNat, Nat.testBit_and,
    Nat.testBit_shiftRight, BitVec.testBit_toNat, hi, hlow, hmask, decide_true, Bool.true_and, Bool.and_true]

theorem encodeAddr_eq_shifts (a : XWord) :
    encodeAddr a =
      [BitVec.ofNat 8 ((a.toNat >>> 16) &&& 0xFF), BitVec.ofNat 8 ((a.toNat >>> 8) &&& 0xFF),
       BitVec.ofNat 8 (a.toNat &&& 0xFF)] := by
  simp [encodeAddr, addrBytes24, extractLsb'_setWidth_24]

/-- Format `W1` (30_encoding.md R101). -/
theorem encodeHeader_of_not_hasAddr {c : Command} (h : c.hasAddr = false) (ec : EraseChipOpcode) (a : Addr24) :
    encodeHeader ec c a = [c.opcode ec] := by
  simp [encodeHeader, h]

/-- Format `W4` (30_encoding.md R102). -/
theorem encodeHeader_of_hasAddr {c : Command} (h : c.hasAddr = true) (ec : EraseChipOpcode) (a : XWord) :
    encodeHeader ec c (Machine.wireAddr a) = c.opcode ec :: encodeAddr a := by
  simp [encodeHeader, h, encodeAddr, Machine.wireAddr]

theorem EraseChipOpcode.byte_eq_ite (ec : EraseChipOpcode) : ec.byte = if ec = .c7 then 0xC7 else 0x60 := by
  cases ec <;> rfl

end Sys2Proof

namespace Sys2Proof.Machine

/-! ## Answers without the bus -/

/-- A response given while nothing but the walk has changed is an answer without the bus. -/
theorem AnsweredWithoutBus.of_respond {s u : State} (h : Steady s u) (htrace : u.trace = s.trace) (hcs : u.cs = s.cs)
    (henv : u.env = s.env) (r : Reply) : AnsweredWithoutBus s (u.respond r) r.code :=
  ⟨h.respond r, rfl, htrace, hcs, henv⟩

/-- An operation that only raises answers with that code, whatever the mode (00_scope.md R18). -/
theorem perform_raise {s : State} (hs : s.seq = .idle) (e : ResultCode) :
    ∃ t, perform s (raise e) = .next t ∧ AnsweredWithoutBus s t e := by
  obtain ⟨r, u, ⟨rfl, rfl⟩, hp⟩ := perform_of_ends (body := raise e)
    (P := fun r u => r = { code := e } ∧ u = { s with phases := [.idle] }) hs ⟨rfl, rfl⟩
  exact ⟨_, hp, .of_respond (Steady.start s) rfl rfl rfl { code := e }⟩

/-- The seven reserved selectors share one meaning (30_encoding.md R120). -/
theorem exec_reserved {i : Instr} (s : State)
    (hi : i = .reserved9 ∨ i = .reserved10 ∨ i = .reserved11 ∨ i = .reserved12 ∨ i = .reserved13 ∨ i = .reserved14 ∨
      i = .reserved15) : exec i s = illegalOp s := by
  rcases hi with rfl | rfl | rfl | rfl | rfl | rfl | rfl <;> rfl

/-! ## The obligations -/

/-- Settles O4: each mnemonic's values are read off the table. -/
theorem opcodeBytesDecode : Obligations.OpcodeBytesDecode := by
  intro b
  simp [decodeOpcode_eq_iff, decodeOpcode_eq_unknown_iff, Config.opcodeTable]

/-- Settles O5: the address bytes are shifts and masks of the operand, and a header is its opcode, followed by them in
format `W4`. -/
theorem headersOfEmittedCommands : Obligations.HeadersOfEmittedCommands := by
  intro ec a
  refine ⟨encodeAddr_eq_shifts a, ?_, ?_, ?_, ?_, ?_, ?_, ?_⟩
  · exact encodeHeader_of_not_hasAddr (c := .writeEnable) rfl ec _
  · exact encodeHeader_of_not_hasAddr (c := .readStatus) rfl ec _
  · exact encodeHeader_of_not_hasAddr (c := .readJedecId) rfl ec _
  · rw [encodeHeader_of_not_hasAddr rfl, Command.opcode, EraseChipOpcode.byte_eq_ite]
  · exact encodeHeader_of_hasAddr (c := .readData) rfl ec a
  · exact encodeHeader_of_hasAddr (c := .programPage) rfl ec a
  · exact encodeHeader_of_hasAddr (c := .eraseBlock) rfl ec a

/-- Settles O9: at each of the sixteen selectors `decodeRequest` computes, with the operands left symbolic. -/
theorem selectorsDispatch : Obligations.SelectorsDispatch := by
  intro a0 a1 a2 buf word
  exact ⟨rfl, rfl, rfl, rfl, rfl, rfl, rfl, rfl, rfl, rfl, rfl, rfl, rfl, rfl, rfl, rfl⟩

/-- Settles O18: a reserved selector only raises `IllegalOp`, in front of the mode test. -/
theorem reservedSelectorsAreIllegal : Obligations.ReservedSelectorsAreIllegal := by
  intro i s hi hs
  rw [exec_reserved s hi]
  exact perform_raise hs .illegalOp

end Sys2Proof.Machine
end

section
/-! PROOFS. The geometry statements of 40_geometry.md: what a valid `configure` stores (O23), what a refused one answers (O24),
and the laws of the geometry a successful one leaves (O25). -/

namespace Sys2Proof.Machine

/-! ## The three validity tests -/

theorem checkGeometry_zero {ps ebs ts : XWord} (hp : ps.toNat = 0) : checkGeometry ps ebs ts = some .zeroPageSize :=
  if_pos hp

theorem checkGeometry_page {ps ebs ts : XWord} (hp : 0 < ps.toNat) (hb : ebs.toNat < ps.toNat) :
    checkGeometry ps ebs ts = some .pageExceedsBlock := by
  rw [checkGeometry, if_neg hp.ne', if_pos hb]

theorem checkGeometry_block {ps ebs ts : XWord} (hp : 0 < ps.toNat) (hb : ps.toNat ≤ ebs.toNat)
    (ht : ts.toNat < ebs.toNat) : checkGeometry ps ebs ts = some .blockExceedsDevice := by
  rw [checkGeometry, if_neg hp.ne', if_neg hb.not_gt, if_pos ht]

/-! ## What `configure` does, once for each of its three ends -/

/-- An operation whose body is known to end responds with what the body answers. -/
theorem perform_done {s u : State} {body : State → Call Reply} {r : Reply} (hs : s.seq = .idle)
    (h : body { s with phases := [.idle] } = .done r u) : perform s body = .next (u.respond r) := by
  rw [perform, if_pos hs, h]

section Configure
variable {s t : State} {ps ebs ts : XWord}

/-- Already `Ready`: the operands are not looked at (40_geometry.md R144). -/
theorem exec_configure_of_ready (hs : s.seq = .idle) (hm : s.mode = .ready) :
    exec (.configure ps ebs ts) s = .next (s.checked.respond { code := .alreadyConfigured }) :=
  perform_done hs (by rw [configureBody_start, hm])

/-- A validity test failed (40_geometry.md R141). -/
theorem exec_configure_of_some {e : ResultCode} (hs : s.seq = .idle) (hm : s.mode = .unconfigured)
    (hc : checkGeometry ps ebs ts = some e) :
    exec (.configure ps ebs ts) s = .next (s.checked.respond { code := e }) :=
  perform_done hs (by rw [configureBody_start, hm, hc, ifShaped_some])

/-- Every validity test passed (40_geometry.md R142). -/
theorem exec_configure_of_none (hs : s.seq = .idle) (hm : s.mode = .unconfigured)
    (hc : checkGeometry ps ebs ts = none) :
    exec (.configure ps ebs ts) s =
      .next ((s.checked.setGeometry (deriveGeometry ps ebs ts)).respond { code := .ok }) :=
  perform_done hs (by rw [configureBody_start, hm, hc, ifShaped_none])

/-- `OK` is answered only behind the three tests, and then the derived geometry is stored. -/
theorem exec_configure_ok (h : exec (.configure ps ebs ts) s = .next t) (ho : t.response.code = .ok) :
    checkGeometry ps ebs ts = none ∧ t.geom = deriveGeometry ps ebs ts := by
  have hs : s.seq = .idle := (perform_next h).1
  cases hm : s.mode with
  | ready =>
    cases (exec_configure_of_ready hs hm).symm.trans h
    cases ho
  | unconfigured =>
    cases hc : checkGeometry ps ebs ts with
    | some e =>
      cases (exec_configure_of_some hs hm hc).symm.trans h
      obtain rfl : e = .ok := ho
      rcases checkGeometry_code hc with he | he | he <;> cases he
    | none =>
      cases (exec_configure_of_none hs hm hc).symm.trans h
      exact ⟨rfl, rfl⟩

end Configure

/-- What is raised behind the mode test is answered without the bus. -/
theorem answeredWithoutBus_checked (s : State) (e : ResultCode) :
    AnsweredWithoutBus s (s.checked.respond { code := e }) e :=
  .of_respond (Steady.checked s) rfl rfl rfl { code := e }

/-! ## The laws of a legal geometry (40_geometry.md R143) -/

/-- A geometry derived from operands that pass the three tests is legal. -/
theorem deriveGeometry_legal {ps ebs ts : XWord} (h : checkGeometry ps ebs ts = none) :
    (deriveGeometry ps ebs ts).Legal := by
  obtain ⟨hp, hb, ht⟩ := checkGeometry_none.1 h
  obtain ⟨hpages, hblocks, hend⟩ := deriveGeometry_exact ps ebs ts
  exact ⟨hp, hb, ht, hpages, hblocks, by rw [hend, hpages, hblocks]; rfl⟩

section Legal
variable {g : Geometry}

theorem Geometry.Legal.block_pos (h : g.Legal) : 0 < g.eraseBlockSize.toNat := h.page_pos.trans_le h.page_le

theorem Geometry.Legal.pages_pos (h : g.Legal) : 0 < g.pagesPerBlock.toNat :=
  h.pages ▸ Nat.div_pos h.page_le h.page_pos

theorem Geometry.Legal.blocks_pos (h : g.Legal) : 0 < g.blockCount.toNat :=
  h.blocks ▸ Nat.div_pos h.block_le h.block_pos

theorem Geometry.Legal.pages_fit (h : g.Legal) : g.pageSize.toNat * g.pagesPerBlock.toNat ≤ g.eraseBlockSize.toNat :=
  h.pages ▸ Nat.mul_div_le _ _

theorem Geometry.Legal.blocks_fit (h : g.Legal) : g.eraseBlockSize.toNat * g.blockCount.toNat ≤ g.totalSize.toNat :=
  h.blocks ▸ Nat.mul_div_le _ _

theorem Geometry.Legal.page_dvd_end (h : g.Legal) : g.pageSize.toNat ∣ g.endAddress.toNat := by
  rw [h.end_eq, Nat.mul_assoc]
  exact Nat.dvd_mul_right _ _

theorem Geometry.Legal.end_pos (h : g.Legal) : 0 < g.endAddress.toNat := by
  rw [h.end_eq]
  exact Nat.mul_pos (Nat.mul_pos h.page_pos h.pages_pos) h.blocks_pos

theorem Geometry.Legal.page_le_end (h : g.Legal) : g.pageSize.toNat ≤ g.endAddress.toNat :=
  Nat.le_of_dvd h.end_pos h.page_dvd_end

theorem Geometry.Legal.end_le_total (h : g.Legal) : g.endAddress.toNat ≤ g.totalSize.toNat := by
  rw [h.end_eq, h.pages, h.blocks]
  exact endAddress_le _ _ _

/-- Nothing is cut off at the end exactly when pages fill a block and blocks fill the device: in
`end = page * pages * blocks ≤ block * blocks ≤ total` both steps must be equalities. -/
theorem Geometry.Legal.end_eq_total_iff (h : g.Legal) :
    g.endAddress.toNat = g.totalSize.toNat ↔
      g.pageSize.toNat ∣ g.eraseBlockSize.toNat ∧ g.eraseBlockSize.toNat ∣ g.totalSize.toNat := by
  rw [← Nat.mul_div_eq_iff_dvd, ← Nat.mul_div_eq_iff_dvd, ← h.pages, ← h.blocks, h.end_eq]
  constructor
  · intro he
    have hstep : g.pageSize.toNat * g.pagesPerBlock.toNat * g.blockCount.toNat ≤
        g.eraseBlockSize.toNat * g.blockCount.toNat := Nat.mul_le_mul_right _ h.pages_fit
    have hblocks : g.eraseBlockSize.toNat * g.blockCount.toNat = g.totalSize.toNat :=
      h.blocks_fit.antisymm (he ▸ hstep)
    exact ⟨Nat.eq_of_mul_eq_mul_right h.blocks_pos (he.trans hblocks.symm), hblocks⟩
  · rintro ⟨hpages, hblocks⟩
    rw [hpages, hblocks]

end Legal

/-! ## The obligations -/

/-- Settles O23: behind the tests the derived geometry is stored, and its three quantities are exact. -/
theorem configureStoresGeometry : Obligations.ConfigureStoresGeometry := by
  intro ps ebs ts s hs hm hp hb ht
  obtain ⟨hpages, hblocks, hend⟩ := deriveGeometry_exact ps ebs ts
  exact ⟨_, exec_configure_of_none hs hm (checkGeometry_none.2 ⟨hp, hb, ht⟩), rfl, rfl, rfl, rfl, rfl, hpages, hblocks,
    hend, rfl, rfl, rfl, rfl, rfl, rfl, rfl, rfl⟩

/-- Settles O24: the mode test and the three validity tests, each failing in front of everything that writes. -/
theorem configureReportsFirstFault : Obligations.ConfigureReportsFirstFault := by
  intro ps ebs ts s hs
  refine ⟨fun hm => ?ready, fun hm hp => ?zero, fun hm hp hb => ?page, fun hm hp hb ht => ?block⟩
  case ready => exact ⟨_, exec_configure_of_ready hs hm, answeredWithoutBus_checked s _⟩
  case zero => exact ⟨_, exec_configure_of_some hs hm (checkGeometry_zero hp), answeredWithoutBus_checked s _⟩
  case page => exact ⟨_, exec_configure_of_some hs hm (checkGeometry_page hp hb), answeredWithoutBus_checked s _⟩
  case block => exact ⟨_, exec_configure_of_some hs hm (checkGeometry_block hp hb ht), answeredWithoutBus_checked s _⟩

/-- Settles O25: a successful `configure` leaves the geometry derived from its operands, which is legal. -/
theorem lawsOfASuccessfulConfigure : Obligations.LawsOfASuccessfulConfigure := by
  intro ps ebs ts s t h ho
  obtain ⟨hc, hg⟩ := exec_configure_ok h ho
  have hl : (deriveGeometry ps ebs ts).Legal := deriveGeometry_legal hc
  rw [hg]
  exact ⟨hl.pages_pos, hl.blocks_pos, hl.pages_fit, hl.blocks_fit, hl.page_le_end, hl.end_le_total, ts.isLt, hl.end_pos,
    hl.page_dvd_end, hl.end_eq_total_iff⟩

end Sys2Proof.Machine
end

section
/-! PROOFS. The status statements of 41_status_gate.md: what `read_status` (O26) and `is_busy` (O27) make and answer. -/

namespace Sys2Proof.Machine

/-! ## One exchange and its response -/

/-- A response given behind one exchange in the phase `CMD`: the core and every byte of the flash are kept, and the trace
grows by the exchange. -/
theorem Exchanged.respond {s u : State} {es : List Event} (h : Exchanged (s.checked.enter .cmd) u es) (r : Reply) :
    CoreKept s (u.respond r) ∧ (u.respond r).cs = false ∧ FlashKept s (u.respond r) ∧
      (u.respond r).trace = s.trace ++ es := by
  have hsteady : Steady s u := (Steady.checked s).trans ((Steady.enter _ _).trans h.kept.steady)
  have hmem : u.env.dev.mem = s.env.dev.mem := h.mem
  exact ⟨hsteady.respond r, h.cs, fun a => congrArg (·.read a) hmem, h.trace⟩

/-- An operation that is one procedure in the phase `CMD`, and a reply that its value decides, responds where the procedure
ends. -/
theorem perform_cmd {α : Type} {s : State} {e : Reply} {proc : State → Call α} {k : α → State → Call Reply}
    {P : α → State → Prop} (hs : s.seq = .idle) (hm : s.mode = .ready) (hp : (proc (s.checked.enter .cmd)).Ends P)
    (f : α → Reply) (hk : ∀ a u, k a u = .done (f a) u) :
    ∃ a u, P a u ∧
      perform s (fun s => ifReady e s fun s => (proc (s.enter .cmd)).bind k) = .next (u.respond (f a)) := by
  obtain ⟨r, u, ⟨a, ha, rfl⟩, ht⟩ := perform_ready (e := e) (k := fun s => (proc (s.enter .cmd)).bind k)
    (P := fun r u => ∃ a, P a u ∧ r = f a) hs hm (hp.bind fun a u ha => by rw [hk]; exact ⟨a, ha, rfl⟩)
  exact ⟨a, u, ha, ht⟩

/-! ## The two operations, where their four calls return -/

/-- What `read_status` answers: the byte when both counts matched (41_status_gate.md R151). -/
def statusReply (r : Bool × Byte) : Reply :=
  if r.1 then { code := .ok, status := some r.2 } else { code := .transportError }

theorem statusReply_code (r : Bool × Byte) :
    (statusReply r).code = if r.1 then .ok else .transportError := by
  unfold statusReply
  split <;> rfl

theorem statusReply_status {r : Bool × Byte} (h : r.1 = true) : (statusReply r).status = some r.2 := by
  rw [statusReply, if_pos h]

theorem exec_readStatus_next {s : State} (h : s.CanRun 4) :
    ∃ r u, StatusRead (s.checked.enter .cmd) u r ∧ exec .readStatus s = .next (u.respond (statusReply r)) := by
  have hp := readStatusProc_ends (k := 0) (h.returns.of_env (t := s.checked.enter .cmd) rfl rfl)
  refine perform_cmd h.idle h.ready (hp.mono fun _ _ hr => hr.2) statusReply fun r u => ?_
  unfold statusReply
  split <;> rfl

theorem exec_isBusy_next {s : State} (h : s.CanRun 4) :
    ∃ c1 c2 b u, Exchanged (s.checked.enter .cmd) u (statusEvents c1 c2 b) ∧
      exec .isBusy s = .next (u.respond { code := .ok, busy := some (!decide (statusPasses c1 c2 b)) }) := by
  have hp := isBusyProc_ends (k := 0) (h.returns.of_env (t := s.checked.enter .cmd) rfl rfl)
  obtain ⟨busy, u, ⟨-, c1, c2, b, he, rfl⟩, ht⟩ := perform_cmd (e := { code := .notConfigured, busy := some true })
    h.idle h.ready hp (fun busy => { code := .ok, busy := some busy }) fun _ _ => rfl
  exact ⟨c1, c2, b, u, he, ht⟩

/-! ## The busy test -/

/-- Bit 0 is the mask of 41_status_gate.md R153. -/
theorem and_one_ne_zero_iff (b : Byte) : b &&& 0x01 ≠ 0 ↔ b.getLsbD 0 = true := by
  have hbit : b &&& 0x01 = (BitVec.ofBool (b.getLsbD 0)).setWidth 8 := BitVec.and_one_eq_setWidth_ofBool_getLsbD
  rw [hbit]
  cases b.getLsbD 0 <;> decide

/-- A status read stops a gate when a count did not match or bit 0 is set. -/
theorem not_statusPasses_iff (c1 c2 : Nat) (b : Byte) :
    ¬ statusPasses c1 c2 b ↔ ¬ (c1 = 1 ∧ c2 = 1) ∨ b &&& 0x01 ≠ 0 := by
  rw [and_one_ne_zero_iff, statusPasses, ← and_assoc, not_and_or, Bool.not_eq_false]

/-! ## The obligations -/

/-- Settles O26: the operation is one status read, and its match, the AND of both counts', decides the reply. -/
theorem readStatusAnswersRawByte : Obligations.ReadStatusAnswersRawByte := by
  intro s h
  obtain ⟨⟨ok, b⟩, u, ⟨c1, c2, he, hok⟩, ht⟩ := exec_readStatus_next h
  obtain ⟨hkept, hcs, hflash, htrace⟩ := he.respond (statusReply (ok, b))
  have hcounts : ok = true ↔ c1 = 1 ∧ c2 = 1 := by
    rw [show ok = (countMatches c1 1 && countMatches c2 1) from hok]
    simp [countMatches]
  refine ⟨_, c1, c2, b, ht, hkept, hcs, hflash, htrace, ?code, fun hc => ?status⟩
  case code => simp only [State.respond_response, Reply.response_code, statusReply_code, hcounts]
  case status =>
    rw [State.respond_response, Reply.response_status, statusReply_status (hcounts.2 hc), Option.getD_some]

/-- Settles O27: the operation is one status read, and `busy` says that a gate would not pass it. -/
theorem isBusyIsFailSafe : Obligations.IsBusyIsFailSafe := by
  intro s h
  obtain ⟨c1, c2, b, u, he, ht⟩ := exec_isBusy_next h
  obtain ⟨hkept, hcs, hflash, htrace⟩ := he.respond { code := .ok, busy := some (!decide (statusPasses c1 c2 b)) }
  refine ⟨_, c1, c2, b, ht, hkept, hcs, hflash, htrace, rfl, ?_⟩
  rw [← not_statusPasses_iff, State.respond_response, Reply.response_busy, Option.getD_some, Bool.not_eq_true',
    decide_eq_false_iff_not]

end Sys2Proof.Machine
end

section
/-! PROOFS. The request-shape statements of 42_bounds_alignment.md: what a refused `read` (O29), `erase_block` (O30) and
`program` (O31) answers, and where an accepted `program` ends (O32). -/

namespace Sys2Proof.Machine

/-! ## The first failure of each check -/

theorem checkRead_range {g : Geometry} {a n : Nat} (h : g.endAddress.toNat ≤ a ∨ g.endAddress.toNat ≤ a + n) :
    checkRead g a n = some .outOfRange :=
  if_pos h

theorem checkErase_mask {g : Geometry} {a : Nat} (h : a &&& (g.eraseBlockSize.toNat - 1) ≠ 0) :
    checkErase g a = some .misaligned :=
  if_pos h

theorem checkErase_range {g : Geometry} {a : Nat} (hmask : a &&& (g.eraseBlockSize.toNat - 1) = 0)
    (h : g.endAddress.toNat ≤ a) : checkErase g a = some .outOfRange := by
  rw [checkErase, if_neg (not_not_intro hmask), if_pos h]

theorem checkProgram_range {g : Geometry} {a n : Nat} (h : g.endAddress.toNat ≤ a) :
    checkProgram g a n = some .outOfRange :=
  if_pos h

theorem checkProgram_page {g : Geometry} {a n : Nat} (hrange : a < g.endAddress.toNat)
    (h : g.pageSize.toNat - pageOffset g a < n) : checkProgram g a n = some .pageBoundaryCrossed := by
  rw [checkProgram, if_neg hrange.not_ge, if_pos h]

/-! ## What a failed check answers -/

/-- In `Ready` an operation whose check fails answers with the check's code and goes no further, whatever stands behind the
check (42_bounds_alignment.md R170). -/
theorem perform_ifShaped_some {s : State} {e : Reply} {chk : State → Option ResultCode} {code : ResultCode}
    (k : State → State → Call Reply) (hs : s.seq = .idle) (hm : s.mode = .ready) (hc : chk s.checked = some code) :
    ∃ t, perform s (fun s => ifReady e s fun s => ifShaped (chk s) s (k s)) = .next t ∧
      AnsweredWithoutBus s t code := by
  have hbody : ifShaped (chk s.checked) s.checked (k s.checked) = .done { code := code } s.checked := by
    rw [hc, ifShaped_some]
  have hready := (ifReady_ready (e := e) (s := { s with phases := [.idle] })
    (fun s => ifShaped (chk s) s (k s)) hm).trans hbody
  exact ⟨_, perform_done hs hready, answeredWithoutBus_checked s code⟩

section Refused
variable {s : State} {code : ResultCode}

theorem exec_read_of_some {a n : XWord} (hs : s.seq = .idle) (hm : s.mode = .ready)
    (hc : checkRead s.geom a.toNat n.toNat = some code) :
    ∃ t, exec (.read a n) s = .next t ∧ AnsweredWithoutBus s t code :=
  perform_ifShaped_some (chk := fun s => checkRead s.geom a.toNat n.toNat) _ hs hm hc

theorem exec_eraseBlock_of_some {a : XWord} (hs : s.seq = .idle) (hm : s.mode = .ready)
    (hc : checkErase s.geom a.toNat = some code) :
    ∃ t, exec (.eraseBlock a) s = .next t ∧ AnsweredWithoutBus s t code :=
  perform_ifShaped_some (chk := fun s => checkErase s.geom a.toNat) _ hs hm hc

theorem exec_program_of_some {a : XWord} {buf : List Byte} (hs : s.seq = .idle) (hm : s.mode = .ready)
    (hc : checkProgram s.geom a.toNat buf.length = some code) :
    ∃ t, exec (.program a buf) s = .next t ∧ AnsweredWithoutBus s t code :=
  perform_ifShaped_some (chk := fun s => checkProgram s.geom a.toNat buf.length) _ hs hm hc

end Refused

/-! ## The page of an accepted `program` -/

section Page
variable {g : Geometry} {a : Nat}

theorem pageOffset_eq_mod (h : ∃ j, g.pageSize.toNat = 2 ^ j) : pageOffset g a = a % g.pageSize.toNat :=
  mask_eq_mod h

/-- The end address is a multiple of the page size, so the page of an address in front of it ends in front of it too. -/
theorem Geometry.Legal.page_end_le (h : g.Legal) (ha : a < g.endAddress.toNat) :
    a - a % g.pageSize.toNat + g.pageSize.toNat ≤ g.endAddress.toNat := by
  have hstart : a - a % g.pageSize.toNat ≡ 0 [MOD g.pageSize.toNat] := Nat.modEq_zero_iff_dvd.2 (Nat.dvd_sub_mod a)
  have hend : g.endAddress.toNat ≡ 0 [MOD g.pageSize.toNat] := Nat.modEq_zero_iff_dvd.2 h.page_dvd_end
  exact (hstart.trans hend.symm).add_le_of_lt ((Nat.sub_le _ _).trans_lt ha)

end Page

/-! ## The obligations -/

/-- Settles O29: a start past the end makes the sum pass it too, so the sum alone decides the check. -/
theorem readOutOfRangeIsRefused : Obligations.ReadOutOfRangeIsRefused := by
  intro a n s hs hm
  exact ⟨checkRead_none, fun h => exec_read_of_some hs hm (checkRead_range h)⟩

/-- Settles O30: the mask test stands in front of the range test, and each answers in front of the gate. -/
theorem eraseBlockChecksMaskThenRange : Obligations.EraseBlockChecksMaskThenRange := by
  intro a s hs hm
  refine ⟨checkErase_none, fun hmask => ?misaligned, fun hmask h => ?range⟩
  case misaligned => exact exec_eraseBlock_of_some hs hm (checkErase_mask hmask)
  case range => exact exec_eraseBlock_of_some hs hm (checkErase_range hmask h)

/-- Settles O31: the range test stands in front of the page test, and each answers in front of the gate. -/
theorem programChecksRangeThenPage : Obligations.ProgramChecksRangeThenPage := by
  intro a buf s hs hm
  refine ⟨checkProgram_none, fun h => ?range, fun hrange h => ?page⟩
  case range => exact exec_program_of_some hs hm (checkProgram_range h)
  case page => exact exec_program_of_some hs hm (checkProgram_page hrange h)

/-- Settles O32: with a power of two the mask is the remainder, so the bytes fit the rest of a page that ends inside. With
pages of 3 bytes the mask is 2, address 1 counts as the start of a page, and 3 bytes from there pass the end address 3. -/
theorem acceptedProgramStaysInside : Obligations.AcceptedProgramStaysInside := by
  refine ⟨fun g a n hl hpow hc => ?inside, deriveGeometry 3 3 3, 1, 3, ?legal, ?accepted, ?past⟩
  case inside =>
    obtain ⟨ha, hn⟩ := checkProgram_none.1 hc
    have hoff : pageOffset g a.toNat = a.toNat % g.pageSize.toNat := pageOffset_eq_mod hpow
    rw [hoff] at hn ⊢
    have hle : a.toNat % g.pageSize.toNat ≤ a.toNat := Nat.mod_le _ _
    have hlt : a.toNat % g.pageSize.toNat < g.pageSize.toNat := Nat.mod_lt _ hl.page_pos
    have hbytes : a.toNat + n ≤ a.toNat - a.toNat % g.pageSize.toNat + g.pageSize.toNat := by omega
    exact ⟨rfl, hl.page_dvd_end, hbytes, hl.page_end_le ha⟩
  case legal => exact deriveGeometry_legal (by decide)
  case accepted => decide
  case past => decide

end Sys2Proof.Machine
end

section
/-! PROOFS. The statements of 43_operations.md on the mode test (O16) and on `identify` (O35), and the transaction discipline that
every step keeps (O57). -/

namespace Sys2Proof.Machine

open Host (Outcome)

/-! ## What a step can do -/

/-- What a next state of a step can be (log 4). -/
inductive Stepped (s t : State) : Prop where
  /-- no input is there -/
  | waits (hs : s.seq = .idle) (hin : s.inputs = []) (ht : t = s)
  /-- an instruction was taken -/
  | ran (hs : s.seq = .idle) (w : Fetched) (rest : List Input) (i : Instr) (hin : s.inputs = .fetch w :: rest)
      (hw : decode w = .ok i) (hx : exec i (s.accept w rest) = .next t)
  /-- a wire transaction was taken that decodes to nothing -/
  | dropped (hs : s.seq = .idle) (w : Fetched) (rest : List Input) (e : DecodeError) (hin : s.inputs = .fetch w :: rest)
      (hw : decode w = .error e) (ht : t = s.ignoreFrame rest)
  /-- a reset -/
  | reset (hs : s.seq = .idle) (rest : List Input) (hin : s.inputs = .reset :: rest)
      (ht : t = (s.ignoreFrame rest).resetEvent)
  /-- the device ended its cycle -/
  | completed (hs : s.seq = .idle) (rest : List Input) (hin : s.inputs = .complete :: rest)
      (ht : t = (s.ignoreFrame rest).completeEvent)
  /-- an operation hangs -/
  | hangs (hs : s.seq ≠ .idle) (hin : ∀ rest, s.inputs ≠ .reset :: rest) (ht : t = s)

/-- While an operation hangs nothing happens, and no reset is taken (70_reset_and_hazards.md R261, R276). -/
theorem step_busy_next {s t : State} (hs : s.seq ≠ .idle) (h : step s = .next t) :
    (∀ rest, s.inputs ≠ .reset :: rest) ∧ t = s := by
  unfold step at h
  split at h
  · next hidle => exact absurd hidle hs
  all_goals
    split at h
    · cases h
    · next hin => exact ⟨hin, (Outcome.next.inj h).symm⟩

theorem step_stepped {s t : State} (h : step s = .next t) : Stepped s t := by
  by_cases hs : s.seq = .idle
  · rcases hin : s.inputs with _ | ⟨w | _ | _, rest⟩ <;> simp only [step, hs, hin] at h
    case nil => exact .waits hs hin (Outcome.next.inj h).symm
    case cons.fetch =>
      cases hw : decode w with
      | ok i => exact .ran hs w rest i hin hw (by simpa only [hw] using h)
      | error e => exact .dropped hs w rest e hin hw (Outcome.next.inj (by simpa only [hw] using h)).symm
    case cons.reset => exact .reset hs rest hin (Outcome.next.inj h).symm
    case cons.complete => exact .completed hs rest hin (Outcome.next.inj h).symm
  · obtain ⟨hin, ht⟩ := step_busy_next hs h
    exact .hangs hs hin ht

/-! ## The transaction discipline -/

section BusInv
variable {s t : State}

theorem State.busInv_idle (hs : s.seq = .idle) :
    s.BusInv ↔ BusState.closed.run s.trace = some .closed ∧ s.cs = false := by
  rw [State.BusInv, if_pos hs]

theorem State.busInv_busy (hs : s.seq ≠ .idle) : s.BusInv ↔ BusState.closed.run s.trace = some .waiting := by
  rw [State.BusInv, if_neg hs]

/-- Whole transactions behind whole transactions, with chip-select deasserted at the end. -/
theorem State.BusInv.append_closed {es : List Event} (h : s.BusInv) (hs : s.seq = .idle) (ht : t.seq = .idle)
    (htrace : t.trace = s.trace ++ es) (hes : BusState.closed.run es = some .closed) (hcs : t.cs = false) : t.BusInv := by
  obtain ⟨hrun, -⟩ := (State.busInv_idle hs).1 h
  exact (State.busInv_idle ht).2 ⟨by rw [htrace, BusState.run_append, hrun, Option.bind_some, hes], hcs⟩

/-- Where no call is made and chip-select is left alone, the discipline stays. -/
theorem State.BusInv.of_trace_eq (h : s.BusInv) (hs : s.seq = .idle) (ht : t.seq = .idle) (htrace : t.trace = s.trace)
    (hcs : t.cs = s.cs) : t.BusInv := by
  obtain ⟨-, hcs'⟩ := (State.busInv_idle hs).1 h
  exact h.append_closed hs ht (es := []) (by rw [htrace, List.append_nil]) rfl (hcs.trans hcs')

/-- An operation that hangs leaves the bus waiting behind whole transactions. -/
theorem State.BusInv.of_hung (h : s.BusInv) (hs : s.seq = .idle) (hH : Hung s t) : t.BusInv := by
  obtain ⟨hrun, -⟩ := (State.busInv_idle hs).1 h
  obtain ⟨es, c, htrace, -, hwait⟩ := hH.trace
  exact (State.busInv_busy hH.busy).2 (by rw [htrace, BusState.run_append, hrun, Option.bind_some, hwait])

/-- Every instruction keeps the discipline: it makes no call, whole transactions of emitted commands, or hangs in one. -/
theorem State.BusInv.exec {i : Instr} (h : s.BusInv) (hs : s.seq = .idle) (hx : exec i s = .next t) : t.BusInv := by
  cases exec_did hx with
  | refused u r hu hc ht =>
    subst ht
    rcases hu with rfl | rfl <;> exact h.of_trace_eq hs rfl rfl rfl
  | configured ps ebs ts hi hm hg ht => exact ht ▸ h.of_trace_eq hs rfl rfl rfl
  | exchanged header p c o u m r hm hh hf hk hT hc hi hn ht =>
    subst ht
    obtain ⟨es, htrace, hes⟩ := hT.run hh hf
    exact h.append_closed hs rfl htrace hes hT.cs
  | stopped header p u r hm hi hG ht =>
    subst ht
    obtain ⟨c1, c2, b, htrace, -⟩ := hG.trace
    exact h.append_closed hs rfl htrace (statusEvents_run c1 c2 b) hG.cs
  | passed header p c o u r hm hi hh hf hG ht =>
    subst ht
    obtain ⟨c1, c2, b, c3, v, m, -, -, -, hgate, hT, -⟩ := hG.trace
    obtain ⟨es, htrace, hes⟩ := hT.run hh hf
    have hall : u.trace = s.trace ++ (statusEvents c1 c2 b ++ (wrenEvents c3 ++ es)) := by
      rw [htrace, hgate, List.append_assoc, List.append_assoc, State.checked_trace]
    refine h.append_closed hs rfl hall ?_ hG.cs
    rw [BusState.run_append, statusEvents_run, Option.bind_some, BusState.run_append, wrenEvents_run, Option.bind_some, hes]
  | hung hm hH => exact h.of_hung hs hH
  | unsent bytes hi _ hx' ht => exact ht ▸ h
  | device bytes hi _ hx' ht =>
    subst ht
    exact h.of_trace_eq hs ((s.onDevice_seq _).trans hs) (s.onDevice_trace _) (s.onDevice_cs _)

end BusInv

/-! ## The mode test -/

/-- What an operation that is valid in `Ready` only answers in `Unconfigured` (43_operations.md R194, 41_status_gate.md R154). -/
def notConfiguredReply : Instr → Reply
  | .isBusy => { code := .notConfigured, busy := some true }
  | _ => { code := .notConfigured }

theorem notConfiguredReply_code (i : Instr) : (notConfiguredReply i).code = .notConfigured := by
  unfold notConfiguredReply
  split <;> rfl

/-- In `Unconfigured` the mode test answers, whatever stands behind it. -/
theorem perform_ifReady_unconfigured {s : State} (e : Reply) (k : State → Call Reply) (hs : s.seq = .idle)
    (hm : s.mode = .unconfigured) : perform s (fun s => ifReady e s k) = .next (s.checked.respond e) :=
  perform_done hs (ifReady_unconfigured (s := { s with phases := [.idle] }) k hm)

theorem exec_unconfigured {i : Instr} {s : State} (hi : needsReady i = true) (hs : s.seq = .idle)
    (hm : s.mode = .unconfigured) : exec i s = .next (s.checked.respond (notConfiguredReply i)) :=
  match i, hi with
  | .readStatus, _ => perform_ifReady_unconfigured _ _ hs hm
  | .isBusy, _ => perform_ifReady_unconfigured _ _ hs hm
  | .writeEnable, _ => perform_ifReady_unconfigured _ _ hs hm
  | .identify, _ => perform_ifReady_unconfigured _ _ hs hm
  | .read _ _, _ => perform_ifReady_unconfigured _ _ hs hm
  | .eraseBlock _, _ => perform_ifReady_unconfigured _ _ hs hm
  | .eraseAll, _ => perform_ifReady_unconfigured _ _ hs hm
  | .program _ _, _ => perform_ifReady_unconfigured _ _ hs hm

/-! ## `identify` -/

/-- The calls of a transaction that reads the identity (43_operations.md R195). -/
abbrev identityEvents (c1 c2 : Nat) (b0 b1 b2 : Byte) : List Event :=
  [.opened, .wrote [0x9F] c1, .readBack 3 c2 [b0, b1, b2], .closed]

/-- What the transaction of `READ_JEDEC_ID` made: its match is that of both counts, and it gives exactly three bytes. -/
theorem Transacted.identity {s t : State} {m : Bool × List Byte} (h : Transacted s t [0x9F] (.read 3) m) :
    ∃ c1 c2 b0 b1 b2, m = (countMatches c1 1 && countMatches c2 3, [b0, b1, b2]) ∧
      Exchanged s t (identityEvents c1 c2 b0 b1 b2) := by
  obtain ⟨ok, rs⟩ := m
  obtain ⟨c1, pe, ok2, htrace, ⟨c2, rfl, rfl, hlen⟩, hok⟩ := h.trace
  obtain ⟨b0, b1, b2, rfl⟩ := List.length_eq_three.1 hlen
  have hmem := h.mem_of_quiet (.inr (.inr (.inl rfl))) rfl
  exact ⟨c1, c2, b0, b1, b2, Prod.ext hok rfl, h.kept, h.cs, htrace, hmem⟩

/-- What `identify` answers (43_operations.md R195). -/
def identifyReply (m : Bool × List Byte) : Reply :=
  if !m.1 then { code := .transportError }
  else if !plausible m.2 then { code := .implausibleId }
  else { code := .ok, id := some (decodeId (m.2.getD 0 0) (m.2.getD 1 0) (m.2.getD 2 0)) }

/-- One bad byte suffices (43_operations.md R196). -/
theorem plausible_eq_false_iff (rs : List Byte) : plausible rs = false ↔ ∃ b ∈ rs, b = 0x00 ∨ b = 0xFF := by
  simp [plausible, plausibleByte, imp_iff_not_or]

theorem identifyReply_code (m : Bool × List Byte) :
    (identifyReply m).code =
      if ¬ m.1 = true then .transportError else if ∃ b ∈ m.2, b = 0x00 ∨ b = 0xFF then .implausibleId else .ok := by
  simp only [identifyReply, ← plausible_eq_false_iff, Bool.not_eq_true, Bool.not_eq_true']
  split
  · rfl
  · split <;> rfl

theorem identifyReply_id {m : Bool × List Byte} (h : (identifyReply m).code = .ok) :
    (identifyReply m).id = some (decodeId (m.2.getD 0 0) (m.2.getD 1 0) (m.2.getD 2 0)) := by
  unfold identifyReply at h ⊢
  split at h
  · cases h
  · next hcounts =>
    rw [if_neg hcounts]
    split at h
    · cases h
    · next hbytes => rw [if_neg hbytes]

theorem exec_identify_next {s : State} (h : s.CanRun 4) :
    ∃ c1 c2 b0 b1 b2 u, Exchanged (s.checked.enter .cmd) u (identityEvents c1 c2 b0 b1 b2) ∧
      exec .identify s =
        .next (u.respond (identifyReply (countMatches c1 1 && countMatches c2 3, [b0, b1, b2]))) := by
  have hp := transaction_ends (k := 0) [0x9F] (.read 3) (h.returns.of_env (t := s.checked.enter .cmd) rfl rfl)
  have hnext : ∃ m u, Transacted (s.checked.enter .cmd) u [0x9F] (.read 3) m ∧
      exec .identify s = .next (u.respond (identifyReply m)) := by
    refine perform_cmd (proc := commandTransaction .readJedecId 0 (.read 3)) h.idle h.ready
      (hp.mono fun _ _ hT => hT.2) identifyReply fun m u => ?_
    unfold identifyReply
    split
    · rfl
    · split <;> rfl
  obtain ⟨m, u, hT, ht⟩ := hnext
  obtain ⟨c1, c2, b0, b1, b2, rfl, he⟩ := hT.identity
  exact ⟨c1, c2, b0, b1, b2, u, he, ht⟩

/-! ## The obligations -/

/-- Settles O57: a step that takes no instruction makes no call, and an instruction makes whole transactions or hangs in one. -/
theorem stepKeepsTransactionDiscipline : Obligations.StepKeepsTransactionDiscipline := by
  intro s t h hstep
  cases step_stepped hstep with
  | waits hs hin ht => exact ht ▸ h
  | ran hs w rest i hin hw hx =>
    have haccept : (s.accept w rest).BusInv := h.of_trace_eq hs (by simp [hs]) (by simp) (by simp)
    exact haccept.exec (by simp [hs]) hx
  | dropped hs w rest e hin hw ht => exact ht ▸ h.of_trace_eq hs hs rfl rfl
  | reset hs rest hin ht =>
    exact ht ▸ h.append_closed hs rfl (es := []) (by simp) rfl rfl
  | completed hs rest hin ht =>
    subst ht
    exact h.of_trace_eq hs ((State.onDevice_seq _ _).trans hs) (State.onDevice_trace _ _) (State.onDevice_cs _ _)
  | hangs hs hin ht => exact ht ▸ h

/-- Settles O16: each of the eight operations stands behind the mode test, whose answer touches nothing. -/
theorem unconfiguredOperationsAreRefused : Obligations.UnconfiguredOperationsAreRefused := by
  intro i s hi hs hm
  have hanswer := AnsweredWithoutBus.of_respond (Steady.checked s) rfl rfl rfl (notConfiguredReply i)
  rw [notConfiguredReply_code] at hanswer
  refine ⟨_, exec_unconfigured hi hs hm, hanswer, ?busy⟩
  case busy =>
    rintro rfl
    rfl

/-- Settles O35: the operation is one transaction that reads three bytes, and its match, the AND of both counts', decides
before the bytes do. -/
theorem identifyChecksCountsThenBytes : Obligations.IdentifyChecksCountsThenBytes := by
  intro s h
  obtain ⟨c1, c2, b0, b1, b2, u, he, ht⟩ := exec_identify_next h
  obtain ⟨hkept, hcs, hflash, htrace⟩ :=
    he.respond (identifyReply (countMatches c1 1 && countMatches c2 3, [b0, b1, b2]))
  have hcounts : (countMatches c1 1 && countMatches c2 3) = true ↔ c1 = 1 ∧ c2 = 3 := by simp [countMatches]
  refine ⟨_, c1, c2, b0, b1, b2, ht, hkept, hcs, hflash, htrace, ?code, fun hok => ?id⟩
  case code => simp only [State.respond_response, Reply.response_code, identifyReply_code, hcounts]
  case id =>
    rw [State.respond_response, Reply.response_id, identifyReply_id hok]
    rfl

end Sys2Proof.Machine
end

section
/-! PROOFS. The remaining encoding statements of 30_encoding.md: the two directions of the instruction codec (O1, O2), words of
the tables (O3), the header round trip and what a header decoder accepts (O6, O7), and the status byte (O8). -/

namespace Sys2Proof

/-! ## What each format of a wire transaction accepts -/

section Formats
variable {b : Byte} {rest : List Byte} {j : Instr}

/-- Format `W1` accepts the opcode alone (30_encoding.md R101). -/
theorem decodeW1_ok {i : Instr} (h : decodeW1 i b rest = .ok j) : rest = [] ∧ j = i := by
  unfold decodeW1 at h
  split at h
  · exact ⟨rfl, (Except.ok.inj h).symm⟩
  · cases h

/-- Format `W4` accepts three address bytes (30_encoding.md R102). -/
theorem decodeW4_ok {i : Addr24 → Instr} (h : decodeW4 i b rest = .ok j) : ∃ a, rest = addrBytes24 a ∧ j = i a := by
  unfold decodeW4 at h
  split at h
  · exact ⟨_, (addrBytes24_joinAddr _ _ _).symm, (Except.ok.inj h).symm⟩
  · cases h

/-- With a written payload, format `W4` accepts whatever follows the three address bytes (30_encoding.md R110). -/
theorem decodeW4Payload_ok {i : Addr24 → List Byte → Instr} (h : decodeW4Payload i b rest = .ok j) :
    ∃ a data, rest = addrBytes24 a ++ data ∧ j = i a data := by
  unfold decodeW4Payload at h
  split at h
  · exact ⟨_, _, by rw [addrBytes24_joinAddr]; rfl, (Except.ok.inj h).symm⟩
  · cases h

end Formats

/-! ## The instruction keeps the bytes it was decoded from -/

/-- Encoding the instruction gives the bytes of the transaction, and its read length where the instruction has one. -/
def KeepsFrame (f : Frame) (i : Instr) : Prop :=
  ∃ n, encode i = .wire { bytes := f.bytes, len := n } ∧ ∀ a k, i = .wireReadData a k → n = f.len

/-- An instruction without a read length keeps the bytes when its encoding does. -/
theorem KeepsFrame.of_wireWord {bytes : List Byte} {len : XWord} {i : Instr} (he : encode i = wireWord bytes)
    (hi : ∀ a k, i ≠ .wireReadData a k) : KeepsFrame { bytes := bytes, len := len } i :=
  ⟨0, he, fun a k h => absurd h (hi a k)⟩

theorem keepsFrame_of_decodeW1 {b : Byte} {rest : List Byte} {len : XWord} {i j : Instr} (h : decodeW1 i b rest = .ok j)
    (he : encode i = wireWord [b]) (hi : ∀ a k, i ≠ .wireReadData a k) :
    KeepsFrame { bytes := b :: rest, len := len } j := by
  obtain ⟨rfl, rfl⟩ := decodeW1_ok h
  exact .of_wireWord he hi

/-- A transaction without a format of the spec keeps what follows its opcode (30_encoding.md R114). -/
theorem keepsFrame_of_rest {bytes : List Byte} {len : XWord} {i j : Instr} (h : (.ok i : Except DecodeError Instr) = .ok j)
    (he : encode i = wireWord bytes) (hi : ∀ a k, i ≠ .wireReadData a k) : KeepsFrame { bytes := bytes, len := len } j := by
  cases h
  exact .of_wireWord he hi

/-- The first byte of a transaction that decodes stands in a row of the table, and the row's format keeps every byte. -/
theorem keepsFrame_of_decodeFrame {f : Frame} {i : Instr} (h : decodeFrame f = .ok i) : KeepsFrame f i := by
  obtain ⟨_ | ⟨b, rest⟩, len⟩ := f
  · cases h
  rcases decodeOpcode_cases b with hrow | ⟨hu, -⟩
  swap
  · simp [decodeFrame, hu] at h
  simp only [decodeFrame] at h
  generalize decodeOpcode b = m at h hrow
  cases m
  all_goals simp only [Config.opcodeTable, List.mem_cons, Prod.mk.injEq, reduceCtorEq, true_and, false_and, or_false,
    false_or, List.not_mem_nil] at hrow
  case eraseChip =>
    obtain rfl | rfl := hrow
    · exact keepsFrame_of_decodeW1 h rfl (by simp)
    · exact keepsFrame_of_decodeW1 h rfl (by simp)
  all_goals subst hrow
  case writeEnable => exact keepsFrame_of_decodeW1 h rfl (by simp)
  case readStatus => exact keepsFrame_of_decodeW1 h rfl (by simp)
  case readJedecId => exact keepsFrame_of_decodeW1 h rfl (by simp)
  case readData =>
    obtain ⟨a, rfl, rfl⟩ := decodeW4_ok h
    exact ⟨len, rfl, fun _ _ _ => rfl⟩
  case eraseBlock =>
    obtain ⟨a, rfl, rfl⟩ := decodeW4_ok h
    exact .of_wireWord rfl (by simp)
  case programPage =>
    obtain ⟨a, data, rfl, rfl⟩ := decodeW4Payload_ok h
    exact .of_wireWord rfl (by simp)
  all_goals exact keepsFrame_of_rest h rfl (by simp)

/-! ## Headers -/

/-- The three commands of format `W4` (30_encoding.md R107). -/
theorem Command.hasAddr_iff (c : Command) : c.hasAddr = true ↔ c = .readData ∨ c = .programPage ∨ c = .eraseBlock := by
  cases c <;> decide

/-- The opcode of an emitted command is one of its rows in the table, for one of the two chip-erase opcodes. -/
theorem opcode_of_command? {b : Byte} {c : Command} (h : (decodeOpcode b).command? = some c) :
    ∃ ec : EraseChipOpcode, b = c.opcode ec := by
  rcases decodeOpcode_cases b with hrow | ⟨hu, -⟩
  swap
  · simp [hu, Mnemonic.command?] at h
  generalize decodeOpcode b = m at h hrow
  cases m
  all_goals simp only [Config.opcodeTable, List.mem_cons, Prod.mk.injEq, reduceCtorEq, true_and, false_and, or_false,
    false_or, List.not_mem_nil] at hrow
  case eraseChip =>
    obtain rfl := Option.some.inj h
    obtain rfl | rfl := hrow
    · exact ⟨.c7, rfl⟩
    · exact ⟨.x60, rfl⟩
  all_goals
    subst hrow
    cases h <;> exact ⟨.c7, rfl⟩

/-- What a header decoder accepts is the header of its answer, of one byte or of four. -/
theorem encodeHeader_of_decodeHeader {h : List Byte} {c : Command} {o : Option Addr24}
    (hd : decodeHeader h = some (c, o)) :
    ∃ (ec : EraseChipOpcode) (a : Addr24), h = encodeHeader ec c a ∧ o = if c.hasAddr then some a else none := by
  unfold decodeHeader at hd
  split at hd
  case h_1 b =>
    split at hd
    · next c' hc =>
      obtain ⟨ec, rfl⟩ := opcode_of_command? hc
      split at hd
      · cases hd
      · next ha =>
        cases hd
        exact ⟨ec, 0, (encodeHeader_of_not_hasAddr (Bool.not_eq_true _ ▸ ha) ec 0).symm, (if_neg ha).symm⟩
    · cases hd
  case h_2 b h1 h2 h3 =>
    split at hd
    · next c' hc =>
      obtain ⟨ec, rfl⟩ := opcode_of_command? hc
      split at hd
      · next ha =>
        cases hd
        exact ⟨ec, joinAddr h1 h2 h3, by simp [encodeHeader, ha], (if_pos ha).symm⟩
      · cases hd
    · cases hd
  case h_3 => cases hd

/-! ## The status byte -/

/-- Bit `k` of a byte as a remainder (30_encoding.md R111). -/
theorem getLsbD_iff_div_mod (s : Byte) (k : Nat) : s.getLsbD k = true ↔ s.toNat / 2 ^ k % 2 = 1 := by
  rw [← BitVec.testBit_toNat, Nat.testBit_eq_decide_div_mod_eq, decide_eq_true_iff]

end Sys2Proof

namespace Sys2Proof.Machine

/-- The wire address is the operand modulo `2^24` (30_encoding.md R103). -/
theorem wireAddr_toNat (a : XWord) : (wireAddr a).toNat = a.toNat % 2 ^ 24 := BitVec.toNat_setWidth 24 a

theorem wireAddr_eq_ofNat (a : XWord) : wireAddr a = BitVec.ofNat 24 (a.toNat % 2 ^ 24) :=
  BitVec.eq_of_toNat_eq (by rw [wireAddr_toNat, BitVec.toNat_ofNat, Nat.mod_mod])

/-! ## The obligations -/

/-- Settles O1: a host request dispatches on its selector, a wire row on its opcode, and three bytes give their address back. -/
theorem decodeInvertsEncode : Obligations.DecodeInvertsEncode := by
  intro i
  cases i with
  | wireReadData a n => exact decodeFrame_readData a n
  | wireProgramPage a data => exact decodeFrame_programPage a data 0
  | wireEraseBlock a => exact decodeFrame_eraseBlock a 0
  | _ => rfl

/-- Settles O2: each row's format accepts only bytes its instruction keeps. -/
theorem wireDecodingKeepsEveryByte : Obligations.WireDecodingKeepsEveryByte :=
  fun _ _ h => keepsFrame_of_decodeFrame h

/-- Settles O3: the decoder computes on the eleven words. -/
theorem wordsOfTheTablesDecode : Obligations.WordsOfTheTablesDecode :=
  ⟨rfl, rfl, rfl, rfl, rfl, rfl, rfl, rfl, rfl, rfl, rfl⟩

/-- Settles O6: the header gives back its command and the 24 bits of the address it carries. -/
theorem headerRoundTrip : Obligations.HeaderRoundTrip := by
  intro ec c a
  simp only [decodeHeader_encodeHeader, Command.hasAddr_iff, wireAddr_eq_ofNat]

/-- Settles O7: the length of what is accepted fixes the format, and the opcode byte is the command's. -/
theorem onlyHeadersDecode : Obligations.OnlyHeadersDecode := by
  intro h c o hd
  simpa only [Command.hasAddr_iff] using encodeHeader_of_decodeHeader hd

/-- Settles O8: each field is the bits of the byte that `DecodeStatus` names, and the busy bit is bit 0. -/
theorem statusByteFields : Obligations.StatusByteFields := by
  intro s
  refine ⟨?wip, getLsbD_iff_div_mod s 1, ?bp, getLsbD_iff_div_mod s 6, getLsbD_iff_div_mod s 7,
    (and_one_ne_zero_iff s).symm⟩
  case wip => simpa [decodeStatus] using getLsbD_iff_div_mod s 0
  case bp => simp [decodeStatus, Nat.shiftRight_eq_div_pow]

end Sys2Proof.Machine
end

section
/-! PROOFS. What a step and an instruction leave of the core: steps in `IDLE` (O10 to O13) and outside it (O14, O15), who writes
the mode and the geometry (O19, O20, O58), who reaches the device (O50), the length of the trace (O53), the canonical form of the
flash (O59) and the state after reset (O60). -/

namespace Sys2Proof.Machine

/-! ## Outside `IDLE` -/

/-- Every instruction, the core's and the device's alone, tests the phase first (43_operations.md R205). -/
theorem exec_refused {s : State} (h : s.seq ≠ .idle) (i : Instr) : exec i s = .refused .requestWhileExecuting := by
  cases i <;> exact if_neg h

/-- While an operation executes, a step refuses a reset and otherwise does nothing (70_reset_and_hazards.md R261, R276). -/
theorem step_of_busy {s : State} (h : s.seq ≠ .idle) :
    (∀ rest, s.inputs = .reset :: rest → step s = .refused .resetWhileExecuting) ∧
      ((∀ rest, s.inputs ≠ .reset :: rest) → step s = .next s) := by
  unfold step
  cases hs : s.seq with
  | idle => exact absurd hs h
  | _ => rcases hin : s.inputs with _ | ⟨_ | _ | _, rest⟩ <;> simp

/-! ## What an instruction leaves of the core -/

section Exec
variable {i : Instr} {s t : State}

/-- An instruction that ends outside `IDLE` hangs. -/
theorem exec_hung (h : exec i s = .next t) (ht : t.seq ≠ .idle) : Hung s t := by
  cases exec_did h with
  | hung hm hH => exact hH
  | refused u r hu hc he => exact absurd (he ▸ rfl) ht
  | configured ps ebs ts hi hm hg he => exact absurd (he ▸ rfl) ht
  | exchanged header p c o u m r hm hh hf hk hT hc hi hn he => exact absurd (he ▸ rfl) ht
  | stopped header p u r hm hi hG he => exact absurd (he ▸ rfl) ht
  | passed header p c o u r hm hi hh hf hG he => exact absurd (he ▸ rfl) ht
  | unsent bytes hi hs hx he => exact absurd (he ▸ hs) ht
  | device bytes hi hs hx he => exact absurd (he ▸ (s.onDevice_seq _).trans hs) ht

/-- Every instruction but a successful `configure` leaves the registers of the core as they are. -/
theorem exec_kept_or_configured (h : exec i s = .next t) :
    (t.mode = s.mode ∧ t.geom = s.geom ∧ t.exclusive = s.exclusive) ∨
      ∃ ps ebs ts, i = .configure ps ebs ts ∧ s.mode = .unconfigured ∧ checkGeometry ps ebs ts = none ∧
        t = (s.checked.setGeometry (deriveGeometry ps ebs ts)).respond { code := .ok } := by
  cases exec_did h with
  | refused u r hu hc ht =>
    subst ht
    rcases hu with rfl | rfl <;> exact .inl ⟨rfl, rfl, rfl⟩
  | configured ps ebs ts hi hm hg ht => exact .inr ⟨ps, ebs, ts, hi, hm, hg, ht⟩
  | exchanged header p c o u m r hm hh hf hk hT hc hi hn ht =>
    exact .inl (ht ▸ ⟨hT.kept.mode, hT.kept.geom, hT.kept.exclusive⟩)
  | stopped header p u r hm hi hG ht => exact .inl (ht ▸ ⟨hG.steady.mode, hG.steady.geom, hG.steady.exclusive⟩)
  | passed header p c o u r hm hi hh hf hG ht => exact .inl (ht ▸ ⟨hG.steady.mode, hG.steady.geom, hG.steady.exclusive⟩)
  | hung hm hH => exact .inl ⟨hH.steady.mode, hH.steady.geom, hH.steady.exclusive⟩
  | unsent bytes hi hs hx ht => exact .inl (ht ▸ ⟨rfl, rfl, rfl⟩)
  | device bytes hi hs hx ht => exact .inl (ht ▸ ⟨s.onDevice_mode _, s.onDevice_geom _, s.onDevice_exclusive _⟩)

theorem exec_exclusive (h : exec i s = .next t) : t.exclusive = s.exclusive := by
  rcases exec_kept_or_configured h with ⟨-, -, hx⟩ | ⟨ps, ebs, ts, -, -, -, rfl⟩
  · exact hx
  · rfl

/-! ## The trace and the device -/

/-- A transaction makes at most four calls, and at least one. -/
theorem Transacted.trace_append {header : List Byte} {p : Payload} {m : Bool × List Byte}
    (h : Transacted s t header p m) : ∃ es, t.trace = s.trace ++ es ∧ es.length ≤ 4 ∧ es ≠ [] := by
  obtain ⟨c1, pe, ok2, htrace, hp, -⟩ := h.trace
  have hlen := hp.length_le
  exact ⟨_, htrace, by simp; omega, by simp⟩

/-- An instruction appends at most eleven calls to the trace (43_operations.md R201). One that appends none leaves the device as
it is, where the transport is the core's alone (60_exceptions.md R250). -/
theorem exec_trace_append (h : exec i s = .next t) :
    ∃ es, t.trace = s.trace ++ es ∧ es.length ≤ 11 ∧ (es = [] → s.exclusive = true → t.env.dev = s.env.dev) := by
  cases exec_did h with
  | refused u r hu hc ht =>
    subst ht
    rcases hu with rfl | rfl <;> exact ⟨[], by simp, by simp, fun _ _ => rfl⟩
  | configured ps ebs ts hi hm hg ht => exact ⟨[], by simp [ht], by simp, fun _ _ => ht ▸ rfl⟩
  | exchanged header p c o u m r hm hh hf hk hT hc hi hn ht =>
    obtain ⟨es, htrace, hlen, hne⟩ := hT.trace_append
    exact ⟨es, ht ▸ htrace, by omega, fun he => absurd he hne⟩
  | stopped header p u r hm hi hG ht =>
    subst ht
    obtain ⟨c1, c2, b, htrace, -⟩ := hG.trace
    exact ⟨_, htrace, by simp, by simp⟩
  | passed header p c o u r hm hi hh hf hG ht =>
    obtain ⟨c1, c2, b, c3, v, m, -, -, -, hgate, hT, -⟩ := hG.trace
    obtain ⟨es, htrace, hlen, -⟩ := hT.trace_append
    refine ⟨statusEvents c1 c2 b ++ wrenEvents c3 ++ es, ?_, by simp; omega, by simp⟩
    rw [ht, State.respond_trace, htrace, hgate, List.append_assoc, State.checked_trace]
  | hung hm hH =>
    obtain ⟨es, c, htrace, hlen, -⟩ := hH.trace
    exact ⟨_, htrace, by simp; omega, by simp⟩
  | unsent bytes hi hs hx ht => exact ⟨[], by simp [ht], by simp, fun _ _ => ht ▸ rfl⟩
  | device bytes hi hs hx ht => exact ⟨[], by simp [ht], by simp, fun _ hx' => absurd (hx.symm.trans hx') (by decide)⟩

/-- An operation behind the gate keeps the canonical form: the array reaches its command as it was. -/
theorem GatePassed.wf {header : List Byte} {p : Payload} {r : Reply} (h : GatePassed s t header p r)
    (hs : s.env.dev.mem.wf) : t.env.dev.mem.wf := by
  obtain ⟨c1, c2, b, c3, v, m, -, -, hmem, -, hT, -⟩ := h.trace
  exact hT.wf (hmem ▸ hs)

theorem exec_flashCanonical (hs : s.FlashCanonical) (h : exec i s = .next t) : t.FlashCanonical := by
  unfold State.FlashCanonical at hs ⊢
  cases exec_did h with
  | refused u r hu hc ht =>
    subst ht
    rcases hu with rfl | rfl <;> exact hs
  | configured ps ebs ts hi hm hg ht => exact ht ▸ hs
  | exchanged header p c o u m r hm hh hf hk hT hc hi hn ht => exact ht ▸ hT.wf hs
  | stopped header p u r hm hi hG ht => exact ht ▸ hG.mem.symm ▸ hs
  | passed header p c o u r hm hi hh hf hG ht => exact ht ▸ hG.wf hs
  | hung hm hH => exact hH.mem.symm ▸ hs
  | unsent bytes hi hs' hx ht => exact ht ▸ hs
  | device bytes hi hs' hx ht =>
    rw [ht, State.onDevice_dev]
    split
    · exact SimFlash.receive_wf hs bytes
    · exact hs

end Exec

/-! ## The obligations -/

/-- Settles O58: a reset leaves `Ready`, and of the instructions only `configure` writes the geometry, with a legal one. -/
theorem stepKeepsGeometry : Obligations.StepKeepsGeometry := by
  intro s t h hstep hready
  cases step_stepped hstep with
  | waits hs hin ht => subst ht; exact h hready
  | ran hs w rest i hin hw hx =>
    rcases exec_kept_or_configured hx with ⟨hmode, hgeom, -⟩ | ⟨ps, ebs, ts, -, -, hc, rfl⟩
    · rw [State.accept_mode] at hmode
      rw [hgeom, State.accept_geom]
      exact h (hmode ▸ hready)
    · exact deriveGeometry_legal hc
  | dropped hs w rest e hin hw ht => subst ht; exact h hready
  | reset hs rest hin ht => subst ht; cases hready
  | completed hs rest hin ht =>
    subst ht
    rw [State.completeEvent, State.onDevice_mode] at hready
    rw [State.completeEvent, State.onDevice_geom]
    exact h hready
  | hangs hs hin ht => subst ht; exact h hready

/-- Settles O14: the phase test of every instruction, and the reset case of a step outside `IDLE`. -/
theorem nothingRunsWhileExecuting : Obligations.NothingRunsWhileExecuting :=
  fun _ hs => ⟨exec_refused hs, (step_of_busy hs).1⟩

/-- Settles O15: only a hung call ends outside `IDLE`, and there a step stutters. -/
theorem unansweredCallHangsForGood : Obligations.UnansweredCallHangsForGood := by
  intro i s t h ht
  have hH := exec_hung h ht
  obtain ⟨es, c, htrace, -⟩ := hH.trace
  exact ⟨⟨c, es, by rw [htrace, List.append_assoc]⟩, hH.steady.response, hH.steady.mode, hH.steady.geom,
    (step_of_busy ht).2⟩

/-- Settles O19: of all an instruction can do, only a successful `configure` writes either of them. -/
theorem onlyConfigureWritesTheCore : Obligations.OnlyConfigureWritesTheCore := by
  intro i s t h
  rcases exec_kept_or_configured h with ⟨hmode, hgeom, -⟩ | ⟨ps, ebs, ts, hi, hm, -, rfl⟩
  · exact .inl ⟨hmode, hgeom⟩
  · exact .inr ⟨⟨ps, ebs, ts, hi⟩, hm, rfl, rfl⟩

/-- Settles O20: every step but a reset keeps the mode of a `Ready` core. -/
theorem readyIsLeftByResetOnly : Obligations.ReadyIsLeftByResetOnly := by
  intro s t hstep hready hleft
  cases step_stepped hstep with
  | waits hs hin ht => exact absurd (ht ▸ hready) hleft
  | ran hs w rest i hin hw hx =>
    rcases exec_kept_or_configured hx with ⟨hmode, -, -⟩ | ⟨ps, ebs, ts, -, -, -, rfl⟩
    · exact absurd (hmode.trans ((s.accept_mode w rest).trans hready)) hleft
    · exact absurd rfl hleft
  | dropped hs w rest e hin hw ht => exact absurd (ht ▸ hready) hleft
  | reset hs rest hin ht => exact ⟨rest, hin⟩
  | completed hs rest hin ht => exact absurd (ht ▸ (State.onDevice_mode _ _).trans hready) hleft
  | hangs hs hin ht => exact absurd (ht ▸ hready) hleft

/-- Settles O50: nothing writes the ownership, and an instruction that makes no call leaves the device as it is. -/
theorem onlyTheCoreReachesTheDevice : Obligations.OnlyTheCoreReachesTheDevice := by
  intro s t hx hstep
  cases step_stepped hstep with
  | waits hs hin ht => subst ht; exact ⟨hx, .inl rfl⟩
  | ran hs w rest i hin hw hexec =>
    have hown : (s.accept w rest).exclusive = true := (s.accept_exclusive w rest).trans hx
    refine ⟨(exec_exclusive hexec).trans hown, ?_⟩
    obtain ⟨_ | ⟨e, es⟩, htrace, -, hdev⟩ := exec_trace_append hexec
    · exact .inl (by simpa using hdev rfl hown)
    · exact .inr (.inr ⟨e, es, by simpa using htrace⟩)
  | dropped hs w rest e hin hw ht => subst ht; exact ⟨hx, .inl rfl⟩
  | reset hs rest hin ht => subst ht; exact ⟨hx, .inl rfl⟩
  | completed hs rest hin ht =>
    subst ht
    refine ⟨(State.onDevice_exclusive _ _).trans hx, ?_⟩
    rw [State.completeEvent, State.onDevice_dev]
    split
    · exact .inr (.inl ⟨rest, hin, rfl⟩)
    · exact .inl rfl
  | hangs hs hin ht => subst ht; exact ⟨hx, .inl rfl⟩

/-- Settles O53: a gate's seven calls and a transaction's four are the most an instruction makes. -/
theorem atMostElevenCalls : Obligations.AtMostElevenCalls := by
  intro i s t h
  obtain ⟨es, htrace, hlen, -⟩ := exec_trace_append h
  exact ⟨es, htrace, hlen⟩

/-- Settles O59: the end of a cycle touches no byte, and what an instruction stores it stores in canonical form. -/
theorem stepKeepsFlashCanonical : Obligations.StepKeepsFlashCanonical := by
  intro s t h hstep
  cases step_stepped hstep with
  | waits hs hin ht => exact ht ▸ h
  | ran hs w rest i hin hw hx =>
    have haccept : (s.accept w rest).FlashCanonical := by rwa [State.FlashCanonical, State.accept_env]
    exact exec_flashCanonical haccept hx
  | dropped hs w rest e hin hw ht => exact ht ▸ h
  | reset hs rest hin ht => exact ht ▸ h
  | completed hs rest hin ht =>
    subst ht
    rw [State.FlashCanonical, State.completeEvent, State.onDevice_dev]
    split
    · exact (SimFlash.complete_mem _).symm ▸ h
    · exact h
  | hangs hs hin ht => exact ht ▸ h

/-- Settles O10: in `IDLE` a step takes the next input, and runs what it decodes to. -/
theorem stepRunsDecodedInstruction : Obligations.StepRunsDecodedInstruction := by
  intro s rest i hs
  refine ⟨fun r hin hd => ?host, fun f hin hd => ?wire⟩
  case host => simp only [step, hs, hin, hd, State.accept]
  case wire => simp only [step, hs, hin, hd, State.accept]

/-- Settles O11: the two cases of a step in `IDLE` that run nothing. -/
theorem idleStepsWithoutInstruction : Obligations.IdleStepsWithoutInstruction := by
  intro s hs
  refine ⟨fun hin => ?waits, fun f rest e hin hd => ?dropped⟩
  case waits => simp only [step, hs, hin]
  case dropped => simp only [step, hs, hin, hd, State.ignoreFrame]

/-- Settles O12: a reset event writes registers of the core alone. -/
theorem resetReturnsToUnconfigured : Obligations.ResetReturnsToUnconfigured := by
  intro s rest hs hin
  have hstep : step s = .next (s.ignoreFrame rest).resetEvent := by simp only [step, hs, hin]
  exact ⟨_, hstep, rfl, rfl, rfl, rfl, rfl, rfl, rfl, rfl⟩

/-- Settles O13: on the reference device the completion input ends the cycle that runs. -/
theorem completionClearsBothLatches : Obligations.CompletionClearsBothLatches := by
  intro s rest hs hin hkind hwip
  have hstep : step s = .next (s.ignoreFrame rest).completeEvent := by simp only [step, hs, hin]
  have hdone : s.env.dev.complete = { s.env.dev with wip := false, wel := false } := if_pos hwip
  rw [hstep, State.completeEvent, State.onDevice_sim (s.ignoreFrame rest) _ hkind, State.ignoreFrame_env, hdone]
  rfl

/-- Settles O60: `State.reset` is a literal; its trace and its array are empty, and it is not `Ready`. -/
theorem resetStateOfTheCore : Obligations.ResetStateOfTheCore :=
  ⟨rfl, rfl, rfl, rfl, rfl, rfl, rfl, (State.busInv_idle rfl).2 ⟨rfl, rfl⟩, nofun, Memory.wf_nil⟩

end Sys2Proof.Machine
end

section
/-! PROOFS. What errors leave (O17, O21, O22), the frames of the instructions on the flash (O49, O51, O52), the phases of a
successful operation (O54), scripted answers (O56), and what an accepted request covers (O33, O34). -/

namespace Sys2Proof.Machine

/-! ## The kinds of instructions -/

section Kinds
variable {i : Instr} {s : State} {bytes header : List Byte} {p : Payload}

/-- A command the core never emits is no host operation, is recognised by its first byte alone (30_encoding.md R114), and is
left to the device. -/
theorem Unemitted.spec (h : Unemitted i bytes) :
    isHostOp i = false ∧ decodeFrame { bytes := bytes, len := 0 } = .ok i ∧ ∀ s, exec i s = deviceOnly bytes s := by
  cases i with
  | wireWriteDisable _ | wireWriteStatus _ | wireReadDataFast _ | wireReadDataFastDual _ | wireEraseSector _
  | wirePowerDown _ | wirePowerUp _ =>
    obtain rfl := h
    exact ⟨rfl, rfl, fun _ => rfl⟩
  | _ => exact h.elim

/-- The only effect any of them has on a device is that of `WRITE_DISABLE` alone (20_memory.md R90, R95). -/
theorem Unemitted.commit (h : Unemitted i bytes) (d : SimFlash) :
    d.commit i = if i = .wireWriteDisable [] then { d with wel := false } else d := by
  cases i with
  | wireWriteDisable rest => cases rest <;> rfl
  | wireWriteStatus _ | wireReadDataFast _ | wireReadDataFastDual _ | wireEraseSector _ | wirePowerDown _
  | wirePowerUp _ => rfl
  | _ => exact h.elim

theorem LoneMutation.mayChangeFlash (h : LoneMutation i header p) : mayChangeFlash i = true := by
  cases i with
  | wireEraseBlock _ | wireEraseChip | wireEraseChipAlt | wireProgramPage _ _ => rfl
  | _ => exact h.elim

/-- Three host operations stand behind the gate (41_status_gate.md R159). -/
theorem Gated.mutating (h : Gated s i header p) :
    (∃ a, i = .eraseBlock a) ∨ i = .eraseAll ∨ ∃ a buf, i = .program a buf := by
  cases i with
  | eraseBlock a => exact .inl ⟨a, rfl⟩
  | eraseAll => exact .inr (.inl rfl)
  | program a buf => exact .inr (.inr ⟨a, buf, rfl⟩)
  | _ => exact h.elim

/-- The three of them are host operations that may change a byte. -/
theorem Gated.kind (h : Gated s i header p) : isHostOp i = true ∧ Machine.mayChangeFlash i = true := by
  rcases h.mutating with ⟨a, rfl⟩ | rfl | ⟨a, buf, rfl⟩ <;> exact ⟨rfl, rfl⟩

end Kinds

/-! ## A transaction the core takes no part in, on the device -/

/-- The transaction of an unemitted command on the device: its bytes are received, and at most the latch is cleared. -/
theorem Unemitted.receive {i : Instr} {bytes : List Byte} (h : Unemitted i bytes) (d : SimFlash) :
    (d.receive bytes).mem = d.mem ∧ (d.receive bytes).wip = d.wip ∧
      (d.receive bytes).wel = if i = .wireWriteDisable [] then false else d.wel := by
  obtain ⟨-, hdecode, -⟩ := h.spec
  rw [SimFlash.receive, SimFlash.close_of_decode hdecode, h.commit]
  split <;> exact ⟨rfl, rfl, rfl⟩

/-- On a transport the core does not own an unemitted command leaves the core as it is. -/
theorem coreKept_onDevice {s : State} {f : SimFlash → SimFlash} (hs : s.seq = .idle)
    (hf : SameDevice s.env.dev (f s.env.dev)) : CoreKept s (s.onDevice f) := by
  have hk := Kept.onDevice s hf
  exact ⟨hk.mode, hk.geom, hk.latch, hk.eraseChip, hk.exclusive, hk.inputs, hk.kind, hk.size, hk.page, hk.block, hk.ident,
    hk.seq.trans hs⟩

/-! ## What an operation behind the gate answers -/

section Gate
variable {s t : State} {header : List Byte} {p : Payload} {r : Reply}

theorem foldedCode_ok_iff {b : Bool} : foldedCode b = .ok ↔ b = true := by
  cases b <;> decide

theorem foldedCode_cases (b : Bool) : foldedCode b = .ok ∨ foldedCode b = .transportError := by
  cases b
  · exact .inr rfl
  · exact .inl rfl

theorem GatePassed.code (h : GatePassed s t header p r) : r.code = .ok ∨ r.code = .transportError := by
  obtain ⟨c1, c2, b, c3, v, m, -, -, -, -, -, rfl⟩ := h.trace
  exact foldedCode_cases _

/-- With no device behind the transport an operation behind the gate leaves the array as it is. -/
theorem GatePassed.mem_of_arbitrary (h : GatePassed s t header p r) (hk : s.env.kind = .arbitrary) :
    t.env.dev.mem = s.env.dev.mem := by
  obtain ⟨c1, c2, b, c3, v, m, -, hv, hmem, -, hT, -⟩ := h.trace
  rw [hT.arbitrary (hv.kind.trans hk), hmem]

/-- A successful operation behind the gate on a device: a device of the same parameters and contents closes the command. -/
theorem GatePassed.on_device (h : GatePassed s t header p r) (hk : s.env.kind = .simFlash) (hok : r.code = .ok) :
    ∃ d : SimFlash, SameDevice s.env.dev d ∧ d.mem = s.env.dev.mem ∧ d.tx = header ++ p.written ∧
      t.env.dev = d.close := by
  obtain ⟨c1, c2, b, c3, v, m, -, hv, hmem, -, hT, rfl⟩ := h.trace
  obtain ⟨-, hm⟩ : countMatches c3 1 = true ∧ m.1 = true := by simpa using foldedCode_ok_iff.1 hok
  obtain ⟨d, rdn, hd, hclose, -⟩ := hT.on_device (hv.kind.trans hk) hm
  refine ⟨_, ?_, ?_, rfl, hclose⟩
  · have hsame : SameDevice v.env.dev d := by
      rcases hd with rfl | rfl
      · exact ⟨rfl, rfl, rfl, rfl⟩
      · exact SimFlash.complete_same _
    exact ⟨hsame.size.trans hv.size, hsame.page.trans hv.page, hsame.block.trans hv.block, hsame.ident.trans hv.ident⟩
  · rcases hd with rfl | rfl
    · exact hmem
    · exact (SimFlash.complete_mem _).trans hmem

end Gate

/-! ## What the closing erases and programs leave of the array -/

section Close
variable {d e : SimFlash} {a : Addr24} {data : List Byte}

theorem SimFlash.inBlock_same (h : SameDevice d e) : e.inBlock = d.inBlock := by
  funext a x
  simp [SimFlash.inBlock, h.size, h.block]

theorem SimFlash.close_eraseBlock (h : d.tx = 0xD8 :: addrBytes24 a) :
    d.close = if d.accepts then d.startCycle (d.mem.erase (d.inBlock a.toNat)) else d :=
  SimFlash.close_of_decode (h ▸ decodeFrame_eraseBlock a 0)

theorem SimFlash.close_programPage (h : d.tx = 0x02 :: (addrBytes24 a ++ data)) :
    d.close = if d.accepts then d.startCycle (d.programFrom a.toNat d.mem 0 data) else d :=
  SimFlash.close_of_decode (h ▸ decodeFrame_programPage a data 0)

/-- Outside its block an erase changes no byte. -/
theorem SimFlash.close_eraseBlock_read (h : d.tx = 0xD8 :: addrBytes24 a) {x : Nat} (hx : d.inBlock a.toNat x = false) :
    d.close.mem.read x = d.mem.read x := by
  rw [SimFlash.close_eraseBlock h]
  split
  · rw [SimFlash.startCycle, Memory.read_erase, hx, if_neg Bool.false_ne_true]
  · rfl

/-- Outside the addresses of its payload a program changes no byte. -/
theorem SimFlash.close_programPage_read (h : d.tx = 0x02 :: (addrBytes24 a ++ data)) (hwf : d.mem.wf) {x : Nat}
    (hx : ∀ j < data.length, d.programAddr a.toNat j ≠ x) : d.close.mem.read x = d.mem.read x := by
  rw [SimFlash.close_programPage h]
  split
  · exact d.programFrom_read_other _ x data _ 0 hwf fun j hj he => absurd (by rwa [Nat.zero_add] at he) (hx j hj)
  · rfl

end Close

/-! ## What an instruction answers and leaves -/

section Exec
variable {i : Instr} {s t : State}

/-- In `Unconfigured` a lone transaction of the core is answered by the mode test. -/
theorem exec_wire_unconfigured (hi : isEmittedWire i = true) (hs : s.seq = .idle) (hm : s.mode = .unconfigured) :
    exec i s = .next (s.checked.respond { code := .notConfigured }) :=
  match i, hi with
  | .wireWriteEnable, _ => perform_ifReady_unconfigured _ _ hs hm
  | .wireReadStatus, _ => perform_ifReady_unconfigured _ _ hs hm
  | .wireReadJedecId, _ => perform_ifReady_unconfigured _ _ hs hm
  | .wireReadData _ _, _ => perform_ifReady_unconfigured _ _ hs hm
  | .wireProgramPage _ _, _ => perform_ifReady_unconfigured _ _ hs hm
  | .wireEraseBlock _, _ => perform_ifReady_unconfigured _ _ hs hm
  | .wireEraseChip, _ => perform_ifReady_unconfigured _ _ hs hm
  | .wireEraseChipAlt, _ => perform_ifReady_unconfigured _ _ hs hm

/-- An instruction that is no erase and no program leaves the array as it is. -/
theorem exec_mem_of_quiet (hquiet : mayChangeFlash i = false) (h : exec i s = .next t) : t.env.dev.mem = s.env.dev.mem := by
  cases exec_did h with
  | refused u r hu hc ht =>
    subst ht
    rcases hu with rfl | rfl <;> rfl
  | configured ps ebs ts hi hm hg ht => subst ht; rfl
  | exchanged header p c o u m r hm hh hf hk hT hc hi hn ht =>
    subst ht
    rcases hk with ⟨hq, hp⟩ | hl
    · exact hT.mem_of_quiet hq hp
    · exact absurd (hquiet.symm.trans hl.mayChangeFlash) (by decide)
  | stopped header p u r hm hi hG ht => subst ht; exact hG.mem
  | passed header p c o u r hm hg hh hf hG ht => exact absurd (hquiet.symm.trans hg.kind.2) (by decide)
  | hung hm hH => exact hH.mem
  | unsent bytes hi hs hx ht => rw [ht]
  | device bytes hb hs hx ht =>
    rw [ht, State.onDevice_dev]
    split
    · exact (hb.receive _).1
    · rfl

end Exec

/-- How a host operation ends that responded, sorted by the code it answers (60_exceptions.md R231, R240). -/
inductive Answered (s t : State) (i : Instr) : Prop where
  /-- an error in front of the bus -/
  | early (hc : BeforeTheBus t.response.code) (ha : AnsweredWithoutBus s t t.response.code)
  /-- a successful `configure` -/
  | configured (ps ebs ts : XWord) (hi : i = .configure ps ebs ts) (hc : t.response.code = .ok)
      (hp : t.phases = [.idle, .check, .respond, .idle])
  /-- one transaction outside the gate -/
  | exchanged (hi : mayChangeFlash i = false) (hn : ∀ ps ebs ts, i ≠ .configure ps ebs ts)
      (hc : t.response.code ∈ [.ok, .transportError, ResultCode.implausibleId])
      (hp : t.phases = [.idle, .check, .cmd, .respond, .idle])
  /-- the gate stopped the operation -/
  | stopped (header : List Byte) (p : Payload) (u : State) (r : Reply) (hi : Gated s i header p)
      (hG : GateStopped s.checked u r) (ht : t = u.respond r) (hc : t.response.code = .deviceBusy)
  /-- the gate let the operation pass -/
  | passed (header : List Byte) (p : Payload) (u : State) (r : Reply) (hi : Gated s i header p)
      (hG : GatePassed s.checked u header p r) (ht : t = u.respond r)
      (hc : t.response.code = .ok ∨ t.response.code = .transportError)

theorem exec_answered {i : Instr} {s t : State} (hi : isHostOp i = true) (h : exec i s = .next t) (ht : t.seq = .idle) :
    Answered s t i := by
  cases exec_did h with
  | refused u r hu hc he =>
    subst he
    rcases hu with rfl | rfl
    · exact .early hc (.of_respond (Steady.checked s) rfl rfl rfl r)
    · exact .early hc (.of_respond (Steady.start s) rfl rfl rfl r)
  | configured ps ebs ts hconf hm hg he => subst he; exact .configured ps ebs ts hconf rfl rfl
  | exchanged header p c o u m r hm hh hf hk hT hc hmay hn he =>
    subst he
    have hquiet : mayChangeFlash i = false := by
      by_contra hne
      exact Bool.false_ne_true ((hmay (Bool.not_eq_false _ ▸ hne)).symm.trans hi)
    have hphases : u.phases = [.idle, .check, .cmd] := hT.kept.phases
    exact .exchanged hquiet hn hc (by rw [State.respond_phases, hphases]; rfl)
  | stopped header p u r hm hg hG he =>
    exact .stopped header p u r hg hG he (by rw [he, State.respond_response, hG.reply]; rfl)
  | passed header p c o u r hm hg hh hf hG he => exact .passed header p u r hg hG he (he ▸ hG.code)
  | hung hm hH => exact absurd ht hH.busy
  | unsent bytes hb hs hx he => exact absurd (hb.spec.1.symm.trans hi) (by decide)
  | device bytes hb hs hx he => exact absurd (hb.spec.1.symm.trans hi) (by decide)

/-! ## Scripted answers -/

section Scripted
variable {s : State} {c : Nat} {bs : List Byte} {rest : List Answer}

theorem transportWrite_scripted (hk : s.env.kind = .arbitrary) (hs : s.env.script = .returns c bs :: rest)
    (sent : List Byte) :
    transportWrite sent s =
      .done c (({ s with env := { s.env with script := rest } } : State).record (.write sent) (.returns c [])) := by
  rw [transportWrite, State.choose_cons hs]
  simp [State.transferred, State.onDevice, hk]

theorem transportRead_scripted (hk : s.env.kind = .arbitrary) (hs : s.env.script = .returns c bs :: rest) (k : Nat) :
    transportRead k s =
      .done (c, fillBuffer k c (bs.map some) s.draws)
        (({ s with env := { s.env with script := rest } } : State).tick.record (.read k)
          (.returns c (fillBuffer k c (bs.map some) s.draws))) := by
  rw [transportRead, State.choose_cons hs]
  simp [State.transferred, State.received, State.onDevice, hk]

end Scripted

/-! ## What an accepted request covers -/

/-- A block size that the page size divides divides the end address: pages fill each block. -/
theorem Geometry.Legal.block_dvd_end {g : Geometry} (h : g.Legal) (hp : g.pageSize.toNat ∣ g.eraseBlockSize.toNat) :
    g.eraseBlockSize.toNat ∣ g.endAddress.toNat := by
  rw [h.end_eq, h.pages, Nat.mul_div_cancel' hp]
  exact Nat.dvd_mul_right _ _

/-- The start of every accepted request lies in front of the end address. -/
theorem lt_end_of_accepted {g : Geometry} {a n : Nat}
    (h : checkRead g a n = none ∨ checkErase g a = none ∨ checkProgram g a n = none) : a < g.endAddress.toNat := by
  rcases h with h | h | h
  · exact (Nat.le_add_right a n).trans_lt (checkRead_none.1 h)
  · exact (checkErase_none.1 h).2
  · exact (checkProgram_none.1 h).1

/-! ## The obligations -/

/-- Settles O17: each of the eight lone transactions stands behind the mode test, whose answer touches nothing. -/
theorem wireTransactionsNeedReady : Obligations.WireTransactionsNeedReady :=
  fun _ s hi hs hm => ⟨_, exec_wire_unconfigured hi hs hm, answeredWithoutBus_checked s _⟩

/-- Settles O21: everything but an error in front of the bus answers one of the four codes the list leaves out. -/
theorem earlyErrorsTouchNothing : Obligations.EarlyErrorsTouchNothing := by
  intro i s t hi h ht hcode
  cases exec_answered hi h ht with
  | early hc ha => exact ha
  | configured ps ebs ts hconf hc => exact absurd hcode (by rw [hc]; decide)
  | exchanged hquiet hn hc => exact absurd hc (by revert hcode; cases t.response.code <;> decide)
  | stopped header p u r hg hG he hc => exact absurd hcode (by rw [hc]; decide)
  | passed header p u r hg hG he hc => rcases hc with hc | hc <;> exact absurd hcode (by rw [hc]; decide)

/-- Settles O22: of all ways an operation can end, only a gate that stopped it answers `DeviceBusy`. -/
theorem deviceBusyAfterOneStatusRead : Obligations.DeviceBusyAfterOneStatusRead := by
  intro i s t hi h ht hcode
  cases exec_answered hi h ht with
  | stopped header p u r hg hG he hc =>
    subst he
    have hkept := ((Steady.checked s).trans hG.steady).respond r
    exact ⟨hg.mutating, hkept, hG.cs, fun a => congrArg (·.read a) hG.mem, hG.trace⟩
  | early hc => exact absurd hc (by rw [hcode]; decide)
  | configured ps ebs ts hconf hc => cases hcode.symm.trans hc
  | exchanged hquiet hn hc => exact absurd hc (by rw [hcode]; decide)
  | passed header p u r hg hG he hc => exact absurd hc (by rw [hcode]; decide)

/-- Settles O33: the address and the end address are multiples of the block size, so a block fits between them. -/
theorem acceptedEraseStaysInside : Obligations.AcceptedEraseStaysInside := by
  intro g a hl hpow hpage hc
  obtain ⟨hmask, hlt⟩ := checkErase_none.1 hc
  have hdvd : g.eraseBlockSize.toNat ∣ a.toNat := Nat.dvd_of_mod_eq_zero ((mask_eq_mod hpow).symm.trans hmask)
  have hend := hl.block_dvd_end hpage
  refine ⟨hdvd, ?_⟩
  exact ((Nat.modEq_zero_iff_dvd.2 hdvd).trans (Nat.modEq_zero_iff_dvd.2 hend).symm).add_le_of_lt hlt

/-- Settles O34: an accepted address lies in front of an end address of at most `2^24`. -/
theorem wireAddressIsExactWhenItFits : Obligations.WireAddressIsExactWhenItFits := by
  intro g a n hfits h
  rw [wireAddr_toNat]
  exact Nat.mod_eq_of_lt ((lt_end_of_accepted h).trans_le hfits)

/-- Settles O49: on the core's own transport nothing happens; on another the device receives the bytes. -/
theorem unemittedCommandsLeaveTheCore : Obligations.UnemittedCommandsLeaveTheCore := by
  intro i s rest hi hs
  have hu : ∃ bytes, Unemitted i bytes := by
    rcases hi with rfl | rfl | rfl | rfl | rfl | rfl | rfl <;> exact ⟨_, rfl⟩
  obtain ⟨bytes, hu⟩ := hu
  have hexec := hu.spec.2.2 s
  refine ⟨fun hx => hexec.trans (deviceOnly_exclusive hs hx), fun hx => ?shared⟩
  case shared =>
    obtain ⟨hmem, hwip, hwel⟩ := hu.receive s.env.dev
    refine ⟨_, hexec.trans (deviceOnly_shared hs hx), coreKept_onDevice hs (SimFlash.receive_same _ _), fun a => ?flash,
      s.onDevice_response _, s.onDevice_trace _, s.onDevice_cs _, ?wip, ?wel⟩
    all_goals
      rw [State.onDevice_dev]
      cases hk : s.env.kind
    case flash.arbitrary => rfl
    case flash.simFlash => exact congrArg (·.read a) hmem
    case wip.arbitrary => rfl
    case wip.simFlash => exact hwip
    case wel.arbitrary => simp
    case wel.simFlash => simpa using hwel

/-- Settles O51: such an instruction makes no call, a transaction that changes no byte, or hangs before anything closed. -/
theorem otherInstructionsKeepTheFlash : Obligations.OtherInstructionsKeepTheFlash :=
  fun _ _ _ hi h a => congrArg (·.read a) (exec_mem_of_quiet hi h)

/-- Settles O52: the array changes only where the gate let the command pass, and there as the closing command says. -/
theorem mutatingOperationsStoreWhereTheyShould : Obligations.MutatingOperationsStoreWhereTheyShould := by
  intro i s t hi hwf h ht
  have hkind : isHostOp i = true ∧ mayChangeFlash i = true := by
    rcases hi with ⟨a, rfl⟩ | rfl | ⟨a, buf, rfl⟩ <;> exact ⟨rfl, rfl⟩
  cases exec_answered hkind.1 h ht with
  | early hc ha =>
    have hkeep : FlashKept s t := fun x => by rw [ha.env]
    exact ⟨fun _ => hkeep, fun _ _ => hkeep, fun hok => absurd hc (by rw [hok]; decide)⟩
  | configured ps ebs ts hconf => subst hconf; cases hkind.2
  | exchanged hquiet => exact absurd (hquiet.symm.trans hkind.2) (by decide)
  | stopped header p u r hg hG he hc =>
    have hkeep : FlashKept s t := fun x => by rw [he]; exact congrArg (·.read x) hG.mem
    exact ⟨fun _ => hkeep, fun _ _ => hkeep, fun hok => absurd (hok.symm.trans hc) (by decide)⟩
  | passed header p u r hg hG he hc =>
    subst he
    refine ⟨fun hk x => ?arbitrary, fun hok herr => absurd hc (not_or_intro hok herr), fun hok hk => ?device⟩
    case arbitrary => exact congrArg (·.read x) (hG.mem_of_arbitrary hk)
    case device =>
      obtain ⟨d, hsame, hmem, htx, hclose⟩ := hG.on_device hk hok
      rw [State.checked_env] at hsame hmem
      rw [State.respond_env, hclose, ← hmem]
      refine ⟨?erase, ?program⟩
      case erase =>
        rintro a rfl x hx
        obtain ⟨rfl, rfl, -⟩ := hg
        exact SimFlash.close_eraseBlock_read (by rw [htx]; exact List.append_nil _)
          (by rwa [SimFlash.inBlock_same hsame, wireAddr_toNat])
      case program =>
        rintro a buf rfl x hx
        obtain ⟨rfl, rfl, -⟩ := hg
        exact SimFlash.close_programPage_read htx (hmem ▸ hwf)
          (by rwa [SimFlash.programAddr_same hsame, wireAddr_toNat])

/-- Settles O54: each way to answer `OK` has walked its own phases. -/
theorem phasesOfASuccessfulOperation : Obligations.PhasesOfASuccessfulOperation := by
  intro i s t hi h ht hcode
  cases exec_answered hi h ht with
  | early hc => exact absurd hc (by rw [hcode]; decide)
  | configured ps ebs ts hconf hc hp => subst hconf; exact hp
  | exchanged hquiet hn hc hp =>
    rw [hp]
    cases i with
    | configure ps ebs ts => exact absurd rfl (hn ps ebs ts)
    | eraseBlock _ | eraseAll | program _ _ => cases hquiet
    | _ => rfl
  | stopped header p u r hg hG he hc => cases hcode.symm.trans hc
  | passed header p u r hg hG he hc =>
    rw [he, State.respond_phases, hG.phases]
    rcases hg.mutating with ⟨a, rfl⟩ | rfl | ⟨a, buf, rfl⟩ <;> rfl

/-- Settles O56: the answer at the head of the script is taken, and the bytes it holds stand in the buffer. -/
theorem scriptedAnswersAreTaken : Obligations.ScriptedAnswersAreTaken := by
  intro s c k bs sent rest hk hs
  refine ⟨⟨_, transportWrite_scripted hk hs sent, rfl, rfl⟩,
    _, _, transportRead_scripted hk hs k, rfl, rfl, fillBuffer_length _ _ _ _, fun i b hi hc hb => ?_⟩
  exact fillBuffer_received hi hc (by simp [hb])

end Sys2Proof.Machine
end

section
/-! PROOFS. The operations for every answer of the environment: `write_enable` (O28), `read` (O36), the operations behind the gate
(O37 to O39) and the lone wire transactions (O46, O47). -/

namespace Sys2Proof.Machine

/-! ## The calls of one command transaction -/

/-- The calls of a whole transaction, its match and the bytes it read (43_operations.md R191, R192). -/
def CommandEvents (header : List Byte) (p : Payload) (es : List Event) (m : Bool × List Byte) : Prop :=
  ∃ c pe ok, es = Event.opened :: Event.wrote header c :: (pe ++ [Event.closed]) ∧ PayloadEvents p pe ok m.2 ∧
    m.1 = (countMatches c header.length && ok)

section Calls
variable {header data : List Byte} {k : Nat} {es : List Event} {m : Bool × List Byte}

theorem Transacted.events {s t : State} {p : Payload} (h : Transacted s t header p m) :
    ∃ es, t.trace = s.trace ++ es ∧ CommandEvents header p es m := by
  obtain ⟨c, pe, ok, htrace, hpe, hm⟩ := h.trace
  exact ⟨_, htrace, c, pe, ok, rfl, hpe, hm⟩

theorem countMatches_iff {c n : Nat} : countMatches c n = true ↔ c = n := beq_iff_eq

/-- A transaction without a payload is one write, and its count decides. -/
theorem CommandEvents.none (h : CommandEvents header .none es m) :
    ∃ c, es = [.opened, .wrote header c, .closed] ∧ (m.1 = true ↔ c = header.length) := by
  obtain ⟨c, pe, ok, rfl, ⟨rfl, rfl, -⟩, hm⟩ := h
  exact ⟨c, rfl, by rw [hm, Bool.and_true, countMatches_iff]⟩

/-- A written payload is a second write, and both counts decide. -/
theorem CommandEvents.write (h : CommandEvents header (.write data) es m) :
    ∃ c1 c2, es = [.opened, .wrote header c1, .wrote data c2, .closed] ∧
      (m.1 = true ↔ c1 = header.length ∧ c2 = data.length) := by
  obtain ⟨c1, pe, ok, rfl, ⟨c2, rfl, rfl, -⟩, hm⟩ := h
  exact ⟨c1, c2, rfl, by rw [hm, Bool.and_eq_true, countMatches_iff, countMatches_iff]⟩

/-- A payload that is read back is one read of its length, and both counts decide. -/
theorem CommandEvents.read (h : CommandEvents header (.read k) es m) :
    ∃ c1 c2, es = [.opened, .wrote header c1, .readBack k c2 m.2, .closed] ∧ m.2.length = k ∧
      (m.1 = true ↔ c1 = header.length ∧ c2 = k) := by
  obtain ⟨c1, pe, ok, rfl, ⟨c2, rfl, rfl, hlen⟩, hm⟩ := h
  exact ⟨c1, c2, rfl, hlen, by rw [hm, Bool.and_eq_true, countMatches_iff, countMatches_iff]⟩

end Calls

/-! ## A lone transaction, where its calls return -/

/-- What a lone transaction answers (log 20). -/
def loneReply (reply : List Byte → Reply) (m : Bool × List Byte) : Reply :=
  if m.1 then reply m.2 else { code := .transportError }

/-- A response given behind a transaction in the phase `CMD`. -/
theorem Transacted.coreKept {s u : State} {header : List Byte} {p : Payload} {m : Bool × List Byte}
    (h : Transacted (s.checked.enter .cmd) u header p m) (r : Reply) : CoreKept s (u.respond r) :=
  ((Steady.checked s).trans ((Steady.enter _ _).trans h.kept.steady)).respond r

section Lone
variable {s : State} {header data : List Byte} {k : Nat} {reply : List Byte → Reply}

theorem loneReply_code (hok : ∀ rs, (reply rs).code = .ok) (m : Bool × List Byte) :
    (loneReply reply m).code = if m.1 = true then .ok else .transportError := by
  unfold loneReply
  split
  · exact hok _
  · rfl

theorem loneReply_of_ok {m : Bool × List Byte} (h : (loneReply reply m).code = .ok) : loneReply reply m = reply m.2 := by
  unfold loneReply at h ⊢
  split at h
  · next hm => rw [if_pos hm]
  · cases h

/-- The body of a lone transaction, as its reply to what the transaction gave. -/
theorem lone_body (header : List Byte) (p : Payload) (reply : List Byte → Reply) (u : State) :
    ((transaction header p u).bind fun m t => if m.1 then .done (reply m.2) t else .done { code := .transportError } t) =
      (transaction header p u).bind fun m t => .done (loneReply reply m) t := by
  refine Call.bind_reply _ _ fun m t => ?_
  unfold loneReply
  split <;> rfl

theorem lone_next {p : Payload} (h : s.CanRun p.calls) (header : List Byte) (reply : List Byte → Reply) :
    ∃ m u, Transacted (s.checked.enter .cmd) u header p m ∧
      lone header p reply s = .next (u.respond (loneReply reply m)) := by
  have hcalls : (s.checked.enter .cmd).CallsReturn (p.calls + 0) := h.returns.of_env rfl rfl
  refine perform_cmd (proc := transaction header p) h.idle h.ready
    ((transaction_ends header p hcalls).mono fun _ _ hT => hT.2) (loneReply reply) fun m u => ?_
  unfold loneReply
  split <;> rfl

/-- A lone transaction that reads leaves every byte, and answers the bytes read when both counts match. -/
theorem lone_read_next (h : s.CanRun 4) (hq : Quiet header) (k : Nat) (hok : ∀ rs, (reply rs).code = .ok) :
    ∃ t c1 c2 rs, lone header (.read k) reply s = .next t ∧ CoreKept s t ∧ t.cs = false ∧ FlashKept s t ∧
      rs.length = k ∧ t.trace = s.trace ++ [.opened, .wrote header c1, .readBack k c2 rs, .closed] ∧
      t.response.code = (if c1 = header.length ∧ c2 = k then .ok else .transportError) ∧
      (t.response.code = .ok → ∃ n, t.response = (reply rs).response n) := by
  obtain ⟨m, u, hT, ht⟩ := lone_next (p := .read k) h header reply
  obtain ⟨es, htrace, hes⟩ := hT.events
  obtain ⟨c1, c2, rfl, hlen, hm⟩ := hes.read
  refine ⟨_, c1, c2, m.2, ht, hT.coreKept _, hT.cs, fun a => ?flash, hlen, htrace, ?code, fun hc => ?bytes⟩
  case flash => exact congrArg (·.read a) (hT.mem_of_quiet hq rfl)
  case code => simp only [State.respond_response, Reply.response_code, loneReply_code hok, hm]
  case bytes =>
    rw [State.respond_response, loneReply_of_ok hc]
    exact ⟨_, rfl⟩

/-- One that answers what it read as it stands. -/
theorem lone_rbuf_next (h : s.CanRun 4) (hq : Quiet header) (k : Nat) :
    ∃ t c1 c2 rs, lone header (.read k) (fun rs => { code := .ok, rbuf := some rs }) s = .next t ∧ CoreKept s t ∧
      t.cs = false ∧ FlashKept s t ∧ rs.length = k ∧
      t.trace = s.trace ++ [.opened, .wrote header c1, .readBack k c2 rs, .closed] ∧
      t.response.code = (if c1 = header.length ∧ c2 = k then .ok else .transportError) ∧
      (t.response.code = .ok → t.response.rbuf = rs) := by
  obtain ⟨t, c1, c2, rs, ht, hkept, hcs, hflash, hlen, htrace, hcode, hbytes⟩ :=
    lone_read_next (reply := fun rs => { code := .ok, rbuf := some rs }) h hq k fun _ => rfl
  refine ⟨t, c1, c2, rs, ht, hkept, hcs, hflash, hlen, htrace, hcode, fun hok => ?_⟩
  obtain ⟨n, hr⟩ := hbytes hok
  rw [hr, Reply.response_rbuf, Option.getD_some]

/-- A lone transaction without a payload. -/
theorem loneOk_none_next (h : s.CanRun 3) (header : List Byte) :
    ∃ t c, loneOk header .none s = .next t ∧ CoreKept s t ∧ t.cs = false ∧ (Quiet header → FlashKept s t) ∧
      t.trace = s.trace ++ [.opened, .wrote header c, .closed] ∧
      t.response.code = (if c = header.length then .ok else .transportError) := by
  obtain ⟨m, u, hT, ht⟩ := lone_next (p := .none) h header fun _ => { code := .ok }
  obtain ⟨es, htrace, hes⟩ := hT.events
  obtain ⟨c, rfl, hm⟩ := hes.none
  refine ⟨_, c, ht, hT.coreKept _, hT.cs, fun hq a => ?flash, htrace, ?code⟩
  case flash => exact congrArg (·.read a) (hT.mem_of_quiet hq rfl)
  case code =>
    simp only [State.respond_response, Reply.response_code, loneReply_code (reply := fun _ => { code := .ok }) fun _ => rfl, hm]

/-- A lone transaction whose payload is written. -/
theorem loneOk_write_next (h : s.CanRun 4) (header data : List Byte) :
    ∃ t c1 c2, loneOk header (.write data) s = .next t ∧ CoreKept s t ∧ t.cs = false ∧
      t.trace = s.trace ++ [.opened, .wrote header c1, .wrote data c2, .closed] ∧
      t.response.code = (if c1 = header.length ∧ c2 = data.length then .ok else .transportError) := by
  obtain ⟨m, u, hT, ht⟩ := lone_next (p := .write data) h header fun _ => { code := .ok }
  obtain ⟨es, htrace, hes⟩ := hT.events
  obtain ⟨c1, c2, rfl, hm⟩ := hes.write
  refine ⟨_, c1, c2, ht, hT.coreKept _, hT.cs, htrace, ?_⟩
  simp only [State.respond_response, Reply.response_code, loneReply_code (reply := fun _ => { code := .ok }) fun _ => rfl, hm]

end Lone

/-! ## The host operations that are lone transactions behind their checks -/

/-- Behind the mode test the body decides. -/
theorem perform_ready_congr {s : State} {e1 e2 : Reply} {K1 K2 : State → Call Reply} (hm : s.mode = .ready)
    (h : K1 s.checked = K2 s.checked) :
    perform s (fun s => ifReady e1 s K1) = perform s (fun s => ifReady e2 s K2) := by
  have hbody : ifReady e1 { s with phases := [.idle] } K1 = ifReady e2 { s with phases := [.idle] } K2 := by
    rw [ifReady_ready (e := e1) (s := { s with phases := [.idle] }) K1 hm,
      ifReady_ready (e := e2) (s := { s with phases := [.idle] }) K2 hm]
    exact h
  rw [perform, perform, hbody]

section HostOperations
variable {s : State}

/-- In `Ready` an operation whose body is one transaction is that transaction standing alone. -/
theorem perform_eq_lone {e : Reply} {K : State → Call Reply} {header : List Byte} {p : Payload}
    {reply : List Byte → Reply} (hm : s.mode = .ready)
    (hK : K s.checked = (transaction header p (s.checked.enter .cmd)).bind fun m u => .done (loneReply reply m) u) :
    perform s (fun s => ifReady e s K) = lone header p reply s :=
  perform_ready_congr hm (hK.trans (lone_body header p reply _).symm)

theorem exec_readStatus_eq_wire (hm : s.mode = .ready) : exec .readStatus s = exec .wireReadStatus s := by
  refine perform_eq_lone (header := [0x05]) (p := .read 1)
    (reply := fun rs => { code := .ok, status := some (rs.getD 0 0) }) hm ?_
  rw [readStatusProc, Call.bind_assoc]
  refine Call.bind_reply _ _ fun m u => ?_
  rw [Call.bind_done, loneReply]
  split <;> rfl

theorem exec_writeEnable_eq_wire (hm : s.mode = .ready) : exec .writeEnable s = exec .wireWriteEnable s := by
  refine perform_eq_lone (header := [0x06]) (p := .none) (reply := fun _ => { code := .ok }) hm ?_
  rw [writeEnableProc, Call.bind_assoc]
  refine Call.bind_reply _ _ fun m u => ?_
  rw [Call.bind_done, loneReply, foldedCode]
  split <;> rfl

/-- A `read` past its check is the lone transaction at the address on the wire (43_operations.md R197). -/
theorem exec_read_eq_wire {a n : XWord} (hm : s.mode = .ready) (hc : a.toNat + n.toNat < s.geom.endAddress.toNat) :
    exec (.read a n) s = exec (.wireReadData (wireAddr a) n) s := by
  refine perform_eq_lone (header := 0x03 :: addrBytes24 (wireAddr a)) (p := .read n.toNat)
    (reply := fun rs => { code := .ok, rbuf := some rs }) hm ?_
  rw [State.checked_geom, checkRead_none.2 hc, ifShaped_none]
  exact lone_body _ _ (fun rs => { code := .ok, rbuf := some rs }) _

end HostOperations

/-! ## The operations behind the gate, where their calls return -/

section Gate
variable {s u : State} {header : List Byte} {p : Payload} {r : Reply}

/-- In `Ready`, past its check, an operation behind the gate is stopped by it or passes it. -/
theorem gated_next {c : Command} {a : Addr24} {e : Reply} {chk : State → Option ResultCode}
    (h : s.CanRun (7 + p.calls)) (hf : p.fits c) (hc : chk s.checked = none) :
    ∃ r u, (GateStopped s.checked u r ∨ GatePassed s.checked u (encodeHeader s.eraseChip c a) p r) ∧
      perform s (fun s => ifReady e s fun s => ifShaped (chk s) s (gatedCommand c a p)) = .next (u.respond r) := by
  refine perform_ready h.idle h.ready ?_
  rw [hc, ifShaped_none]
  exact gatedCommand_ends a hf (h.returns.of_env rfl rfl)

/-- What the walk through the gate leaves and answers (41_status_gate.md R157, R158). -/
theorem gate_walked (h : GateStopped s.checked u r ∨ GatePassed s.checked u header p r) :
    ∃ c1 c2 b, CoreKept s (u.respond r) ∧ (u.respond r).cs = false ∧
      (statusPasses c1 c2 b → ∃ c3 es m,
        (u.respond r).trace = s.trace ++ (statusEvents c1 c2 b ++ wrenEvents c3 ++ es) ∧ CommandEvents header p es m ∧
        (u.respond r).response.code = if c3 = 1 ∧ m.1 = true then .ok else .transportError) ∧
      (¬ statusPasses c1 c2 b →
        (u.respond r).trace = s.trace ++ statusEvents c1 c2 b ∧ (u.respond r).response.code = .deviceBusy ∧
          FlashKept s (u.respond r)) := by
  rcases h with hG | hG
  · obtain ⟨c1, c2, b, htrace, hstop⟩ := hG.trace
    obtain rfl := hG.reply
    exact ⟨c1, c2, b, ((Steady.checked s).trans hG.steady).respond _, hG.cs, fun hp => absurd hp hstop,
      fun _ => ⟨htrace, rfl, fun a => congrArg (·.read a) hG.mem⟩⟩
  · obtain ⟨c1, c2, b, c3, v, m, hpass, -, -, hgate, hT, rfl⟩ := hG.trace
    obtain ⟨es, htrace, hes⟩ := hT.events
    refine ⟨c1, c2, b, ((Steady.checked s).trans hG.steady).respond _, hG.cs, fun _ => ⟨c3, es, m, ?trace, hes, ?code⟩,
      fun hn => absurd hpass hn⟩
    case trace => rw [State.respond_trace, htrace, hgate, State.checked_trace, List.append_assoc]
    case code =>
      simp only [State.respond_response, Reply.response_code, foldedCode, Bool.and_eq_true, countMatches_iff]

end Gate

/-! ## The obligations -/

/-- Settles O28: in `Ready` the operation is the lone transaction of its command. -/
theorem writeEnableIsOneExchange : Obligations.WriteEnableIsOneExchange := by
  intro s h
  obtain ⟨t, c, ht, hkept, hcs, hflash, htrace, hcode⟩ := loneOk_none_next h [0x06]
  exact ⟨t, c, (exec_writeEnable_eq_wire h.ready).trans ht, hkept, hcs, hflash (.inr (.inl rfl)), htrace, hcode⟩

/-- Settles O36: in `Ready` and in range the operation is the lone transaction at its wire address. -/
theorem readReturnsTheBytesReceived : Obligations.ReadReturnsTheBytesReceived := by
  intro a n s h hrange
  obtain ⟨t, c1, c2, rs, ht, hrest⟩ := lone_rbuf_next h (.inr (.inr (.inr ⟨wireAddr a, rfl⟩))) n.toNat
  exact ⟨t, c1, c2, rs, (exec_read_eq_wire h.ready hrange).trans ht, hrest⟩

/-- Settles O37: the walk through the gate, with a command that has no payload. -/
theorem eraseBlockWalksTheGate : Obligations.EraseBlockWalksTheGate := by
  intro a s h hmask hrange
  obtain ⟨r, u, hG, ht⟩ := gated_next (p := .none) (c := .eraseBlock) (a := wireAddr a) (e := { code := .notConfigured })
    (chk := fun s => checkErase s.geom a.toNat) h (.inr (.inr rfl)) (checkErase_none.2 ⟨hmask, hrange⟩)
  obtain ⟨c1, c2, b, hkept, hcs, hpass, hstop⟩ := gate_walked hG
  refine ⟨_, c1, c2, b, ht, hkept, hcs, fun hp => ?_, hstop⟩
  obtain ⟨c3, es, m, htrace, hes, hcode⟩ := hpass hp
  obtain ⟨c4, rfl, hm⟩ := hes.none
  exact ⟨c3, c4, htrace, by simp only [hcode, hm]; rfl⟩

/-- Settles O38: the same walk, with the one-byte command the parameter names. -/
theorem eraseAllWalksTheGate : Obligations.EraseAllWalksTheGate := by
  intro s h
  obtain ⟨r, u, hG, ht⟩ := gated_next (p := .none) (c := .eraseChip) (a := 0) (e := { code := .notConfigured })
    (chk := fun _ => none) h (.inr (.inl rfl)) rfl
  obtain ⟨c1, c2, b, hkept, hcs, hpass, hstop⟩ := gate_walked hG
  refine ⟨_, c1, c2, b, ht, hkept, hcs, fun hp => ?_, hstop⟩
  obtain ⟨c3, es, m, htrace, hes, hcode⟩ := hpass hp
  obtain ⟨c4, rfl, hm⟩ := hes.none
  have hheader : encodeHeader s.eraseChip .eraseChip 0 = [if s.eraseChip = .c7 then 0xC7 else 0x60] := by
    rw [encodeHeader_of_not_hasAddr rfl, Command.opcode, EraseChipOpcode.byte_eq_ite]
  rw [hheader] at htrace hm
  exact ⟨c3, c4, htrace, by simp only [hcode, hm]; rfl⟩

/-- Settles O39: the same walk, with a command whose payload is written. -/
theorem programWalksTheGate : Obligations.ProgramWalksTheGate := by
  intro a buf s h hrange hpage
  obtain ⟨r, u, hG, ht⟩ := gated_next (p := .write buf) (c := .programPage) (a := wireAddr a)
    (e := { code := .notConfigured }) (chk := fun s => checkProgram s.geom a.toNat buf.length) h rfl
    (checkProgram_none.2 ⟨hrange, hpage⟩)
  obtain ⟨c1, c2, b, hkept, hcs, hpass, hstop⟩ := gate_walked hG
  refine ⟨_, c1, c2, b, ht, hkept, hcs, fun hp => ?_, hstop⟩
  obtain ⟨c3, es, m, htrace, hes, hcode⟩ := hpass hp
  obtain ⟨c4, c5, rfl, hm⟩ := hes.write
  exact ⟨c3, c4, c5, htrace, by simp only [hcode, hm]; rfl⟩

/-- Settles O46: each is a lone transaction that reads, with its own header and length. -/
theorem wireReadsRun : Obligations.WireReadsRun := by
  intro s a n h
  refine ⟨?status, lone_rbuf_next h (.inr (.inr (.inl rfl))) 3,
    lone_rbuf_next h (.inr (.inr (.inr ⟨a, rfl⟩))) n.toNat⟩
  case status =>
    obtain ⟨t, c1, c2, rs, ht, hkept, hcs, hflash, hlen, htrace, hcode, hbytes⟩ := lone_read_next (header := [0x05])
      (reply := fun rs => { code := .ok, status := some (rs.getD 0 0) }) h (.inl rfl) 1 fun _ => rfl
    obtain ⟨b, rfl⟩ := List.length_eq_one_iff.1 hlen
    refine ⟨t, c1, c2, b, ht, hkept, hcs, hflash, htrace, hcode, fun hok => ?_⟩
    obtain ⟨n, hr⟩ := hbytes hok
    rw [hr]
    rfl

/-- Settles O47: four lone transactions without a payload, and one whose payload is written. -/
theorem wireWritesRun : Obligations.WireWritesRun := by
  intro s a data h
  have h3 : s.CanRun 3 := ⟨h.idle, h.ready, h.returns.le (by decide)⟩
  refine ⟨?enable, ?chip, ?chipAlt, ?block, loneOk_write_next h _ data⟩
  case enable =>
    obtain ⟨t, c, ht, hkept, hcs, hflash, hrest⟩ := loneOk_none_next h3 [0x06]
    exact ⟨t, c, ht, hkept, hcs, hflash (.inr (.inl rfl)), hrest⟩
  case chip =>
    obtain ⟨t, c, ht, hkept, hcs, -, hrest⟩ := loneOk_none_next h3 [0xC7]
    exact ⟨t, c, ht, hkept, hcs, hrest⟩
  case chipAlt =>
    obtain ⟨t, c, ht, hkept, hcs, -, hrest⟩ := loneOk_none_next h3 [0x60]
    exact ⟨t, c, ht, hkept, hcs, hrest⟩
  case block =>
    obtain ⟨t, c, ht, hkept, hcs, -, hrest⟩ := loneOk_none_next h3 (0xD8 :: addrBytes24 a)
    exact ⟨t, c, ht, hkept, hcs, hrest⟩

end Sys2Proof.Machine
end

section
/-! PROOFS. The operations and the lone transactions on a reference device that transfers every byte (O40 to O45, O48). -/

namespace Sys2Proof.Machine

/-! ## One transaction on the device -/

section Transaction
variable {s : State} {header : List Byte} {p : Payload} {K : State → Call Reply}

/-- An operation whose body is one transaction succeeds on a device that transfers every byte. -/
theorem perform_transaction_full {e : Reply} {f : Bool × List Byte → Reply} (h : s.OnDevice)
    (hK : K s.checked = (transaction header p (s.checked.enter .cmd)).bind fun m u => .done (f m) u) :
    ∃ m u, m.1 = true ∧ Transacted (s.checked.enter .cmd) u header p m ∧
      perform s (fun s => ifReady e s K) = .next (u.respond (f m)) := by
  have hfull : FullDevice (s.checked.enter .cmd) := ⟨h.kind, h.full⟩
  obtain ⟨r, u, ⟨m, hm, hT, rfl⟩, ht⟩ := perform_ready (e := e) (k := K)
    (P := fun r u => ∃ m, m.1 = true ∧ Transacted (s.checked.enter .cmd) u header p m ∧ r = f m) h.idle h.ready
    (hK ▸ (transaction_full hfull header p).bind fun m u hu => ⟨m, hu.1.1, hu.2, rfl⟩)
  exact ⟨m, u, hm, hT, ht⟩

/-- A lone transaction there answers its bytes. -/
theorem lone_full (h : s.OnDevice) (header : List Byte) (p : Payload) (reply : List Byte → Reply) :
    ∃ rs u, Transacted (s.checked.enter .cmd) u header p (true, rs) ∧
      lone header p reply s = .next (u.respond (reply rs)) := by
  obtain ⟨⟨ok, rs⟩, u, rfl, hT, ht⟩ := perform_transaction_full (e := { code := .notConfigured })
    (K := fun s => (transaction header p (s.enter .cmd)).bind fun m t =>
      if m.1 then .done (reply m.2) t else .done { code := .transportError } t) h (lone_body header p reply _)
  exact ⟨rs, u, hT, ht⟩

end Transaction

/-! ## What a reading transaction answers -/

section Reads
variable {s t : State} {rs : List Byte}

/-- What a closing command that reads leaves: nothing but the transaction itself (20_memory.md R95). -/
theorem SimFlash.close_read {d : SimFlash} {i : Instr} (hd : decodeFrame { bytes := d.tx, len := 0 } = .ok i)
    (hi : i = .wireReadStatus ∨ i = .wireReadJedecId ∨ ∃ a n, i = .wireReadData a n) : d.close = d := by
  rw [SimFlash.close_of_decode hd]
  rcases hi with rfl | rfl | ⟨a, n, rfl⟩ <;> rfl

/-- A status read answers the latch and the busy bit, whether or not a cycle ended before it (20_memory.md R91). -/
theorem Transacted.status_byte (h : Transacted s t [0x05] (.read 1) (true, rs)) (hk : s.env.kind = .simFlash) :
    rs = [statusByte t.env.dev.wel t.env.dev.wip] ∧
      (s.env.dev.wip = false → t.env.dev.wel = s.env.dev.wel ∧ t.env.dev.wip = false) := by
  obtain ⟨d, rdn, hd, hclose, hrs⟩ := h.on_device hk rfl
  rw [SimFlash.close_read (i := .wireReadStatus) rfl (.inl rfl)] at hclose
  obtain ⟨hlen, hbytes⟩ := hrs 1 rfl
  rw [hclose]
  refine ⟨answer_eq hlen fun i hi b hb => hbytes i hi b hb, fun hw => ?_⟩
  rcases hd with rfl | rfl
  · exact ⟨rfl, hw⟩
  · rw [SimFlash.complete_of_idle hw]
    exact ⟨rfl, hw⟩

/-- An idle device answers its identity (20_memory.md R91). -/
theorem Transacted.identity_bytes (h : Transacted s t [0x9F] (.read 3) (true, rs)) (hk : s.env.kind = .simFlash)
    (hw : s.env.dev.wip = false) : rs = [s.env.dev.ident.b0, s.env.dev.ident.b1, s.env.dev.ident.b2] := by
  obtain ⟨rdn, -, hrs⟩ := h.on_idle_device hk hw rfl
  obtain ⟨hlen, hbytes⟩ := hrs 3 rfl
  refine answer_eq (f := fun i => [s.env.dev.ident.b0, s.env.dev.ident.b1, s.env.dev.ident.b2].getD i 0) hlen
    fun i hi b hb => hbytes i hi b ?_
  rw [← hb]
  simp only [SimFlash.answerByte, decodeFrame_readJedecId, hw]
  match i, hi with
  | 0, _ => rfl
  | 1, _ => rfl
  | 2, _ => rfl

/-- An idle device answers the bytes from the address on, around the end of its array (20_memory.md R92). -/
theorem Transacted.data_bytes {a : Addr24} {k : Nat} (h : Transacted s t (0x03 :: addrBytes24 a) (.read k) (true, rs))
    (hk : s.env.kind = .simFlash) (hw : s.env.dev.wip = false) :
    rs = (List.range k).map fun i => s.env.dev.mem.read ((a.toNat + i) % s.env.dev.size.val) := by
  obtain ⟨rdn, -, hrs⟩ := h.on_idle_device hk hw rfl
  obtain ⟨hlen, hbytes⟩ := hrs k rfl
  refine answer_eq hlen fun i hi b hb => hbytes i hi b ?_
  rw [← hb]
  simp only [SimFlash.answerByte, decodeFrame_readData, hw]
  rfl

end Reads

/-! ## What a writing transaction leaves on an idle device -/

section Closes
variable {d : SimFlash} {a : Addr24} {data : List Byte}

theorem SimFlash.accepts_of_idle (hw : d.wip = false) : d.accepts = d.wel := by
  rw [SimFlash.accepts, hw, Bool.not_false, Bool.and_true]

/-- A cycle starts exactly when the latch was set, and the latch stays until it ends (20_memory.md R93, R94). -/
theorem SimFlash.startCycle_latches (hw : d.wip = false) (m : Memory) :
    (if d.accepts then d.startCycle m else d).wel = d.wel ∧ (if d.accepts then d.startCycle m else d).wip = d.wel := by
  rw [SimFlash.accepts_of_idle hw]
  cases hl : d.wel
  · exact ⟨hl, hw⟩
  · exact ⟨hl, rfl⟩

/-- What an erase of the bytes in `p` leaves. -/
theorem SimFlash.erased_read (hw : d.wip = false) (p : Nat → Bool) (x : Nat) :
    (if d.accepts then d.startCycle (d.mem.erase p) else d).mem.read x =
      if d.wel = true ∧ p x = true then 0xFF else d.mem.read x := by
  rw [SimFlash.accepts_of_idle hw]
  cases d.wel
  · simp
  · simp [SimFlash.startCycle, Memory.read_erase, Memory.erased]

theorem SimFlash.close_writeEnable (hw : d.wip = false) (htx : d.tx = [0x06]) : d.close = { d with wel := true } := by
  rw [SimFlash.close_of_decode (htx ▸ decodeFrame_writeEnable 0)]
  simp [SimFlash.commit, hw]

theorem SimFlash.close_eraseChip (htx : d.tx = [0xC7] ∨ d.tx = [0x60]) :
    d.close = if d.accepts then d.startCycle (d.mem.erase fun _ => true) else d := by
  rcases htx with htx | htx
  · exact SimFlash.close_of_decode (i := .wireEraseChip) (by rw [htx]; rfl)
  · exact SimFlash.close_of_decode (i := .wireEraseChipAlt) (by rw [htx]; rfl)

/-- What an erase of the whole array leaves of an idle device (20_memory.md R93). -/
theorem SimFlash.eraseChip_idle (hw : d.wip = false) (htx : d.tx = [0xC7] ∨ d.tx = [0x60]) :
    d.close.wel = d.wel ∧ d.close.wip = d.wel ∧
      ∀ x, d.close.mem.read x = if d.wel = true then 0xFF else d.mem.read x := by
  rw [SimFlash.close_eraseChip htx]
  obtain ⟨hwel, hwip⟩ := SimFlash.startCycle_latches hw (d.mem.erase fun _ => true)
  exact ⟨hwel, hwip, fun x => by simp [SimFlash.erased_read hw]⟩

/-- What an erase of a block leaves of an idle device (20_memory.md R93). -/
theorem SimFlash.eraseBlock_idle (hw : d.wip = false) (htx : d.tx = 0xD8 :: addrBytes24 a) :
    d.close.wel = d.wel ∧ d.close.wip = d.wel ∧
      ∀ x, d.close.mem.read x =
        if d.wel = true ∧ x / d.block.val = a.toNat % d.size.val / d.block.val then 0xFF else d.mem.read x := by
  rw [SimFlash.close_eraseBlock htx]
  obtain ⟨hwel, hwip⟩ := SimFlash.startCycle_latches hw (d.mem.erase (d.inBlock a.toNat))
  exact ⟨hwel, hwip, fun x => by simp [SimFlash.erased_read hw, SimFlash.inBlock]⟩

/-- What a program no longer than a page leaves of an idle device (20_memory.md R94). -/
theorem SimFlash.program_idle (hw : d.wip = false) (hwf : d.mem.wf) (hlen : data.length ≤ d.page.val)
    (htx : d.tx = 0x02 :: (addrBytes24 a ++ data)) :
    d.close.wel = d.wel ∧ d.close.wip = d.wel ∧
      (∀ (i : Nat) (b : Byte), data[i]? = some b → d.programAddr a.toNat i < d.size.val →
        d.close.mem.read (d.programAddr a.toNat i) =
          if d.wel = true then d.mem.read (d.programAddr a.toNat i) &&& b else d.mem.read (d.programAddr a.toNat i)) ∧
      (∀ x, d.size.val ≤ x ∨ (∀ i < data.length, d.programAddr a.toNat i ≠ x) → d.close.mem.read x = d.mem.read x) := by
  rw [SimFlash.close_programPage htx]
  obtain ⟨hwel, hwip⟩ := SimFlash.startCycle_latches hw (d.programFrom a.toNat d.mem 0 data)
  refine ⟨hwel, hwip, ?stored, ?others⟩
  all_goals
    rw [SimFlash.accepts_of_idle hw]
    cases d.wel
  case stored.false => exact fun i b hb hs => rfl
  case stored.true =>
    intro i b hb hs
    simpa [SimFlash.startCycle] using
      d.programFrom_read a.toNat data d.mem 0 i b hwf (by omega) hb (by rwa [Nat.zero_add])
  case others.false => exact fun x hx => rfl
  case others.true =>
    intro x hx
    refine d.programFrom_read_other a.toNat x data d.mem 0 hwf fun j hj he => ?_
    rw [Nat.zero_add] at he
    exact hx.resolve_right fun hne => hne j hj he

end Closes

/-! ## The operations on the device -/

section Operations
variable {s : State}

theorem busyBit_statusByte (wel wip : Bool) : busyBit (statusByte wel wip) = wip := by
  cases wel <;> cases wip <;> rfl

/-- A transaction that only reads, or sets the latch, keeps every byte. -/
theorem Transacted.flashKept {u : State} {header : List Byte} {p : Payload} {m : Bool × List Byte}
    (h : Transacted (s.checked.enter .cmd) u header p m) (hq : Quiet header) (hp : p.written = []) (r : Reply) :
    FlashKept s (u.respond r) :=
  fun a => congrArg (·.read a) (h.mem_of_quiet hq hp)

theorem exec_wireReadStatus_full (h : s.OnDevice) :
    ∃ t, exec .wireReadStatus s = .next t ∧ t.response.code = .ok ∧ CoreKept s t ∧ FlashKept s t ∧
      t.response.status = statusByte t.env.dev.wel t.env.dev.wip ∧
      (s.env.dev.wip = false → t.env.dev.wel = s.env.dev.wel ∧ t.env.dev.wip = false) := by
  obtain ⟨rs, u, hT, ht⟩ := lone_full h [0x05] (.read 1) fun rs => { code := .ok, status := some (rs.getD 0 0) }
  obtain ⟨rfl, hidle⟩ := hT.status_byte h.kind
  exact ⟨_, ht, rfl, hT.coreKept _, hT.flashKept (.inl rfl) rfl _, rfl, hidle⟩

theorem exec_isBusy_full (h : s.OnDevice) :
    ∃ t, exec .isBusy s = .next t ∧ t.response.code = .ok ∧ CoreKept s t ∧ FlashKept s t ∧
      t.response.busy = t.env.dev.wip := by
  obtain ⟨⟨ok, rs⟩, u, rfl, hT, ht⟩ := perform_transaction_full (header := [0x05]) (p := .read 1)
    (e := { code := .notConfigured, busy := some true })
    (K := fun s => (isBusyProc (s.enter .cmd)).bind fun b s => .done { code := .ok, busy := some b } s)
    (f := fun m => { code := .ok, busy := some (!m.1 || busyBit (m.2.getD 0 0)) }) h
    (by rw [isBusyProc, readStatusProc, Call.bind_assoc, Call.bind_assoc]; exact Call.bind_reply _ _ fun _ _ => rfl)
  obtain ⟨rfl, -⟩ := hT.status_byte h.kind
  exact ⟨_, ht, rfl, hT.coreKept _, hT.flashKept (.inl rfl) rfl _, busyBit_statusByte _ _⟩

theorem exec_identify_full (h : s.OnDevice) (hw : s.env.dev.wip = false)
    (hp : plausible [s.env.dev.ident.b0, s.env.dev.ident.b1, s.env.dev.ident.b2] = true) :
    ∃ t, exec .identify s = .next t ∧ t.response.code = .ok ∧ CoreKept s t ∧ FlashKept s t ∧
      t.response.id = { reserved := 0, manufacturer := s.env.dev.ident.b0, device := s.env.dev.ident.b1,
                        capacity := s.env.dev.ident.b2 } := by
  have hnext : ∃ m u, m.1 = true ∧ Transacted (s.checked.enter .cmd) u [0x9F] (.read 3) m ∧
      exec .identify s = .next (u.respond (identifyReply m)) := by
    refine perform_transaction_full h (Call.bind_reply _ identifyReply fun m u => ?_)
    unfold identifyReply
    split
    · rfl
    · split <;> rfl
  obtain ⟨⟨ok, rs⟩, u, rfl, hT, ht⟩ := hnext
  obtain rfl : rs = [s.env.dev.ident.b0, s.env.dev.ident.b1, s.env.dev.ident.b2] := hT.identity_bytes h.kind hw
  have hreply : (identifyReply (true, [s.env.dev.ident.b0, s.env.dev.ident.b1, s.env.dev.ident.b2])).code = .ok := by
    simp [identifyReply, hp]
  refine ⟨_, ht, hreply, hT.coreKept _, hT.flashKept (.inr (.inr (.inl rfl))) rfl _, ?_⟩
  rw [State.respond_response, Reply.response_id, identifyReply_id hreply]
  rfl

theorem exec_wireReadJedecId_full (h : s.OnDevice) (hw : s.env.dev.wip = false) :
    ∃ t, exec .wireReadJedecId s = .next t ∧ t.response.code = .ok ∧ FlashKept s t ∧
      t.response.rbuf = [s.env.dev.ident.b0, s.env.dev.ident.b1, s.env.dev.ident.b2] := by
  obtain ⟨rs, u, hT, ht⟩ := lone_full h [0x9F] (.read 3) fun rs => { code := .ok, rbuf := some rs }
  exact ⟨_, ht, rfl, hT.flashKept (.inr (.inr (.inl rfl))) rfl _, hT.identity_bytes h.kind hw⟩

theorem exec_wireReadData_full (h : s.OnDevice) (hw : s.env.dev.wip = false) (a : Addr24) (n : XWord) :
    ∃ t, exec (.wireReadData a n) s = .next t ∧ t.response.code = .ok ∧ CoreKept s t ∧ FlashKept s t ∧
      t.response.rbuf =
        (List.range n.toNat).map fun i => s.env.dev.mem.read ((a.toNat + i) % s.env.dev.size.val) := by
  obtain ⟨rs, u, hT, ht⟩ := lone_full h (0x03 :: addrBytes24 a) (.read n.toNat) fun rs => { code := .ok, rbuf := some rs }
  exact ⟨_, ht, rfl, hT.coreKept _, hT.flashKept (.inr (.inr (.inr ⟨a, rfl⟩))) rfl _, hT.data_bytes h.kind hw⟩

/-- A lone transaction that reads nothing back, on an idle device: the device closes it. -/
theorem loneOk_full (h : s.OnDevice) (hw : s.env.dev.wip = false) (header : List Byte) (p : Payload) :
    ∃ t d, loneOk header p s = .next t ∧ t.response.code = .ok ∧ CoreKept s t ∧ t.env.dev = SimFlash.close d ∧
      d.tx = header ++ p.written ∧ ∃ rdn, d = { s.env.dev with tx := d.tx, rdn := rdn } := by
  obtain ⟨rs, u, hT, ht⟩ := lone_full h header p fun _ => { code := .ok }
  obtain ⟨rdn, hclose, -⟩ := hT.on_idle_device h.kind hw rfl
  exact ⟨_, _, ht, rfl, hT.coreKept _, hclose, rfl, rdn, rfl⟩

theorem exec_wireWriteEnable_full (h : s.OnDevice) (hw : s.env.dev.wip = false) :
    ∃ t, exec .wireWriteEnable s = .next t ∧ t.response.code = .ok ∧ CoreKept s t ∧ FlashKept s t ∧
      t.env.dev.wel = true ∧ t.env.dev.wip = false := by
  obtain ⟨t, d, ht, hok, hkept, hclose, htx, rdn, hd⟩ := loneOk_full h hw [0x06] .none
  have hwip : d.wip = false := by rw [hd]; exact hw
  have hmem : d.mem = s.env.dev.mem := by rw [hd]
  rw [SimFlash.close_writeEnable hwip htx] at hclose
  exact ⟨t, ht, hok, hkept, fun x => by rw [hclose, hmem], by rw [hclose], by rw [hclose]; exact hwip⟩

/-- Either opcode of a chip erase, alone. -/
theorem loneOk_eraseChip_full {header : List Byte} (h : s.OnDevice) (hw : s.env.dev.wip = false)
    (hheader : header = [0xC7] ∨ header = [0x60]) :
    ∃ t, loneOk header .none s = .next t ∧ t.response.code = .ok ∧ t.env.dev.wip = s.env.dev.wel ∧
      ∀ x, t.env.dev.mem.read x = if s.env.dev.wel = true then 0xFF else s.env.dev.mem.read x := by
  obtain ⟨t, d, ht, hok, -, hclose, htx, rdn, hd⟩ := loneOk_full h hw header .none
  rw [Payload.written, List.append_nil] at htx
  obtain ⟨-, hwip, hread⟩ := SimFlash.eraseChip_idle (d := d) (by rw [hd]; exact hw) (htx ▸ hheader)
  rw [← hclose] at hwip hread
  rw [hd] at hwip hread
  exact ⟨t, ht, hok, hwip, hread⟩

/-- An operation behind the gate, past its check, on an idle device: the latch is set, and the device closes the command. -/
theorem gated_full {c : Command} {p : Payload} {a : Addr24} {e : Reply} {chk : State → Option ResultCode}
    (h : s.OnDevice) (hw : s.env.dev.wip = false) (hc : chk s.checked = none) :
    ∃ (u : State) (rdn : Nat), perform s (fun s => ifReady e s fun s => ifShaped (chk s) s (gatedCommand c a p)) =
        .next (u.respond { code := .ok }) ∧
      CoreKept s (u.respond { code := .ok }) ∧ (u.respond { code := .ok }).OnDevice ∧
      u.env.dev =
        SimFlash.close { s.env.dev with wel := true, tx := encodeHeader s.eraseChip c a ++ p.written, rdn := rdn } := by
  have hfull : FullDevice s.checked := ⟨h.kind, h.full⟩
  obtain ⟨r, u, ⟨rfl, hsteady, hu, -, rdn, hdev⟩, ht⟩ := perform_ready (e := e)
    (k := fun s => ifShaped (chk s) s (gatedCommand c a p)) h.idle h.ready
    (by rw [hc, ifShaped_none]; exact gatedCommand_full a hfull hw)
  have hkept := ((Steady.checked s).trans hsteady).respond { code := .ok }
  exact ⟨u, rdn, ht, hkept, ⟨rfl, hkept.mode.trans h.ready, hu.kind, hu.script⟩, hdev⟩

/-- A `program` past its check on an idle device, with a payload no longer than the device's page (20_memory.md R94). -/
theorem exec_program_full {a : XWord} {buf : List Byte} (h : s.OnDevice) (hw : s.env.dev.wip = false)
    (hwf : s.FlashCanonical) (hc : checkProgram s.geom a.toNat buf.length = none)
    (hlen : buf.length ≤ s.env.dev.page.val) :
    ∃ t, exec (.program a buf) s = .next t ∧ t.response.code = .ok ∧ CoreKept s t ∧ t.OnDevice ∧
      t.env.dev.wel = true ∧ t.env.dev.wip = true ∧
      (∀ (i : Nat) (b : Byte), buf[i]? = some b →
        s.env.dev.programAddr (a.toNat % 2 ^ 24) i < s.env.dev.size.val →
        t.env.dev.mem.read (s.env.dev.programAddr (a.toNat % 2 ^ 24) i) =
          s.env.dev.mem.read (s.env.dev.programAddr (a.toNat % 2 ^ 24) i) &&& b) ∧
      (∀ x, s.env.dev.size.val ≤ x ∨ (∀ i < buf.length, s.env.dev.programAddr (a.toNat % 2 ^ 24) i ≠ x) →
        t.env.dev.mem.read x = s.env.dev.mem.read x) := by
  obtain ⟨u, rdn, ht, hkept, hdevice, hclose⟩ := gated_full (c := .programPage) (p := .write buf) (a := wireAddr a)
    (e := { code := .notConfigured }) (chk := fun s => checkProgram s.geom a.toNat buf.length) h hw hc
  obtain ⟨hwel, hwip, hstored, hothers⟩ := SimFlash.program_idle (d := { s.env.dev with
    wel := true, tx := encodeHeader s.eraseChip .programPage (wireAddr a) ++ buf, rdn := rdn }) hw hwf hlen rfl
  rw [wireAddr_toNat] at hstored hothers
  refine ⟨_, ht, rfl, hkept, hdevice, ?_⟩
  rw [State.respond_env, hclose]
  exact ⟨hwel, hwip, hstored, hothers⟩

end Operations

/-! ## The round trip -/

/-- Inside the page of its start, a program stores byte `i` at the address plus `i` (20_memory.md R94). -/
theorem SimFlash.programAddr_eq_add {d : SimFlash} {a i : Nat} (ha : a < d.size.val)
    (hi : a % d.page.val + i < d.page.val) : d.programAddr a i = a + i := by
  have hmod : (a + i) % d.page.val = a % d.page.val + i := by
    rw [Nat.add_mod, Nat.mod_eq_of_lt (show i < d.page.val by omega), Nat.mod_eq_of_lt hi]
  have hpage := Nat.div_add_mod' a d.page.val
  simp only [SimFlash.programAddr, Nat.mod_eq_of_lt ha, hmod]
  omega

/-- The device ends its cycle between operations, and is ready for the next one. -/
theorem State.OnDevice.completeEvent {t : State} (h : t.OnDevice) :
    t.completeEvent.OnDevice ∧ t.completeEvent.env.dev = t.env.dev.complete := by
  refine ⟨⟨?_, ?_, ?_, ?_⟩, ?_⟩
  · exact (State.onDevice_seq _ _).trans h.idle
  · exact (State.onDevice_mode _ _).trans h.ready
  · exact (State.onDevice_kind _ _).trans h.kind
  · exact (State.onDevice_script _ _).trans h.full
  · rw [State.completeEvent, State.onDevice_dev, if_pos h.kind]

/-! ## The obligations -/

/-- Settles O40: the first, third and last operation are lone transactions that read, and `is_busy` is the first with the busy
bit as its answer. -/
theorem readsOnTheDevice : Obligations.ReadsOnTheDevice := by
  intro s a n h
  refine ⟨?status, exec_isBusy_full h, exec_identify_full h, fun hw hrange => ?data⟩
  case status =>
    obtain ⟨t, ht, hok, hkept, hflash, hstatus, -⟩ := exec_wireReadStatus_full h
    exact ⟨t, (exec_readStatus_eq_wire h.ready).trans ht, hok, hkept, hflash, hstatus⟩
  case data =>
    obtain ⟨t, ht, hok, hkept, hflash, hbytes⟩ := exec_wireReadData_full h hw (wireAddr a) n
    rw [wireAddr_toNat] at hbytes
    exact ⟨t, (exec_read_eq_wire h.ready hrange).trans ht, hok, hkept, hflash, hbytes⟩

/-- Settles O41: in `Ready` the operation is the lone transaction of its command. -/
theorem writeEnableSetsTheLatch : Obligations.WriteEnableSetsTheLatch := by
  intro s h hw
  rw [exec_writeEnable_eq_wire h.ready]
  exact exec_wireWriteEnable_full h hw

/-- Settles O42: the gate passes and sets the latch, so the closing erase takes effect. -/
theorem eraseBlockErasesItsBlock : Obligations.EraseBlockErasesItsBlock := by
  intro a s h hw hmask hrange
  obtain ⟨u, rdn, ht, hkept, -, hclose⟩ := gated_full (c := .eraseBlock) (p := .none) (a := wireAddr a)
    (e := { code := .notConfigured }) (chk := fun s => checkErase s.geom a.toNat) h hw (checkErase_none.2 ⟨hmask, hrange⟩)
  obtain ⟨hwel, hwip, hread⟩ := SimFlash.eraseBlock_idle (a := wireAddr a) (d := { s.env.dev with
    wel := true, tx := encodeHeader s.eraseChip .eraseBlock (wireAddr a) ++ [], rdn := rdn }) hw rfl
  refine ⟨_, ht, rfl, hkept, ?_⟩
  rw [State.respond_env, hclose]
  exact ⟨hwel, hwip, fun x => (hread x).trans (by simp [wireAddr_toNat])⟩

/-- Settles O43: the same, with either opcode of the parameter. -/
theorem eraseAllErasesEverything : Obligations.EraseAllErasesEverything := by
  intro s h hw
  obtain ⟨u, rdn, ht, hkept, -, hclose⟩ := gated_full (c := .eraseChip) (p := .none) (a := 0)
    (e := { code := .notConfigured }) (chk := fun _ => none) h hw rfl
  obtain ⟨hwel, hwip, hread⟩ := SimFlash.eraseChip_idle (d := { s.env.dev with
    wel := true, tx := encodeHeader s.eraseChip .eraseChip 0 ++ [], rdn := rdn }) hw
    (by cases s.eraseChip <;> [exact .inl rfl; exact .inr rfl])
  refine ⟨_, ht, rfl, hkept, ?_⟩
  rw [State.respond_env, hclose]
  exact ⟨hwel, hwip, hread⟩

/-- Settles O44: the same, with the closing program. -/
theorem programAndsIntoItsPage : Obligations.ProgramAndsIntoItsPage := by
  intro a buf s h hw hwf hrange hfits hlen
  obtain ⟨t, ht, hok, hkept, -, heffect⟩ := exec_program_full h hw hwf (checkProgram_none.2 ⟨hrange, hfits⟩) hlen
  exact ⟨t, ht, hok, hkept, heffect⟩

/-- Settles O45: byte `i` is stored at the address plus `i`, an erased byte takes what is ANDed into it, and the read answers the
bytes from the address on. -/
theorem programmedBytesReadBack : Obligations.ProgrammedBytesReadBack := by
  intro a buf s h hw hwf hl hfits hpow hpage hsize hc hend herased
  obtain ⟨ha, hn⟩ := checkProgram_none.1 hc
  rw [pageOffset_eq_mod hpow, hpage] at hn
  have hwire : a.toNat % 2 ^ 24 = a.toNat := Nat.mod_eq_of_lt (ha.trans_le hfits)
  obtain ⟨t, ht, hok, hkept, hdevice, -, -, hstored, -⟩ := exec_program_full h hw hwf hc (by omega)
  rw [hwire] at hstored
  obtain ⟨hnext, hdev⟩ := hdevice.completeEvent
  have hlen : (BitVec.ofNat 32 buf.length).toNat = buf.length := by
    rw [BitVec.toNat_ofNat, Nat.mod_eq_of_lt]
    have := s.geom.endAddress.isLt
    omega
  have hgeom : t.completeEvent.geom = s.geom := (State.onDevice_geom _ _).trans hkept.geom
  have hidle : t.completeEvent.env.dev.wip = false := by
    rw [hdev, SimFlash.complete]
    cases hb : t.env.dev.wip
    · exact hb
    · rfl
  obtain ⟨u, hu, hok', -, -, hbytes⟩ := (readsOnTheDevice t.completeEvent a (BitVec.ofNat 32 buf.length) hnext).2.2.2 hidle
    (by rw [hlen, hgeom]; exact hend)
  refine ⟨t, u, ht, hok, hu, hok', ?_⟩
  rw [hbytes, hlen, hdev, SimFlash.complete_mem, (SimFlash.complete_same _).size, hkept.size, hwire]
  refine (answer_eq rfl fun i hi b hb => ?_).symm
  have hsum : (a.toNat + i) % s.env.dev.size.val = a.toNat + i := Nat.mod_eq_of_lt (by omega)
  have haddr : s.env.dev.programAddr a.toNat i = a.toNat + i := SimFlash.programAddr_eq_add (by omega) (by omega)
  have hget : buf[i]? = some buf[i] := List.getElem?_eq_getElem hi
  have hread := hstored i buf[i] hget (by rw [haddr]; omega)
  rw [haddr, herased i hi] at hread
  rw [hget, ← hb, hsum, hread]
  exact congrArg some BitVec.allOnes_and.symm

/-- Settles O48: what each lone transaction answers, and what the device leaves when it closes. -/
theorem wireCommandsOnTheDevice : Obligations.WireCommandsOnTheDevice := by
  intro s a n data h hw
  refine ⟨?enable, ?status, exec_wireReadJedecId_full h hw, ?data, ?chip, ?chipAlt, ?block, fun hwf hlen => ?program⟩
  case enable =>
    obtain ⟨t, ht, hok, -, hrest⟩ := exec_wireWriteEnable_full h hw
    exact ⟨t, ht, hok, hrest⟩
  case status =>
    obtain ⟨t, ht, hok, -, hflash, hstatus, hidle⟩ := exec_wireReadStatus_full h
    obtain ⟨hwel, hwip⟩ := hidle hw
    rw [hwel, hwip] at hstatus
    exact ⟨t, ht, hok, hflash, hstatus.trans (by cases s.env.dev.wel <;> rfl)⟩
  case data =>
    obtain ⟨t, ht, hok, -, hrest⟩ := exec_wireReadData_full h hw a n
    exact ⟨t, ht, hok, hrest⟩
  case chip =>
    obtain ⟨t, ht, hok, hwip, hread⟩ := loneOk_eraseChip_full h hw (.inl rfl)
    exact ⟨t, ht, hok, hwip, hread⟩
  case chipAlt =>
    obtain ⟨t, ht, hok, hwip, hread⟩ := loneOk_eraseChip_full h hw (.inr rfl)
    exact ⟨t, ht, hok, hwip, hread⟩
  case block =>
    obtain ⟨t, d, ht, hok, -, hclose, htx, rdn, hd⟩ := loneOk_full h hw (0xD8 :: addrBytes24 a) .none
    obtain ⟨-, hwip, hread⟩ := SimFlash.eraseBlock_idle (d := d) (a := a) (by rw [hd]; exact hw) htx
    rw [← hclose] at hwip hread
    rw [hd] at hwip hread
    exact ⟨t, ht, hok, hwip, hread⟩
  case program =>
    obtain ⟨t, d, ht, hok, -, hclose, htx, rdn, hd⟩ := loneOk_full h hw (0x02 :: addrBytes24 a) (.write data)
    obtain ⟨-, hwip, hstored, hothers⟩ := SimFlash.program_idle (d := d) (a := a) (data := data) (by rw [hd]; exact hw)
      (by rw [hd]; exact hwf) (by rw [hd]; exact hlen) htx
    rw [← hclose] at hwip hstored hothers
    rw [hd] at hwip hstored hothers
    exact ⟨t, ht, hok, hwip, hstored, hothers⟩

end Sys2Proof.Machine
end

section
/-! PROOFS. No history (O55): two runs that start with the same mode, geometry, parameter, environment and free values go on
alike, call by call. -/

namespace Sys2Proof.Machine

/-! ## Two calls side by side -/

/-- Two calls end in the same way, with one value: `P` of the value and the two states, or `H` of the states they hang in. -/
def Call.Sat₂ {α : Type} (c d : Call α) (P : α → State → State → Prop) (H : State → State → Prop) : Prop :=
  match c, d with
  | .done a s, .done b t => a = b ∧ P a s t
  | .hung s, .hung t => H s t
  | _, _ => False

theorem Call.Sat₂.bind {α β : Type} {c d : Call α} {k l : α → State → Call β} {P : α → State → State → Prop}
    {Q : β → State → State → Prop} {H : State → State → Prop} (hc : c.Sat₂ d P H)
    (hk : ∀ a s t, P a s t → (k a s).Sat₂ (l a t) Q H) : (c.bind k).Sat₂ (d.bind l) Q H := by
  cases c <;> cases d
  case done.done =>
    obtain ⟨rfl, hP⟩ := hc
    exact hk _ _ _ hP
  case hung.hung => exact hc
  all_goals exact hc.elim

theorem Call.Sat₂.mono {α : Type} {c d : Call α} {P Q : α → State → State → Prop} {H K : State → State → Prop}
    (hc : c.Sat₂ d P H) (hP : ∀ a s t, P a s t → Q a s t) (hH : ∀ s t, H s t → K s t) : c.Sat₂ d Q K := by
  cases c <;> cases d
  case done.done => exact ⟨hc.1, hP _ _ _ hc.2⟩
  case hung.hung => exact hH _ _ hc
  all_goals exact hc.elim

/-! ## Two runs side by side -/

/-- Two executing cores agree on all that an operation reads, and have made the same calls since the traces `p` and `q`. -/
structure Twins (p q : List Event) (s t : State) : Prop where
  mode      : s.mode = t.mode
  geom      : s.geom = t.geom
  seq       : s.seq = t.seq
  busy      : s.seq ≠ .idle
  eraseChip : s.eraseChip = t.eraseChip
  env       : s.env = t.env
  draws     : s.draws = t.draws
  trace     : ∃ es, s.trace = p ++ es ∧ t.trace = q ++ es

/-- Two calls go on alike. -/
abbrev Call.Alike {α : Type} (p q : List Event) (c d : Call α) : Prop :=
  c.Sat₂ d (fun _ => Twins p q) (Twins p q)

section Twins
variable {p q : List Event} {s t : State}

theorem Twins.record (h : Twins p q s t) (c : TransportCall) (a : Answer) : Twins p q (s.record c a) (t.record c a) := by
  obtain ⟨es, hs, ht⟩ := h.trace
  exact ⟨h.mode, h.geom, h.seq, h.busy, h.eraseChip, h.env, h.draws, es ++ [{ call := c, answer := a }],
    by simp [hs], by simp [ht]⟩

theorem Twins.enter (h : Twins p q s t) {ph : Phase} (hp : ph ≠ .idle) : Twins p q (s.enter ph) (t.enter ph) :=
  ⟨h.mode, h.geom, rfl, hp, h.eraseChip, h.env, h.draws, h.trace⟩

theorem Twins.tick (h : Twins p q s t) : Twins p q s.tick t.tick :=
  ⟨h.mode, h.geom, h.seq, h.busy, h.eraseChip, h.env, by rw [State.tick_draws, h.draws, State.tick_draws], h.trace⟩

/-- The environments may change alike. -/
theorem Twins.withEnv (h : Twins p q s t) (e : Environment) : Twins p q { s with env := e } { t with env := e } :=
  ⟨h.mode, h.geom, h.seq, h.busy, h.eraseChip, rfl, h.draws, h.trace⟩

/-- Chip-select is read by nothing. -/
theorem Twins.withCs (h : Twins p q s t) (b : Bool) : Twins p q { s with cs := b } { t with cs := b } :=
  ⟨h.mode, h.geom, h.seq, h.busy, h.eraseChip, h.env, h.draws, h.trace⟩

theorem Twins.withDevice (h : Twins p q s t) (d : SimFlash) : Twins p q (s.withDevice d) (t.withDevice d) := by
  rw [State.withDevice, State.withDevice, h.env]
  exact h.withEnv _

theorem Twins.onDevice (h : Twins p q s t) (f : SimFlash → SimFlash) : Twins p q (s.onDevice f) (t.onDevice f) := by
  unfold State.onDevice
  rw [h.env]
  split
  · exact h.withDevice _
  · exact h

theorem Twins.setGeometry (h : Twins p q s t) (g : Geometry) : Twins p q (s.setGeometry g) (t.setGeometry g) :=
  ⟨rfl, rfl, h.seq, h.busy, h.eraseChip, h.env, h.draws, h.trace⟩

/-- The environments of both choose the same answer. -/
theorem Twins.choose (h : Twins p q s t) (full : Nat) :
    ∃ a u v, s.choose full = (a, u) ∧ t.choose full = (a, v) ∧ Twins p q u v := by
  unfold State.choose
  rw [h.env]
  split
  · exact ⟨_, _, _, rfl, rfl, h.withEnv _⟩
  · split
    · exact ⟨_, _, _, rfl, rfl, h⟩
    · exact ⟨_, _, _, rfl, by rw [h.draws], h.tick⟩

/-- The devices of both end their cycle, or neither does. -/
theorem Twins.maybeComplete (h : Twins p q s t) : Twins p q s.maybeComplete t.maybeComplete := by
  unfold State.maybeComplete
  rw [h.env]
  split
  · split
    · exact h.withEnv _
    · rw [h.draws]
      exact (h.withDevice _).tick
  · exact h

theorem Twins.openDevice (h : Twins p q s t) : Twins p q s.openDevice t.openDevice := by
  unfold State.openDevice
  rw [h.env]
  split
  · exact h.maybeComplete.onDevice _
  · exact h

theorem Twins.transferred (h : Twins p q s t) (c n : Nat) : s.transferred c n = t.transferred c n := by
  rw [State.transferred, State.transferred, h.env]

theorem Twins.received (h : Twins p q s t) (k : Nat) (bs : List Byte) : s.received k bs = t.received k bs := by
  rw [State.received, State.received, h.env]

/-! ## The calls, transactions and procedures of two runs -/

theorem transportBegin_twins (h : Twins p q s t) : (transportBegin s).Alike p q (transportBegin t) := by
  obtain ⟨a, u, v, hs, ht, hc⟩ := h.choose 0
  rw [transportBegin, transportBegin, hs, ht]
  cases a with
  | never => exact hc.record _ _
  | returns c bs => exact ⟨rfl, (hc.openDevice.withCs true).record _ _⟩

theorem transportEnd_twins (h : Twins p q s t) : (transportEnd s).Alike p q (transportEnd t) := by
  obtain ⟨a, u, v, hs, ht, hc⟩ := h.choose 0
  rw [transportEnd, transportEnd, hs, ht]
  cases a with
  | never => exact hc.record _ _
  | returns c bs => exact ⟨rfl, ((hc.onDevice _).withCs false).record _ _⟩

theorem transportWrite_twins (h : Twins p q s t) (bs : List Byte) :
    (transportWrite bs s).Alike p q (transportWrite bs t) := by
  obtain ⟨a, u, v, hs, ht, hc⟩ := h.choose bs.length
  rw [transportWrite, transportWrite, hs, ht]
  cases a with
  | never => exact hc.record _ _
  | returns c r =>
    simp only [hc.transferred]
    exact ⟨rfl, (hc.onDevice _).record _ _⟩

theorem transportRead_twins (h : Twins p q s t) (k : Nat) : (transportRead k s).Alike p q (transportRead k t) := by
  obtain ⟨a, u, v, hs, ht, hc⟩ := h.choose k
  rw [transportRead, transportRead, hs, ht]
  cases a with
  | never => exact hc.record _ _
  | returns c r =>
    simp only [hc.transferred, hc.received, hc.draws]
    exact ⟨rfl, (hc.onDevice _).tick.record _ _⟩

theorem subWrite_twins (h : Twins p q s t) (bs : List Byte) : (subWrite bs s).Alike p q (subWrite bs t) :=
  (transportWrite_twins h bs).bind fun _ _ _ hu => ⟨rfl, hu⟩

theorem subPayload_twins (h : Twins p q s t) (pl : Payload) : (subPayload pl s).Alike p q (subPayload pl t) := by
  cases pl with
  | none => exact ⟨rfl, h⟩
  | write bs => exact (subWrite_twins h bs).bind fun _ _ _ hu => ⟨rfl, hu⟩
  | read k => exact (transportRead_twins h k).bind fun _ _ _ hu => ⟨rfl, hu⟩

theorem transaction_twins (h : Twins p q s t) (header : List Byte) (pl : Payload) :
    (transaction header pl s).Alike p q (transaction header pl t) :=
  (transportBegin_twins h).bind fun _ _ _ h1 =>
    (subWrite_twins h1 header).bind fun _ _ _ h2 =>
      (subPayload_twins h2 pl).bind fun _ _ _ h3 =>
        (transportEnd_twins h3).bind fun _ _ _ h4 => ⟨rfl, h4⟩

theorem commandTransaction_twins (h : Twins p q s t) (c : Command) (a : Addr24) (pl : Payload) :
    (commandTransaction c a pl s).Alike p q (commandTransaction c a pl t) := by
  rw [commandTransaction, commandTransaction, h.eraseChip]
  exact transaction_twins h _ pl

theorem readStatusProc_twins (h : Twins p q s t) : (readStatusProc s).Alike p q (readStatusProc t) :=
  (commandTransaction_twins h _ _ _).bind fun _ _ _ hu => ⟨rfl, hu⟩

theorem isBusyProc_twins (h : Twins p q s t) : (isBusyProc s).Alike p q (isBusyProc t) :=
  (readStatusProc_twins h).bind fun _ _ _ hu => ⟨rfl, hu⟩

theorem writeEnableProc_twins (h : Twins p q s t) : (writeEnableProc s).Alike p q (writeEnableProc t) :=
  (commandTransaction_twins h _ _ _).bind fun _ _ _ hu => ⟨rfl, hu⟩

theorem gatedCommand_twins (h : Twins p q s t) (c : Command) (a : Addr24) (pl : Payload) :
    (gatedCommand c a pl s).Alike p q (gatedCommand c a pl t) := by
  refine (isBusyProc_twins (h.enter (by decide))).bind fun busy u v hu => ?_
  cases busy with
  | true => exact ⟨rfl, hu⟩
  | false =>
    exact (writeEnableProc_twins (hu.enter (by decide))).bind fun _ _ _ hw =>
      (commandTransaction_twins (hw.enter (by decide)) c a pl).bind fun _ _ _ hx => ⟨rfl, hx⟩

theorem ifShaped_twins (h : Twins p q s t) {chk1 chk2 : Option ResultCode} {k l : State → Call Reply} (hc : chk1 = chk2)
    (hk : (k s).Alike p q (l t)) : (ifShaped chk1 s k).Alike p q (ifShaped chk2 t l) := by
  subst hc
  cases chk1 with
  | none => exact hk
  | some e => exact ⟨rfl, h⟩

end Twins

/-! ## Two operations side by side -/

/-- The two runs of an operation end alike: the phase, the response if they respond, and the calls made. -/
def EndAlike (s1 s2 t1 t2 : State) : Prop :=
  t1.seq = t2.seq ∧ (t1.seq = .idle → t1.response = t2.response) ∧
    ∃ es, t1.trace = s1.trace ++ es ∧ t2.trace = s2.trace ++ es

section Operations
variable {s1 s2 t1 t2 : State}

/-- An operation ends alike when its body does: a response is decided by the reply and the free values. -/
theorem perform_endAlike {body : State → Call Reply}
    (hbody : (body { s1 with phases := [.idle] }).Sat₂ (body { s2 with phases := [.idle] })
      (fun _ u v => u.draws = v.draws ∧ ∃ es, u.trace = s1.trace ++ es ∧ v.trace = s2.trace ++ es)
      (Twins s1.trace s2.trace))
    (h1 : perform s1 body = .next t1) (h2 : perform s2 body = .next t2) : EndAlike s1 s2 t1 t2 := by
  rcases (perform_next h1).2 with ⟨r1, u, e1, rfl⟩ | e1 <;> rcases (perform_next h2).2 with ⟨r2, v, e2, rfl⟩ | e2 <;>
    rw [e1, e2] at hbody
  case inl.inl =>
    obtain ⟨rfl, hdraws, htrace⟩ := hbody
    exact ⟨rfl, fun _ => by rw [State.respond_response, State.respond_response, hdraws], htrace⟩
  case inl.inr => exact hbody.elim
  case inr.inl => exact hbody.elim
  case inr.inr => exact ⟨hbody.seq, fun hidle => absurd hidle hbody.busy, hbody.trace⟩

/-- What a statement about two runs assumes of their starts (10_state.md R45). -/
structure SameStart (s1 s2 : State) : Prop where
  mode      : s1.mode = s2.mode
  geom      : s1.geom = s2.geom
  eraseChip : s1.eraseChip = s2.eraseChip
  env       : s1.env = s2.env
  draws     : s1.draws = s2.draws

theorem SameStart.checked (h : SameStart s1 s2) : Twins s1.trace s2.trace s1.checked s2.checked :=
  ⟨h.mode, h.geom, rfl, nofun, h.eraseChip, h.env, h.draws, [], by simp, by simp⟩

/-- A body whose two runs are twins ends alike. -/
theorem Call.Alike.ends {c d : Call Reply} (h : c.Alike s1.trace s2.trace d) :
    c.Sat₂ d (fun _ u v => u.draws = v.draws ∧ ∃ es, u.trace = s1.trace ++ es ∧ v.trace = s2.trace ++ es)
      (Twins s1.trace s2.trace) :=
  h.mono (fun _ _ _ hu => ⟨hu.draws, hu.trace⟩) fun _ _ hu => hu

theorem ifReady_start (e : Reply) (s : State) (K : State → Call Reply) :
    ifReady e { s with phases := [.idle] } K =
      match s.mode with
      | .ready => K s.checked
      | .unconfigured => .done e s.checked := rfl

/-- The mode test answers both runs, or the body behind it decides. -/
theorem perform_ifReady_endAlike {e : Reply} {K : State → Call Reply} (h : SameStart s1 s2)
    (h1 : perform s1 (fun s => ifReady e s K) = .next t1) (h2 : perform s2 (fun s => ifReady e s K) = .next t2)
    (hK : (K s1.checked).Alike s1.trace s2.trace (K s2.checked)) : EndAlike s1 s2 t1 t2 := by
  refine perform_endAlike (Call.Alike.ends ?_) h1 h2
  rw [ifReady_start, ifReady_start, h.mode]
  cases s2.mode with
  | ready => exact hK
  | unconfigured => exact ⟨rfl, h.checked⟩

theorem configure_endAlike {ps ebs ts : XWord} (h : SameStart s1 s2) (h1 : exec (.configure ps ebs ts) s1 = .next t1)
    (h2 : exec (.configure ps ebs ts) s2 = .next t2) : EndAlike s1 s2 t1 t2 := by
  refine perform_endAlike (body := configureBody ps ebs ts) (Call.Alike.ends ?_) h1 h2
  rw [configureBody_start, configureBody_start, h.mode]
  cases s2.mode with
  | ready => exact ⟨rfl, h.checked⟩
  | unconfigured => exact ifShaped_twins h.checked rfl ⟨rfl, h.checked.setGeometry _⟩

theorem illegalOp_endAlike (h : SameStart s1 s2) (h1 : illegalOp s1 = .next t1) (h2 : illegalOp s2 = .next t2) :
    EndAlike s1 s2 t1 t2 :=
  perform_endAlike (body := raise .illegalOp) ⟨rfl, h.draws, [], by simp, by simp⟩ h1 h2

end Operations

/-- Settles O55: the mode test, the checks, the gate and every call read only what the two starts share. -/
theorem noHistoryIsKept : Obligations.NoHistoryIsKept := by
  intro i s1 s2 t1 t2 hi hmode hgeom heraseChip henv hdraws h1 h2
  have h : SameStart s1 s2 := ⟨hmode, hgeom, heraseChip, henv, hdraws⟩
  have hcmd := h.checked.enter (ph := .cmd) (by decide)
  cases i with
  | configure ps ebs ts => exact configure_endAlike h h1 h2
  | readStatus =>
    refine perform_ifReady_endAlike h h1 h2 ((readStatusProc_twins hcmd).bind fun m _ _ hu => ?_)
    split <;> exact ⟨rfl, hu⟩
  | isBusy =>
    exact perform_ifReady_endAlike h h1 h2 ((isBusyProc_twins hcmd).bind fun _ _ _ hu => ⟨rfl, hu⟩)
  | writeEnable =>
    exact perform_ifReady_endAlike h h1 h2 ((writeEnableProc_twins hcmd).bind fun _ _ _ hu => ⟨rfl, hu⟩)
  | identify =>
    refine perform_ifReady_endAlike h h1 h2 ((commandTransaction_twins hcmd _ _ _).bind fun m _ _ hu => ?_)
    split
    · exact ⟨rfl, hu⟩
    · split <;> exact ⟨rfl, hu⟩
  | read a n =>
    refine perform_ifReady_endAlike h h1 h2 (ifShaped_twins h.checked (by rw [h.checked.geom])
      ((commandTransaction_twins hcmd _ _ _).bind fun m _ _ hu => ?_))
    split <;> exact ⟨rfl, hu⟩
  | eraseBlock a =>
    exact perform_ifReady_endAlike h h1 h2 (ifShaped_twins h.checked (by rw [h.checked.geom])
      (gatedCommand_twins h.checked _ _ _))
  | eraseAll => exact perform_ifReady_endAlike h h1 h2 (gatedCommand_twins h.checked _ _ _)
  | program a buf =>
    exact perform_ifReady_endAlike h h1 h2 (ifShaped_twins h.checked (by rw [h.checked.geom])
      (gatedCommand_twins h.checked _ _ _))
  | reserved9 | reserved10 | reserved11 | reserved12 | reserved13 | reserved14 | reserved15 =>
    exact illegalOp_endAlike h h1 h2
  | _ => cases hi

end Sys2Proof.Machine
end
